-- ==== Sys2Proof/Word.lean ====
section
/-! DEFINITION. The bit vectors the spec names: bytes of the state array and of command words, 32-bit
command and response words, 64-bit lanes (00_scope.md R9, R10). -/

namespace Sys2Proof

/-- One byte: of S, of RATE, DELIM, OFFSET, or of a command operand. -/
abbrev Byte := BitVec 8

/-- A command word or a response word (R9: both are 32 bits). -/
abbrev Word := BitVec 32

/-- One lane of the 5 by 5 matrix (R9: LANE_BITS = 64). -/
abbrev Lane := BitVec 64

end Sys2Proof
end

