-- ==== Sys2Proof/Config.lean ====
section
/-! DEFINITION. What an implementation fixes: the block's sizes (00_scope.md R9), and the one parameter
the spec leaves OPEN, ROUNDS_PER_CYCLE (R9, 40_permutation.md R109, decision D24). -/

namespace Sys2Proof

/-- STATE_BYTES (R9): the size of the state array. -/
abbrev Config.stateBytes : Nat := 200

/-- ROUNDS (R9): the rounds of one permutation. -/
abbrev Config.rounds : Nat := 24

/-- The largest legal rate (R9, R23; 90_conflicts.md C1). -/
abbrev Config.maxRate : Nat := 199

/-- The legal values of ROUNDS_PER_CYCLE (R9): the divisors of 24. -/
inductive RoundsPerCycle where
  | one | two | three | four | six | eight | twelve | twentyFour
  deriving DecidableEq, Repr, Inhabited

/-- The value of ROUNDS_PER_CYCLE of this implementation. The spec leaves it OPEN, so it has no body here
and every claim holds for each of the eight values (log entry 14). Only timing depends on it (R9). -/
opaque Config.roundsPerCycle : RoundsPerCycle

end Sys2Proof
end

