-- ==== Sys2Proof/Syntax.lean ====
section
/-! DEFINITION. The commands, one constructor per row of spec/opcode_table.json. -/

namespace Sys2Proof

/-- A command (30_encoding.md R75, R76). Every operand is a whole byte and every byte is a legal operand
(R77 to R79), so every term is an instruction of some command word (log entry 16). -/
inductive Instr where
  /-- STATUS (41_sponge_commands.md R141). -/
  | status
  /-- INIT rate, delim (R142). Every rate decodes; its range is checked when it is executed (R79). -/
  | init (rate delim : Byte)
  /-- ABSORB b0 (R143). -/
  | absorb1 (b0 : Byte)
  /-- ABSORB b0, b1 (R143). -/
  | absorb2 (b0 b1 : Byte)
  /-- ABSORB b0, b1, b2 (R143). -/
  | absorb3 (b0 b1 b2 : Byte)
  /-- FINALIZE (R144). -/
  | finalize
  /-- SQUEEZE 1 (R145). -/
  | squeeze1
  /-- SQUEEZE 2 (R145). -/
  | squeeze2
  /-- SQUEEZE 3 (R145). -/
  | squeeze3
  deriving DecidableEq, Repr

end Sys2Proof
end

