-- ==== Sys2Proof/WellFormed.lean ====
section
/-! DEFINITION. Which command words are well-formed, written from 30_encoding.md R84, and the names of the
ways a word can be ill-formed, from R80 and R81. The decoder (Decode.lean) is written from R75 and R80
instead, so that the two texts of the spec check each other. -/

namespace Sys2Proof

/-- R84's `wellformed(w)`. -/
def wellFormedWord (w : Word) : Bool :=
  let op := w.extractLsb' 28 4
  let n1 := w.extractLsb' 24 2
  if op = 0x0 ∨ op = 0x3 then
    w.extractLsb' 0 28 == 0
  else if op = 0x1 then
    w.extractLsb' 16 12 == 0
  else if op = 0x2 then
    w.extractLsb' 26 2 == 0 && n1 != 3 && w.extractLsb' 0 24 >>> (8 * (n1.toNat + 1)) == 0
  else if op = 0x4 then
    w.extractLsb' 26 2 == 0 && n1 != 3 && w.extractLsb' 0 24 == 0
  else
    false

/-- Why a word is no command: the cases of R80 and R81. The hardware answers all of them with the one
fault ILLEGAL_COMMAND (60_exceptions.md R180); the names are the decoder's. -/
inductive IllegalWord where
  /-- OP in 0x5..0xF (R81). -/
  | reservedOpcode
  /-- OP 0x0 with bits [27:0] not all zero. -/
  | statusBits
  /-- OP 0x1 with bits [27:16] not all zero. -/
  | initBits
  /-- OP 0x2 with bits [27:26] not zero. -/
  | absorbHighBits
  /-- OP 0x2 with N1 = 3. -/
  | absorbCount
  /-- OP 0x2 with a nonzero byte that its count does not use. -/
  | absorbUnusedBytes
  /-- OP 0x3 with bits [27:0] not all zero. -/
  | finalizeBits
  /-- OP 0x4 with bits [27:26] not zero. -/
  | squeezeHighBits
  /-- OP 0x4 with N1 = 3. -/
  | squeezeCount
  /-- OP 0x4 with bits [23:0] not all zero. -/
  | squeezeBits
  deriving DecidableEq, Repr

end Sys2Proof
end

