-- ==== Sys2Proof/Decode.lean ====
section
/-! DEFINITION. The decoder, total on every 32-bit word and rejecting by name (30_encoding.md R75, R76, R80,
R81, R84), the encoder (R75, R77 to R79), and the opcode table as data (spec/opcode_table.json). -/

namespace Sys2Proof

/-- OP, bits [31:28] (R74). -/
def opField (w : Word) : BitVec 4 := w.extractLsb' 28 4

/-- Z2, bits [27:26] (R74). -/
def z2Field (w : Word) : BitVec 2 := w.extractLsb' 26 2

/-- N1, bits [25:24] (R74). -/
def n1Field (w : Word) : BitVec 2 := w.extractLsb' 24 2

/-- Byte k of a command word, bits [8k+7 : 8k] (R77; 20_memory.md R53). -/
def byteField (w : Word) (k : Nat) : Byte := w.extractLsb' (8 * k) 8

/-- OP 0x2: the count from N1, the bytes of R77, the must-be-zero fields of R80. -/
def decodeAbsorb (w : Word) : Except IllegalWord Instr :=
  if z2Field w ≠ 0 then .error .absorbHighBits
  else if n1Field w = 3 then .error .absorbCount
  else if n1Field w = 2 then .ok (.absorb3 (byteField w 0) (byteField w 1) (byteField w 2))
  else if n1Field w = 1 then
    if byteField w 2 = 0 then .ok (.absorb2 (byteField w 0) (byteField w 1)) else .error .absorbUnusedBytes
  else
    if byteField w 2 = 0 ∧ byteField w 1 = 0 then .ok (.absorb1 (byteField w 0)) else .error .absorbUnusedBytes

/-- OP 0x4: the count from N1 (R78), the must-be-zero fields of R80. -/
def decodeSqueeze (w : Word) : Except IllegalWord Instr :=
  if z2Field w ≠ 0 then .error .squeezeHighBits
  else if n1Field w = 3 then .error .squeezeCount
  else if w.extractLsb' 0 24 ≠ 0 then .error .squeezeBits
  else if n1Field w = 2 then .ok .squeeze3
  else if n1Field w = 1 then .ok .squeeze2
  else .ok .squeeze1

/-- The decoder (R74: read OP, then check the must-be-zero fields). It reads no state (R84). -/
def decode (w : Word) : Except IllegalWord Instr :=
  if opField w = 0x0 then
    if w.extractLsb' 0 28 = 0 then .ok .status else .error .statusBits
  else if opField w = 0x1 then
    if w.extractLsb' 16 12 = 0 then .ok (.init (byteField w 1) (byteField w 0)) else .error .initBits
  else if opField w = 0x2 then decodeAbsorb w
  else if opField w = 0x3 then
    if w.extractLsb' 0 28 = 0 then .ok .finalize else .error .finalizeBits
  else if opField w = 0x4 then decodeSqueeze w
  else .error .reservedOpcode

/-- The instruction of a word given by the opcode table's bit numbers. A command is transferred whole
(R87), so the one word is the instruction and no byte order enters. -/
def decodeTableWord (nbits w : Nat) : Option Instr :=
  match decode (BitVec.ofNat 32 (w % 2 ^ nbits)) with
  | .ok i => some i
  | .error _ => none

/-- A command word from its fields, most significant first, with Z2 = 0 (R74's diagram). -/
def commandWord (op : BitVec 4) (n1 : BitVec 2) (b2 b1 b0 : Byte) : Word :=
  op ++ (0#2) ++ n1 ++ b2 ++ b1 ++ b0

/-- The word of a command (R75). -/
def encode : Instr → Word
  | .status => commandWord 0x0 0 0 0 0
  | .init rate delim => commandWord 0x1 0 0 rate delim
  | .absorb1 b0 => commandWord 0x2 0 0 0 b0
  | .absorb2 b0 b1 => commandWord 0x2 1 0 b1 b0
  | .absorb3 b0 b1 b2 => commandWord 0x2 2 b2 b1 b0
  | .finalize => commandWord 0x3 0 0 0 0
  | .squeeze1 => commandWord 0x4 0 0 0 0
  | .squeeze2 => commandWord 0x4 1 0 0 0
  | .squeeze3 => commandWord 0x4 2 0 0 0

/-- The row of spec/opcode_table.json that a command belongs to. -/
def Instr.mnemonic : Instr → String
  | .status => "STATUS"
  | .init _ _ => "INIT"
  | .absorb1 _ => "ABSORB.1"
  | .absorb2 _ _ => "ABSORB.2"
  | .absorb3 _ _ _ => "ABSORB.3"
  | .finalize => "FINALIZE"
  | .squeeze1 => "SQUEEZE.1"
  | .squeeze2 => "SQUEEZE.2"
  | .squeeze3 => "SQUEEZE.3"

/-- One row of the opcode table: its mnemonic, match and mask. -/
structure OpcodeRow where
  mnemonic : String
  pattern : Word
  mask : Word
  deriving DecidableEq, Repr

/-- The match and mask columns of spec/opcode_table.json. -/
def opcodeTable : List OpcodeRow :=
  [ ⟨"STATUS", 0x00000000, 0xFFFFFFFF⟩,
    ⟨"INIT", 0x10000000, 0xFFFF0000⟩,
    ⟨"ABSORB.1", 0x20000000, 0xFFFFFF00⟩,
    ⟨"ABSORB.2", 0x21000000, 0xFFFF0000⟩,
    ⟨"ABSORB.3", 0x22000000, 0xFF000000⟩,
    ⟨"FINALIZE", 0x30000000, 0xFFFFFFFF⟩,
    ⟨"SQUEEZE.1", 0x40000000, 0xFFFFFFFF⟩,
    ⟨"SQUEEZE.2", 0x41000000, 0xFFFFFFFF⟩,
    ⟨"SQUEEZE.3", 0x42000000, 0xFFFFFFFF⟩ ]

/-- The word has the row's fixed bits. -/
def OpcodeRow.matches (r : OpcodeRow) (w : Word) : Bool := w &&& r.mask == r.pattern

end Sys2Proof
end

