-- ==== Sys2Proof/Machine/State.lean ====
section
/-! DEFINITION. The state of the core as plain data (10_state.md), the causes of its faults, the reasons the
model stops, and the state after reset (70_reset_and_hazards.md R211). -/

namespace Sys2Proof.Machine

/-- MODE (R26). Its two-bit code is `Mode.code`. -/
inductive Mode where
  /-- 0, IDLE: not configured. -/
  | idle
  /-- 1, ABSORBING: accepting input. -/
  | absorbing
  /-- 2, SQUEEZING: producing output. -/
  | squeezing
  /-- 3, FAULT: contract violated, sticky. -/
  | fault
  deriving DecidableEq, Repr

/-- The six causes of a hardware fault (60_exceptions.md R180). A hardware fault is a next state, not a stop
of the model. Its FCODE is `Cause.code`. -/
inductive Cause where
  | illegalCommand
  | invalidRate
  | notConfigured
  | absorbAfterFinalize
  | finalizeAfterFinalize
  | squeezeBeforeFinalize
  deriving DecidableEq, Repr

/-- The contents of the state array S (R20, R50): address and byte, addresses strictly rising, no entry
equal to what an unlisted address reads as. -/
structure Memory where
  cells : List Host.Cell
  deriving DecidableEq, Repr

/-- 25 lanes; lane (x, y) is entry x + 5 * y (00_scope.md R12, R21). -/
abbrev Lanes := Vector Lane 25

/-- What is left of an accepted command (R71 'captures `cmd_word` ... and begins the command'; log entry 3).
In the last three a permutation is running in the round pipeline (R109). -/
inductive Work where
  /-- Everything is done but the response, which will carry this DATA. -/
  | respond (data : BitVec 24)
  /-- A check failed: only the fault entry of R181 is left. -/
  | fault (cause : Cause)
  /-- ABSORB at a block boundary: permuting, then these bytes (R143). -/
  | absorb (rest : List Byte)
  /-- FINALIZE after its padding: permuting, then SQUEEZING (R144). -/
  | finalize
  /-- SQUEEZE at a block boundary: permuting, then `left` more bytes after those in `out` (R145). -/
  | squeeze (left : Nat) (out : List Byte)
  deriving DecidableEq, Repr

/-- The levels of the core's input ports at one rising clock edge (R70). -/
structure Ports where
  rst : Bool
  cmdValid : Bool
  cmdWord : Word
  rspReady : Bool
  deriving DecidableEq, Repr

/-- What the host does next (00_scope.md R7, R8; log entry 1). -/
inductive HostAct where
  /-- Offer this word until the core accepts it; the accepted command is one atomic step (R7, R140). -/
  | command (w : Word)
  /-- One rising clock edge with these port levels (R70). -/
  | edge (p : Ports)
  deriving DecidableEq, Repr

/-- The model's own: the host's command offer as R216 has it (log entry 11). -/
inductive Offer where
  /-- No word is waiting to be accepted. -/
  | none
  /-- This word was offered and not accepted: the host must hold it. -/
  | waiting (w : Word)
  /-- The host changed or dropped a waiting offer at an edge with `rst` = 1: it is outside the interface. -/
  | broken
  deriving DecidableEq, Repr

/-- The state of the core, and last the two fields that are the model's own: the host's side. -/
structure State where
  /-- S (R20). -/
  mem : Memory
  /-- RATE (R23). -/
  rate : Byte
  /-- DELIM (R24). -/
  delim : Byte
  /-- OFFSET (R25). -/
  offset : Byte
  /-- MODE (R26). -/
  mode : Mode
  /-- FCODE (R27). -/
  fcode : BitVec 4
  /-- RC_IDX (R28). -/
  rcIdx : BitVec 5
  /-- The permutation working register (R28). -/
  work : Lanes
  /-- BUSY and the command in progress (R29, R71): BUSY = 1 exactly when there is one. -/
  flight : Option Work
  /-- RSP_PENDING (R29, R72). -/
  rspPending : Bool
  /-- The response register behind `rsp_word` (R29, R72). -/
  rspReg : Word
  /-- `rst` as the last edge sampled it (70_reset_and_hazards.md R210): 1 until an edge samples the release of a reset. No
  meaning depends on it; it tells the first edge after a reset from the others (log entry 15). -/
  rstSampled : Bool
  /-- The model's own: what the host still owes of a command word offered and not yet accepted (R216, log entry 11). -/
  offer : Offer
  /-- The model's own: the host's actions, the next one first (log entry 1). -/
  inputs : List HostAct
  deriving DecidableEq, Repr

/-- Why the model stops. -/
inductive Fault where
  /-- Raised by ABSORB, FINALIZE and SQUEEZE when the cursor, or RATE - 1, is an address that S does not
  have (R50: byte addresses 0..199). No state that satisfies R32 does this. Safe: it claims nothing. -/
  | noSuchByte (addr : Nat)
  deriving DecidableEq, Repr

/-- Why the model gives no meaning. -/
inductive Refusal where
  /-- Raised only by an arm of `exec` whose instruction has no meaning yet. Safe. -/
  | notModelled (mnemonic : String)
  /-- Raised by a clock edge with `rst` = 0 when the host changes or withdraws an offer that was not accepted, at that
  edge or at one with `rst` = 1 before it (R216; 93_implementation_defined.md I15: `refuse`). Safe. -/
  | hostDroppedOffer
  deriving DecidableEq, Repr

/-- The core right after reset (R211), with a host that has nothing to do yet (log entries 1 and 2). -/
def State.reset : State where
  mem := ⟨[]⟩
  rate := 0
  delim := 0
  offset := 0
  mode := .idle
  fcode := 0
  rcIdx := 0
  work := Vector.replicate 25 0
  flight := none
  rspPending := false
  rspReg := 0
  rstSampled := true
  offer := .none
  inputs := []

end Sys2Proof.Machine
end

