-- ==== Sys2Proof/Machine/Flags.lean ====
section
/-! DEFINITION. The status codes MODE and FCODE (10_state.md R26, R27), the response word that carries them
(30_encoding.md R82), the mode checks (60_exceptions.md R180, R183) and the output ports (R70, R72, R73, R186). -/

namespace Sys2Proof.Machine

/-- The two bits of MODE (R26). -/
def Mode.code : Mode → BitVec 2
  | .idle => 0
  | .absorbing => 1
  | .squeezing => 2
  | .fault => 3

/-- The FCODE of a cause (R180). -/
def Cause.code : Cause → BitVec 4
  | .illegalCommand => 1
  | .invalidRate => 2
  | .notConfigured => 3
  | .absorbAfterFinalize => 4
  | .finalizeAfterFinalize => 5
  | .squeezeBeforeFinalize => 6

/-- R82: {00, FCODE, MODE, DATA}. -/
def responseWord (fcode : BitVec 4) (mode : Mode) (data : BitVec 24) : Word := (0#2) ++ fcode ++ mode.code ++ data

/-- The mode check of ABSORB (R143). In FAULT no check is reached (R183). -/
def absorbCheck : Mode → Option Cause
  | .idle => some .notConfigured
  | .absorbing => none
  | .squeezing => some .absorbAfterFinalize
  | .fault => none

/-- The mode check of FINALIZE (R144). -/
def finalizeCheck : Mode → Option Cause
  | .idle => some .notConfigured
  | .absorbing => none
  | .squeezing => some .finalizeAfterFinalize
  | .fault => none

/-- The mode check of SQUEEZE (R145). -/
def squeezeCheck : Mode → Option Cause
  | .idle => some .notConfigured
  | .absorbing => some .squeezeBeforeFinalize
  | .squeezing => none
  | .fault => none

/-- BUSY (R29): a command is in progress. -/
def State.busy (s : State) : Bool := s.flight.isSome

/-- The output `cmd_ready` = ~BUSY & ~RSP_PENDING & ~rst (R73; 10_state.md R29). -/
def cmdReady (rst : Bool) (s : State) : Bool := !s.busy && !s.rspPending && !rst

/-- A command can be accepted at this edge: `rst` = 0 and `cmd_ready` = 1 (R71; R70: `cmd_ready` is "the core can accept a
command"). This holds at the first such edge after a reset too (log entry 15). -/
def canAccept (rst : Bool) (s : State) : Bool := !rst && cmdReady rst s

/-- The output `rsp_valid` (R72; R210: 0 while `rst` = 1; log entry 10). -/
def rspValid (rst : Bool) (s : State) : Bool := s.rspPending && !rst

/-- The output `rsp_word`, which R72 gives only while `rsp_valid` = 1 (log entry 10). -/
def rspWord (rst : Bool) (s : State) : Option Word := if rspValid rst s then some s.rspReg else none

/-- The output `fault` (R186). -/
def faultOutput (s : State) : Bool := s.mode == .fault

end Sys2Proof.Machine
end

