-- ==== Sys2Proof/Machine/Keccak.lean ====
section
/-! DEFINITION. The permutation on 25 lanes (40_permutation.md): the lane operators, the five steps, the two
tables, the round and KECCAK-F. -/

namespace Sys2Proof.Machine

/-- R114: rotate left by n, 0 to 63, as the rule's formula. -/
def rotl64 (v : Lane) (n : Nat) : Lane := if n = 0 then v else (v <<< n) ||| (v >>> (64 - n))

/-- `A[x, y]`, both indices taken mod 5 (R12). -/
def laneAt (a : Lanes) (x y : Nat) : Lane := a[x % 5 + 5 * (y % 5)]'(by omega)

/-- The array whose lane (x, y) is `f x y`. All reads of `f` come before any write. -/
def lanesOfFn (f : Nat → Nat → Lane) : Lanes := Vector.ofFn fun i => f (i.val % 5) (i.val / 5)

/-- C[x] of R101. -/
def columnParity (a : Lanes) (x : Nat) : Lane :=
  laneAt a x 0 ^^^ laneAt a x 1 ^^^ laneAt a x 2 ^^^ laneAt a x 3 ^^^ laneAt a x 4

/-- D[x] of R101; x - 1 mod 5 is x + 4 mod 5. -/
def thetaEffect (a : Lanes) (x : Nat) : Lane := columnParity a (x + 4) ^^^ rotl64 (columnParity a (x + 1)) 1

/-- THETA (R101). -/
def thetaStep (a : Lanes) : Lanes :=
  let d : Vector Lane 5 := Vector.ofFn fun x => thetaEffect a x.val
  lanesOfFn fun x y => laneAt a x y ^^^ d[x % 5]'(by omega)

/-- The table RHO of R102, one row for each x, in it one entry for each y. -/
def rhoTable : List (List Nat) :=
  [ [0, 36, 3, 41, 18], [1, 44, 10, 45, 2], [62, 6, 43, 15, 61], [28, 55, 25, 21, 56], [27, 20, 39, 8, 14] ]

/-- RHO[x][y] (R102). -/
def rhoOffset (x y : Nat) : Nat := (rhoTable.getD x []).getD y 0

/-- RHO (R102). -/
def rhoStep (a : Lanes) : Lanes := lanesOfFn fun x y => rotl64 (laneAt a x y) (rhoOffset x y)

/-- PI (R103), in the rule's gather form. -/
def piStep (a : Lanes) : Lanes := lanesOfFn fun x y => laneAt a (x + 3 * y) x

/-- CHI (R104). -/
def chiStep (a : Lanes) : Lanes :=
  lanesOfFn fun x y => laneAt a x y ^^^ (~~~ laneAt a (x + 1) y &&& laneAt a (x + 2) y)

/-- The table of R106 as the rule prints it: row k holds RC[k] on the left and RC[k + 12] on the right. -/
def roundConstantRows : List (Lane × Lane) :=
  [ (0x0000000000000001, 0x000000008000808B),
    (0x0000000000008082, 0x800000000000008B),
    (0x800000000000808A, 0x8000000000008089),
    (0x8000000080008000, 0x8000000000008003),
    (0x000000000000808B, 0x8000000000008002),
    (0x0000000080000001, 0x8000000000000080),
    (0x8000000080008081, 0x000000000000800A),
    (0x8000000000008009, 0x800000008000000A),
    (0x000000000000008A, 0x8000000080008081),
    (0x0000000000000088, 0x8000000000008080),
    (0x0000000080008009, 0x0000000080000001),
    (0x000000008000000A, 0x8000000080008008) ]

/-- RC[0..23] (R106): the left column of the table, then the right one. -/
def roundConstants : List Lane := roundConstantRows.map Prod.fst ++ roundConstantRows.map Prod.snd

/-- RC[ir] (R106), ir in 0..23. -/
def roundConstant (ir : Nat) : Lane := roundConstants.getD ir 0

/-- IOTA (R105): only lane (0, 0) changes. -/
def iotaStep (a : Lanes) (ir : Nat) : Lanes := a.set 0 (laneAt a 0 0 ^^^ roundConstant ir)

/-- ROUND (R107). -/
def keccakRound (a : Lanes) (ir : Nat) : Lanes := iotaStep (chiStep (piStep (rhoStep (thetaStep a)))) ir

/-- `n` consecutive rounds from round index `ir` (R109: the rounds of one clock cycle). -/
def roundsFrom : (ir n : Nat) → Lanes → Lanes
  | _, 0, a => a
  | ir, n + 1, a => roundsFrom (ir + 1) n (keccakRound a ir)

/-- KECCAK-F (R100): rounds 0 to 23. -/
@[irreducible] def keccakF (a : Lanes) : Lanes := roundsFrom 0 Config.rounds a

/-- R115's walk for RHO: the positions and offsets for t = 0..23, from position (x, y). -/
def rhoWalk : (fuel t x y : Nat) → List ((Nat × Nat) × Nat)
  | 0, _, _, _ => []
  | k + 1, t, x, y => ((x, y), (t + 1) * (t + 2) / 2 % 64) :: rhoWalk k (t + 1) y ((2 * x + 3 * y) % 5)

/-- R115's RHO[x][y]: the walk from (1, 0), and 0 at (0, 0). -/
def rhoGenerated (x y : Nat) : Nat := ((rhoWalk 24 0 1 0).lookup (x, y)).getD 0

/-- One shift of R115's LFSR, polynomial x^8 + x^6 + x^5 + x^4 + 1, output bit in bit 0 (log entry 19). -/
def lfsrShift (r : BitVec 8) : BitVec 8 := (r <<< 1) ^^^ (if r.getLsbD 7 then 0x71 else 0)

/-- R115's rc(t). -/
def lfsrBit (t : Nat) : Bool := ((List.range (t % 255)).foldl (fun r _ => lfsrShift r) 1).getLsbD 0

/-- R115's RC[ir]: bit 2^j - 1 is rc(j + 7 * ir) for j = 0..6, every other bit 0. -/
def roundConstantGenerated (ir : Nat) : Lane :=
  (List.range 7).foldl (fun v j => if lfsrBit (j + 7 * ir) then v ||| (1 <<< (2 ^ j - 1)) else v) 0

end Sys2Proof.Machine
end

