-- ==== Sys2Proof/Machine/Operands.lean ====
section
/-! DEFINITION. Operand assembly (30_encoding.md R77 to R79) and the packing of DATA (R83, 20_memory.md R53).
The byte operands themselves are cut out of the word by the decoder. -/

namespace Sys2Proof.Machine

/-- The bytes an ABSORB absorbs, the first one first (R77); none for another command. -/
def absorbOperands : Instr → List Byte
  | .absorb1 b0 => [b0]
  | .absorb2 b0 b1 => [b0, b1]
  | .absorb3 b0 b1 b2 => [b0, b1, b2]
  | .status | .init _ _ | .finalize | .squeeze1 | .squeeze2 | .squeeze3 => []

/-- The byte count of a SQUEEZE (R78); 0 for another command. -/
def squeezeCount : Instr → Nat
  | .squeeze1 => 1
  | .squeeze2 => 2
  | .squeeze3 => 3
  | .status | .init _ _ | .absorb1 _ | .absorb2 _ _ | .absorb3 _ _ _ | .finalize => 0

/-- The rate check of R142: a rate is legal when it is 1..199. -/
def legalRate (rate : Byte) : Bool := 1 ≤ rate.toNat && rate.toNat ≤ Config.maxRate

/-- DATA of a SQUEEZE (R83): output byte k in bits [8k+7 : 8k], the bytes not squeezed 0. -/
def packBytes (out : List Byte) : BitVec 24 := out.getD 2 0 ++ out.getD 1 0 ++ out.getD 0 0

/-- DATA of STATUS (R83, R141): {DELIM, RATE, OFFSET}. -/
def statusData (s : State) : BitVec 24 := s.delim ++ s.rate ++ s.offset

end Sys2Proof.Machine
end

