-- ==== Sys2Proof/Machine/Ops.lean ====
section
/-! DEFINITION. The named operations: the state array by bytes and by lanes (10_state.md R20 to R22), the
cursor, Permute (40_permutation.md R108), the response (30_encoding.md R72, R82), taking a fault
(60_exceptions.md R181) and, beside it, the only way out of one, reset (R185, 70_reset_and_hazards.md R210). -/

namespace Sys2Proof.Machine

/-! ### S as bytes -/

/-- What an address that is not listed reads as: the reset contents (R20, R211). -/
def Memory.unlisted : Byte := 0

/-- Read the byte at an address. -/
def Memory.read (m : Memory) (a : Nat) : Byte := (m.cells.lookup a).getD Memory.unlisted

/-- Put a byte into a rising list of cells; the unlisted value removes the entry. -/
def insertCell (a : Nat) (v : Byte) : List Host.Cell → List Host.Cell
  | [] => if v = Memory.unlisted then [] else [(a, v)]
  | (b, u) :: rest =>
    if a < b then (if v = Memory.unlisted then (b, u) :: rest else (a, v) :: (b, u) :: rest)
    else if a = b then (if v = Memory.unlisted then rest else (a, v) :: rest)
    else (b, u) :: insertCell a v rest

/-- Write the byte at an address. -/
def Memory.write (m : Memory) (a : Nat) (v : Byte) : Memory := ⟨insertCell a v m.cells⟩

/-- Addresses strictly rising from `lo`, all below 200 (R50), no unlisted value. -/
def cellsWf : (lo : Nat) → List Host.Cell → Bool
  | _, [] => true
  | lo, (a, v) :: rest => lo ≤ a && a < Config.stateBytes && v != Memory.unlisted && cellsWf (a + 1) rest

/-- The canonical form of the state array. -/
def Memory.wf (m : Memory) : Bool := cellsWf 0 m.cells

/-- The canonical cells of the bytes `f lo`, `f (lo + 1)`, ... -/
def cellsOfFn (f : Nat → Byte) : (n lo : Nat) → List Host.Cell
  | 0, _ => []
  | n + 1, lo => if f lo = Memory.unlisted then cellsOfFn f n (lo + 1) else (lo, f lo) :: cellsOfFn f n (lo + 1)

/-- The state array whose byte i is `f i`, for i in 0..199. -/
@[irreducible] def Memory.ofFn (f : Nat → Byte) : Memory := ⟨cellsOfFn f Config.stateBytes 0⟩

/-- INIT's `for i in 0..199: S[i] <- 0` (R142). -/
def Memory.zeros : Memory := ⟨[]⟩

/-! ### S as lanes -/

/-- Lane i of R21: eight bytes from byte 8i, the first one least significant. -/
def Memory.lane (m : Memory) (i : Nat) : Lane :=
  m.read (8 * i + 7) ++ m.read (8 * i + 6) ++ m.read (8 * i + 5) ++ m.read (8 * i + 4) ++
    m.read (8 * i + 3) ++ m.read (8 * i + 2) ++ m.read (8 * i + 1) ++ m.read (8 * i)

/-- The lane view of S (R21). -/
@[irreducible] def Memory.lanes (m : Memory) : Lanes := Vector.ofFn fun i => m.lane i.val

/-- Byte i of an array of lanes: byte i mod 8 of lane i div 8 (R21's SetLane). -/
def lanesByte (a : Lanes) (i : Nat) : Byte := (a[i / 8]?.getD 0).extractLsb' (8 * (i % 8)) 8

/-- SetLane for all 25 lanes (R21). -/
def Memory.ofLanes (a : Lanes) : Memory := Memory.ofFn (lanesByte a)

/-! ### The core's access to S -/

/-- Write S whole; the working register follows it (R28: between commands it equals the lane view of S; log
entry 6). -/
def setMem (m : Memory) (s : State) : State := { s with mem := m, work := m.lanes }

/-- `S[a]` (R11): an address that S does not have stops the model (log entry 5). -/
def readByte (a : Nat) (s : State) : Except Fault Byte :=
  if a < Config.stateBytes then .ok (s.mem.read a) else .error (.noSuchByte a)

/-- `S[a] <- S[a] ^ v`: the lane XOR datapath, one byte lane (R2, R143, R144). -/
def xorByte (a : Nat) (v : Byte) (s : State) : Except Fault State :=
  if a < Config.stateBytes then .ok (setMem (s.mem.write a (s.mem.read a ^^^ v)) s) else .error (.noSuchByte a)

/-- Write the cursor (R25). -/
def setOffset (o : Byte) (s : State) : State := { s with offset := o }

/-- `Permute()` (R108): all 200 bytes of S, no other register. -/
def permute (s : State) : State := setMem (Memory.ofLanes (keccakF s.mem.lanes)) s

/-- The address of the last byte of the rate window, RATE - 1 (R51, R144). -/
def lastRateByte (s : State) : Nat := (s.rate - 1).toNat

/-- The cursor is at the end of the rate window: the block boundary (R146). -/
def atBoundary (s : State) : Bool := s.offset == s.rate

/-- A permutation at a block boundary, and OFFSET back to 0 in the same command (R146). -/
def permuteBlock (s : State) : State := setOffset 0 (permute s)

/-- XOR a byte into S at the cursor and advance the cursor (R143). -/
def absorbCursor (b : Byte) (s : State) : Except Fault State :=
  match xorByte s.offset.toNat b s with
  | .ok t => .ok (setOffset (t.offset + 1) t)
  | .error f => .error f

/-- Read the byte of S at the cursor and advance the cursor (R145). -/
def readCursor (s : State) : Except Fault (State × Byte) :=
  match readByte s.offset.toNat s with
  | .ok b => .ok (setOffset (s.offset + 1) s, b)
  | .error f => .error f

/-- Write MODE (R26). -/
def setMode (m : Mode) (s : State) : State := { s with mode := m }

/-! ### Responses and faults -/

/-- `respond(data)` (R82), evaluated after every state write of the command: the response register is loaded,
RSP_PENDING is set, and the command is no longer in progress (R72). -/
def respond (data : BitVec 24) (s : State) : State :=
  { s with rspReg := responseWord s.fcode s.mode data, rspPending := true, flight := none }

/-- `raise Fault(code)` (R181): MODE and FCODE, then the response; nothing else changes. -/
def raiseFault (c : Cause) (s : State) : State := respond 0 { s with mode := .fault, fcode := c.code }

/-- The FAULT gate (R140, R182): in FAULT a command is answered with DATA 0 and changes nothing. -/
def faultGate (s : State) (go : Host.Outcome State Fault Refusal) : Host.Outcome State Fault Refusal :=
  if s.mode = .fault then .next (respond 0 s) else go

/-- Run `go` unless a mode check failed with a cause, which is then raised (R183). -/
def checked (check : Option Cause) (s : State) (go : Host.Outcome State Fault Refusal) : Host.Outcome State Fault Refusal :=
  match check with
  | some c => .next (raiseFault c s)
  | none => go

/-- A word that is no command (R80, R81): ILLEGAL_COMMAND, or nothing in FAULT (R183). -/
def illegalCommand (s : State) : Host.Outcome State Fault Refusal :=
  faultGate s (.next (raiseFault .illegalCommand s))

/-- What an edge with `rst` = 1 does (R210, R212): every register takes its reset value, a command in progress
is abandoned and an untaken response discarded. What is the host's stays: its offer (R216) and its further actions. -/
def resetCore (s : State) : State := { State.reset with offer := s.offer, inputs := s.inputs }

end Sys2Proof.Machine
end

