-- ==== Sys2Proof/Machine/Absorb.lean ====
section
/-! DEFINITION. ABSORB and FINALIZE (41_sponge_commands.md R143, R144). -/

namespace Sys2Proof.Machine

/-- One turn of R143's loop: XOR at the cursor, advance, permute when the cursor reaches RATE. -/
def absorbByte (b : Byte) (s : State) : Except Fault State :=
  match absorbCursor b s with
  | .ok t => .ok (if atBoundary t then permuteBlock t else t)
  | .error f => .error f

/-- R143's loop, the first byte first. -/
def absorbBytes : List Byte → State → Except Fault State
  | [], s => .ok s
  | b :: bs, s =>
    match absorbByte b s with
    | .ok t => absorbBytes bs t
    | .error f => .error f

/-- ABSORB of these bytes (R143): the mode check before any byte is absorbed (R184). -/
def absorbCommand (bs : List Byte) (s : State) : Host.Outcome State Fault Refusal :=
  faultGate s <| checked (absorbCheck s.mode) s <|
    match absorbBytes bs s with
    | .ok t => .next (respond 0 t)
    | .error f => .fault f

/-- ABSORB.1 (R143). -/
def execAbsorb1 (b0 : Byte) (s : State) : Host.Outcome State Fault Refusal := absorbCommand (absorbOperands (.absorb1 b0)) s

/-- ABSORB.2 (R143). -/
def execAbsorb2 (b0 b1 : Byte) (s : State) : Host.Outcome State Fault Refusal :=
  absorbCommand (absorbOperands (.absorb2 b0 b1)) s

/-- ABSORB.3 (R143). -/
def execAbsorb3 (b0 b1 b2 : Byte) (s : State) : Host.Outcome State Fault Refusal :=
  absorbCommand (absorbOperands (.absorb3 b0 b1 b2)) s

/-- R144's padding: (a) DELIM at the cursor, (b) 0x80 at RATE - 1, each an XOR. -/
def padBlock (s : State) : Except Fault State :=
  match xorByte s.offset.toNat s.delim s with
  | .ok t => xorByte (lastRateByte t) 0x80 t
  | .error f => .error f

/-- FINALIZE (R144). -/
def execFinalize (s : State) : Host.Outcome State Fault Refusal :=
  faultGate s <| checked (finalizeCheck s.mode) s <|
    match padBlock s with
    | .ok t => .next (respond 0 (setMode .squeezing (permuteBlock t)))
    | .error f => .fault f

end Sys2Proof.Machine
end

