-- ==== Sys2Proof/Machine/Squeeze.lean ====
section
/-! DEFINITION. SQUEEZE (41_sponge_commands.md R145). -/

namespace Sys2Proof.Machine

/-- One turn of R145's loop: permute first if the block is exhausted, then read at the cursor and advance. -/
def squeezeByte (s : State) : Except Fault (State × Byte) := readCursor (if atBoundary s then permuteBlock s else s)

/-- R145's loop: the state after n bytes, and the bytes, the first one first. -/
def squeezeBytes : Nat → State → Except Fault (State × List Byte)
  | 0, s => .ok (s, [])
  | n + 1, s =>
    match squeezeByte s with
    | .error f => .error f
    | .ok (t, b) =>
      match squeezeBytes n t with
      | .ok (u, bs) => .ok (u, b :: bs)
      | .error f => .error f

/-- SQUEEZE of n bytes (R145): the mode check before any byte is read (R184). -/
def squeezeCommand (n : Nat) (s : State) : Host.Outcome State Fault Refusal :=
  faultGate s <| checked (squeezeCheck s.mode) s <|
    match squeezeBytes n s with
    | .ok (t, out) => .next (respond (packBytes out) t)
    | .error f => .fault f

/-- SQUEEZE.1 (R145). -/
def execSqueeze1 (s : State) : Host.Outcome State Fault Refusal := squeezeCommand (squeezeCount .squeeze1) s

/-- SQUEEZE.2 (R145). -/
def execSqueeze2 (s : State) : Host.Outcome State Fault Refusal := squeezeCommand (squeezeCount .squeeze2) s

/-- SQUEEZE.3 (R145). -/
def execSqueeze3 (s : State) : Host.Outcome State Fault Refusal := squeezeCommand (squeezeCount .squeeze3) s

end Sys2Proof.Machine
end

