-- ==== Sys2Proof/Machine/System.lean ====
section
/-! DEFINITION. STATUS and INIT (41_sponge_commands.md R141, R142). -/

namespace Sys2Proof.Machine

/-- STATUS (R141): the same answer in every mode, FAULT included (R140, R182). -/
def execStatus (s : State) : Host.Outcome State Fault Refusal := .next (respond (statusData s) s)

/-- INIT's writes (R142). -/
def initialise (rate delim : Byte) (s : State) : State :=
  { setMem Memory.zeros s with rate := rate, delim := delim, offset := 0, mode := .absorbing }

/-- INIT (R142): the rate check and no mode check (R183). -/
def execInit (rate delim : Byte) (s : State) : Host.Outcome State Fault Refusal :=
  faultGate s <|
    checked (if legalRate rate then none else some .invalidRate) s (.next (respond 0 (initialise rate delim s)))

end Sys2Proof.Machine
end

