-- ==== Sys2Proof/Machine/Cycle.lean ====
section
/-! DEFINITION. The core one rising clock edge at a time: the handshake (30_encoding.md R70 to R73), the round
pipeline (40_permutation.md R109), reset (70_reset_and_hazards.md R210, R212) and the host's duties (R216).
Each accepted command does here, spread over edges, what `exec` does in one step; log entries 7 to 9 say how. -/

namespace Sys2Proof.Machine

/-- The number a ROUNDS_PER_CYCLE stands for (R9). -/
def RoundsPerCycle.toNat : RoundsPerCycle → Nat
  | .one => 1
  | .two => 2
  | .three => 3
  | .four => 4
  | .six => 6
  | .eight => 8
  | .twelve => 12
  | .twentyFour => 24

/-- The start of a permutation (R109): RC_IDX 0, the working register holds the lanes of S. -/
def startPermutation (s : State) : State := { s with rcIdx := 0, work := s.mem.lanes }

/-- ABSORB up to its next permutation or its end: the state, and what is left. -/
def absorbRun : List Byte → State → Except Fault (State × Work)
  | [], s => .ok (s, .respond 0)
  | b :: bs, s =>
    match absorbCursor b s with
    | .error f => .error f
    | .ok t => if atBoundary t then .ok (startPermutation t, .absorb bs) else absorbRun bs t

/-- SQUEEZE up to its next permutation or its end, with the bytes read so far in `out`. -/
def squeezeRun : Nat → List Byte → State → Except Fault (State × Work)
  | 0, out, s => .ok (s, .respond (packBytes out))
  | n + 1, out, s =>
    if atBoundary s then .ok (startPermutation s, .squeeze (n + 1) out)
    else
      match readCursor s with
      | .error f => .error f
      | .ok (t, b) => squeezeRun n (out ++ [b]) t

/-- `go`, or the fault entry still to come if a check failed (R183; log entry 9). -/
def beginChecked (check : Option Cause) (s : State) (go : Except Fault (State × Work)) : Except Fault (State × Work) :=
  match check with
  | some c => .ok (s, .fault c)
  | none => go

/-- The beginning of a well-formed command in a mode other than FAULT (R71, R140). -/
def beginInstr (i : Instr) (s : State) : Except Fault (State × Work) :=
  match i with
  | .status => .ok (s, .respond (statusData s))
  | .init rate delim =>
    beginChecked (if legalRate rate then none else some .invalidRate) s (.ok (initialise rate delim s, .respond 0))
  | .absorb1 _ | .absorb2 _ _ | .absorb3 _ _ _ => beginChecked (absorbCheck s.mode) s (absorbRun (absorbOperands i) s)
  | .finalize =>
    beginChecked (finalizeCheck s.mode) s <|
      match padBlock s with
      | .ok t => .ok (startPermutation t, .finalize)
      | .error f => .error f
  | .squeeze1 | .squeeze2 | .squeeze3 => beginChecked (squeezeCheck s.mode) s (squeezeRun (squeezeCount i) [] s)

/-- The beginning of an accepted word (R71), dispatched as in R140. -/
def beginWord (w : Word) (s : State) : Except Fault (State × Work) :=
  if s.mode = .fault then .ok (s, .respond (if w = 0 then statusData s else 0))
  else
    match decode w with
    | .ok i => beginInstr i s
    | .error _ => .ok (s, .fault .illegalCommand)

/-- The registers of the round pipeline: the working register and RC_IDX (R28). -/
def setPipeline (a : Lanes) (ir : BitVec 5) (s : State) : State := { s with work := a, rcIdx := ir }

/-- The end of a permutation (R109: `S <- A`, RC_IDX 0; OFFSET 0, R146); `m` is A by bytes. -/
def storePermuted (m : Memory) (a : Lanes) (s : State) : State := { s with mem := m, work := a, rcIdx := 0, offset := 0 }

/-- On with the command after a permutation, which left `t`. -/
def resume (w : Work) (t : State) : Except Fault (State × Work) :=
  match w with
  | .absorb rest => absorbRun rest t
  | .finalize => .ok (setMode .squeezing t, .respond 0)
  | .squeeze left out => squeezeRun left out t
  | .respond data => .ok (t, .respond data)
  | .fault c => .ok (t, .fault c)

/-- A command in progress (BUSY = 1, R71). -/
def setFlight (w : Work) (s : State) : State := { s with flight := some w }

/-- Put what is left of the command into the state. -/
def keepFlight (r : Except Fault (State × Work)) : Host.Outcome State Fault Refusal :=
  match r with
  | .ok (t, w) => .next (setFlight w t)
  | .error f => .fault f

/-- One edge of the round pipeline (R109): ROUNDS_PER_CYCLE rounds, and the end of the permutation when RC_IDX
reaches 24. -/
def pipelineEdge (rpc : RoundsPerCycle) (w : Work) (s : State) : Host.Outcome State Fault Refusal :=
  let a := roundsFrom s.rcIdx.toNat (RoundsPerCycle.toNat rpc) s.work
  if Config.rounds ≤ s.rcIdx.toNat + RoundsPerCycle.toNat rpc then
    keepFlight (resume w (storePermuted (Memory.ofLanes a) a s))
  else .next (setPipeline a (s.rcIdx + BitVec.ofNat 5 (RoundsPerCycle.toNat rpc)) s)

/-- One edge with BUSY = 1: the response, the fault entry, or the round pipeline. -/
def advance (rpc : RoundsPerCycle) (w : Work) (s : State) : Host.Outcome State Fault Refusal :=
  match w with
  | .respond data => .next (respond data s)
  | .fault c => .next (raiseFault c s)
  | .absorb _ | .finalize | .squeeze _ _ => pipelineEdge rpc w s

/-- The host does not keep up an offer that was not accepted (R71, R216). -/
def breaksOffer (p : Ports) (s : State) : Bool :=
  match s.offer with
  | .none => false
  | .waiting w => !(p.cmdValid && p.cmdWord == w)
  | .broken => true

/-- Remember the host's offer at an edge that does not accept it (R216). -/
def holdOffer (p : Ports) (s : State) : State :=
  { s with offer := if breaksOffer p s then .broken else if p.cmdValid then .waiting p.cmdWord else .none }

/-- An edge has sampled `rst` = 0 (R210). -/
def releaseReset (s : State) : State := { s with rstSampled := false }

/-- One rising clock edge (R70 to R73, R109, R210, R216): reset first (R212); then a host that breaks its offer is
refused; then an offered command is accepted when it can be (R71); else a command in progress advances, or a
pending response waits for `rsp_ready` (R72). -/
def clockEdge (rpc : RoundsPerCycle) (p : Ports) (s : State) : Host.Outcome State Fault Refusal :=
  if p.rst then .next (resetCore (holdOffer p s))
  else if breaksOffer p s then .refused .hostDroppedOffer
  else if p.cmdValid && canAccept p.rst s then keepFlight (beginWord p.cmdWord { releaseReset s with offer := .none })
  else
    match s.flight with
    | some w => advance rpc w (holdOffer p (releaseReset s))
    | none => .next { holdOffer p (releaseReset s) with rspPending := s.rspPending && !p.rspReady }

/-- A run of edges, stopping at the first stop. -/
def clockEdges (rpc : RoundsPerCycle) : List Ports → State → Host.Outcome State Fault Refusal
  | [], s => .next s
  | p :: ps, s =>
    match clockEdge rpc p s with
    | .next t => clockEdges rpc ps t
    | .fault f => .fault f
    | .refused r => .refused r

/-- The ports of a host that offers `w` and takes no response. -/
def offerPorts (w : Word) : Ports := { rst := false, cmdValid := true, cmdWord := w, rspReady := false }

/-- The word that waits to be accepted. -/
def waitingWord (s : State) : Option Word :=
  match s.offer with
  | .waiting w => some w
  | .none | .broken => none

/-- The ports of a host that only keeps up an offer already made, if there is one (R216; log entry 12). -/
def quietPorts (s : State) : Ports :=
  { rst := false, cmdValid := (waitingWord s).isSome, cmdWord := (waitingWord s).getD 0, rspReady := false }

end Sys2Proof.Machine
end

