-- ==== Sys2Proof/Machine/Dispatch.lean ====
section
/-! DEFINITION. One arm per command (41_sponge_commands.md R140). -/

namespace Sys2Proof.Machine

def exec (i : Instr) (s : State) : Host.Outcome State Fault Refusal :=
  match i with
  | .status => Sys2Proof.Machine.execStatus s
  | .init rate delim => Sys2Proof.Machine.execInit rate delim s
  | .absorb1 b0 => Sys2Proof.Machine.execAbsorb1 b0 s
  | .absorb2 b0 b1 => Sys2Proof.Machine.execAbsorb2 b0 b1 s
  | .absorb3 b0 b1 b2 => Sys2Proof.Machine.execAbsorb3 b0 b1 b2 s
  | .finalize => Sys2Proof.Machine.execFinalize s
  | .squeeze1 => Sys2Proof.Machine.execSqueeze1 s
  | .squeeze2 => Sys2Proof.Machine.execSqueeze2 s
  | .squeeze3 => Sys2Proof.Machine.execSqueeze3 s

end Sys2Proof.Machine
end

