-- ==== Sys2Proof/Machine/Command.lean ====
section
/-! DEFINITION. The command level (00_scope.md R7, 41_sponge_commands.md R140): one accepted word run to its
response in one step, and the host's actions (log entry 1). -/

namespace Sys2Proof.Machine

/-- R140: run an accepted word to its response. -/
def execWord (w : Word) (s : State) : Host.Outcome State Fault Refusal :=
  match decode w with
  | .ok i => exec i s
  | .error _ => illegalCommand s

/-- The host offers `w` until it is accepted. The core accepts it when it can (R71, R73) and runs it to its
response; until then an edge passes with the offer held and the action stays (log entry 13). -/
def takeCommand (rpc : RoundsPerCycle) (w : Word) (rest : List HostAct) (s : State) : Host.Outcome State Fault Refusal :=
  if canAccept false s then
    if breaksOffer (offerPorts w) s then .refused .hostDroppedOffer
    else execWord w { releaseReset s with inputs := rest, offer := .none }
  else clockEdge rpc (offerPorts w) s

/-- Carry out the host's next action; with none left, an edge passes at which the host does nothing new. -/
def hostStep (rpc : RoundsPerCycle) (s : State) : Host.Outcome State Fault Refusal :=
  match s.inputs with
  | [] => clockEdge rpc (quietPorts s) s
  | .edge p :: rest => clockEdge rpc p { s with inputs := rest }
  | .command w :: rest => takeCommand rpc w rest s

/-- The word as the host's next action, on a core that accepts it at once: nothing in progress or pending, no other offer
waiting, and no reset still to be released. -/
def offerNext (w : Word) (s : State) : State :=
  { s with inputs := .command w :: s.inputs, offer := .none, flight := none, rspPending := false, rstSampled := false }

end Sys2Proof.Machine
end

