-- ==== Sys2Proof/Machine/Assembler.lean ====
section
/-! DEFINITION. The assembler syntax and the pseudo-commands (30_encoding.md R85, R86), and the family table
their aliases use (00_scope.md R4). No part of the core: it says which words a line of text stands for. -/

namespace Sys2Proof.Machine

/-- The families of R4. -/
inductive Family where
  | keccak224 | keccak256 | keccak384 | keccak512
  | sha3224 | sha3256 | sha3384 | sha3512
  | shake128 | shake256
  deriving DecidableEq, Repr

/-- `bits` of R4's rate formula: the family's number. -/
def Family.bits : Family → Nat
  | .keccak224 | .sha3224 => 224
  | .keccak256 | .sha3256 | .shake256 => 256
  | .keccak384 | .sha3384 => 384
  | .keccak512 | .sha3512 => 512
  | .shake128 => 128

/-- R4: Rate = 200 - 2 * (bits / 8). -/
def Family.rate (f : Family) : Byte := BitVec.ofNat 8 (200 - 2 * (f.bits / 8))

/-- R4: 0x01 for Keccak, 0x06 for SHA3, 0x1F for SHAKE. -/
def Family.delim : Family → Byte
  | .keccak224 | .keccak256 | .keccak384 | .keccak512 => 0x01
  | .sha3224 | .sha3256 | .sha3384 | .sha3512 => 0x06
  | .shake128 | .shake256 => 0x1F

/-- One line of R85 or R86, its operands still unchecked. -/
inductive AsmLine where
  | status
  | init (rate delim : Nat)
  | absorb (bytes : List Nat)
  | finalize
  | squeeze (n : Nat)
  /-- `.word w`. -/
  | word (w : Nat)
  | absorbb (bytes : List Nat)
  | absorbs (text : List Char)
  | squeezen (len : Nat)
  | hash (rate delim : Nat) (bytes : List Nat) (len : Nat)
  | family (f : Family)
  deriving DecidableEq, Repr

/-- Byte operands, if every one is 0..255. -/
def byteOperands (ns : List Nat) : Option (List Byte) :=
  if ns.all (· < 256) then some (ns.map (BitVec.ofNat 8)) else none

/-- ABSORBB (R86): threes, then one more ABSORB with what remains. -/
def absorbWords : List Byte → List Word
  | b0 :: b1 :: b2 :: rest => encode (.absorb3 b0 b1 b2) :: absorbWords rest
  | [b0, b1] => [encode (.absorb2 b0 b1)]
  | [b0] => [encode (.absorb1 b0)]
  | [] => []

/-- `SQUEEZE n` for n in 1..3 (R85). -/
def squeezeWord : Nat → Option Word
  | 1 => some (encode .squeeze1)
  | 2 => some (encode .squeeze2)
  | 3 => some (encode .squeeze3)
  | _ => none

/-- SQUEEZEN (R86): `len / 3` copies of SQUEEZE 3, then one SQUEEZE of what remains. -/
def squeezeWords (len : Nat) : List Word :=
  List.replicate (len / 3) (encode .squeeze3) ++ (squeezeWord (len % 3)).toList

/-- HASH (R86). -/
def hashWords (rate delim : Byte) (bytes : List Byte) (len : Nat) : List Word :=
  encode (.init rate delim) :: absorbWords bytes ++ encode .finalize :: squeezeWords len

/-- The words of a line; none where an operand is out of range, which an assembler refuses (R85). R85 excepts `.word`
and does not say what a number of 2^32 or more stands for there: that the model refuses it is its choice (DESIGN CHOICE,
log entry 18). -/
def assemble : AsmLine → Option (List Word)
  | .status => some [encode .status]
  | .init rate delim =>
    match byteOperands [rate, delim] with
    | some [r, d] => some [encode (.init r d)]
    | _ => none
  | .absorb ns =>
    match byteOperands ns with
    | some [b0] => some [encode (.absorb1 b0)]
    | some [b0, b1] => some [encode (.absorb2 b0 b1)]
    | some [b0, b1, b2] => some [encode (.absorb3 b0 b1 b2)]
    | _ => none
  | .finalize => some [encode .finalize]
  | .squeeze n => (squeezeWord n).map fun w => [w]
  | .word w => if w < 2 ^ 32 then some [BitVec.ofNat 32 w] else none
  | .absorbb ns => (byteOperands ns).map absorbWords
  | .absorbs text =>
    if text.all (·.toNat < 128) then some (absorbWords (text.map fun c => BitVec.ofNat 8 c.toNat)) else none
  | .squeezen len => some (squeezeWords len)
  | .hash rate delim ns len =>
    match byteOperands [rate, delim], byteOperands ns with
    | some [r, d], some bs => some (hashWords r d bs len)
    | _, _ => none
  | .family f => some [encode (.init f.rate f.delim)]

/-! ### The text of a line (R85; log entry 18 for what R85 leaves open) -/

/-- The value of a digit in a base up to 16. -/
def digitValue (base : Nat) (c : Char) : Option Nat :=
  let n := c.toNat
  let v := if 48 ≤ n ∧ n ≤ 57 then n - 48 else if 97 ≤ n ∧ n ≤ 102 then n - 87 else if 65 ≤ n ∧ n ≤ 70 then n - 55 else 16
  if v < base then some v else none

/-- Digits, most significant first, after the value `acc`. -/
def parseDigits (base : Nat) : List Char → Nat → Option Nat
  | [], acc => some acc
  | c :: cs, acc =>
    match digitValue base c with
    | some v => parseDigits base cs (acc * base + v)
    | none => none

/-- A decimal number, or a hexadecimal one after `0x` (R85). -/
def parseNumber : List Char → Option Nat
  | [] => none
  | ['0', 'x'] => none
  | '0' :: 'x' :: ds => parseDigits 16 ds 0
  | ds => parseDigits 10 ds 0

/-- A blank. -/
def isBlank (c : Char) : Bool := c == ' ' || c == '\t' || c == '\r'

/-- Without blanks at both ends. -/
def trimBlanks (cs : List Char) : List Char := ((cs.dropWhile isBlank).reverse.dropWhile isBlank).reverse

/-- Cut at every separator. -/
def cutAt (sep : Char) : List Char → List (List Char)
  | [] => [[]]
  | c :: cs =>
    if c = sep then [] :: cutAt sep cs
    else
      match cutAt sep cs with
      | [] => [[c]]
      | piece :: pieces => (c :: piece) :: pieces

/-- Up to the `;` that starts a comment (R85); a `;` inside double quotes starts none. -/
def dropComment (quoted : Bool) : List Char → List Char
  | [] => []
  | c :: cs =>
    if c = ';' ∧ quoted = false then [] else c :: dropComment (if c = '"' then !quoted else quoted) cs

/-- Numbers separated by commas; nothing at all is the empty list. -/
def parseNumbers (cs : List Char) : Option (List Nat) :=
  if trimBlanks cs = [] then some [] else (cutAt ',' cs).mapM fun piece => parseNumber (trimBlanks piece)

/-- A text in double quotes, without the quotes. -/
def parseQuoted (cs : List Char) : Option (List Char) :=
  match cs with
  | '"' :: rest =>
    match rest.reverse with
    | '"' :: body => if body.any (· == '"') then none else some body.reverse
    | _ => none
  | _ => none

/-- The aliases of R86, by the family names of R4 in capitals without the hyphen. -/
def familyNames : List (List Char × Family) :=
  [ ("KECCAK224".toList, .keccak224), ("KECCAK256".toList, .keccak256), ("KECCAK384".toList, .keccak384),
    ("KECCAK512".toList, .keccak512), ("SHA3224".toList, .sha3224), ("SHA3256".toList, .sha3256),
    ("SHA3384".toList, .sha3384), ("SHA3512".toList, .sha3512), ("SHAKE128".toList, .shake128),
    ("SHAKE256".toList, .shake256) ]

/-- A command from its mnemonic and its operand numbers. -/
def parseCommand (mnemonic : List Char) (ns : List Nat) : Option AsmLine :=
  if mnemonic = "STATUS".toList then (if ns = [] then some .status else none)
  else if mnemonic = "INIT".toList then (match ns with | [r, d] => some (.init r d) | _ => none)
  else if mnemonic = "ABSORB".toList then some (.absorb ns)
  else if mnemonic = "FINALIZE".toList then (if ns = [] then some .finalize else none)
  else if mnemonic = "SQUEEZE".toList then (match ns with | [n] => some (.squeeze n) | _ => none)
  else if mnemonic = ".word".toList then (match ns with | [w] => some (.word w) | _ => none)
  else if mnemonic = "ABSORBB".toList then some (.absorbb ns)
  else if mnemonic = "SQUEEZEN".toList then (match ns with | [n] => some (.squeezen n) | _ => none)
  else if mnemonic = "HASH".toList then
    (match ns with
    | r :: d :: rest =>
      match rest.reverse with
      | len :: bytes => some (.hash r d bytes.reverse len)
      | [] => none
    | _ => none)
  else
    match familyNames.lookup mnemonic with
    | some f => if ns = [] then some (.family f) else none
    | none => none

/-- One line of text: no command for a blank or comment line, none (refused) for a line that is no command. -/
def parseLine (text : List Char) : Option (List AsmLine) :=
  let line := trimBlanks (dropComment false text)
  let mnemonic := line.takeWhile fun c => !isBlank c
  let operands := trimBlanks (line.dropWhile fun c => !isBlank c)
  if line = [] then some []
  else if mnemonic = "ABSORBS".toList then (parseQuoted operands).map fun t => [.absorbs t]
  else
    match parseNumbers operands with
    | some ns => (parseCommand mnemonic ns).map fun l => [l]
    | none => none

/-- The words of a line of text. -/
def assembleText (text : List Char) : Option (List Word) :=
  match parseLine text with
  | some [] => some []
  | some (l :: _) => assemble l
  | none => none

/-- The words of a program, one command a line (R85). -/
def assembleProgram (text : List Char) : Option (List Word) :=
  ((cutAt '\n' text).mapM assembleText).map List.flatten

end Sys2Proof.Machine
end

