-- ==== Sys2Proof/Machine/Reference.lean ====
section
/-! DEFINITION. The sponge construction on whole messages, for claims to compare the command machine with: the
padded message in blocks (41_sponge_commands.md R155), one permutation a block, and the output stream of R147. It
is no part of the core. -/

namespace Sys2Proof.Machine

/-- `k` permutations (R147: P_k from P_0). -/
def keccakPower : Nat → Lanes → Lanes
  | 0, a => a
  | k + 1, a => keccakF (keccakPower k a)

/-- The padded message (R155): the message, then a block's rest that is zero but for DELIM in its first byte and
0x80 in its last, the two XORed where they coincide. Its length is a multiple of `rate`. -/
def paddedMessage (rate : Nat) (delim : Byte) (msg : List Byte) : List Byte :=
  let rest := rate - msg.length % rate
  msg ++ (List.range rest).map fun j => (if j = 0 then delim else 0) ^^^ (if j + 1 = rest then 0x80 else 0)

/-- XOR byte `b` into byte i of the lanes, as the 64-bit datapath does: shifted into its byte lane (10_state.md
R21, R22). -/
def xorLaneByte (a : Lanes) (i : Nat) (b : Byte) : Lanes :=
  if h : i / 8 < 25 then a.set (i / 8) (a[i / 8] ^^^ (b.setWidth 64 <<< (8 * (i % 8)))) else a

/-- One byte of the source's `update` on lanes and cursor (R143): XOR, advance, permute at the block boundary. -/
def absorbReference (rate : Nat) (ao : Lanes × Nat) (b : Byte) : Lanes × Nat :=
  let a := xorLaneByte ao.1 ao.2 b
  if ao.2 + 1 = rate then (keccakF a, 0) else (a, ao.2 + 1)

/-- A message cut into blocks of `rate` bytes. -/
def messageBlocks (rate : Nat) (msg : List Byte) : List (List Byte) :=
  (List.range (msg.length / rate)).map fun k => (msg.drop (k * rate)).take rate

/-- XOR a block into the first bytes of the state. -/
def xorBlock (a : Lanes) (block : List Byte) : Lanes := (Memory.ofFn fun i => lanesByte a i ^^^ block.getD i 0).lanes

/-- Absorb blocks, one permutation after each. -/
def absorbBlocks (a : Lanes) (blocks : List (List Byte)) : Lanes := blocks.foldl (fun b block => keccakF (xorBlock b block)) a

/-- R147: output byte j from P_0 is byte j mod RATE of P_(j div RATE). -/
def squeezedByte (rate : Nat) (p0 : Lanes) (j : Nat) : Byte := lanesByte (keccakPower (j / rate) p0) (j % rate)

/-- The first `len` output bytes from P_0. -/
def squeezedBytes (rate : Nat) (p0 : Lanes) (len : Nat) : List Byte := (List.range len).map (squeezedByte rate p0)

/-- The output of a whole computation: rate, delimiter, message, length (R86's HASH). -/
def spongeHash (rate : Nat) (delim : Byte) (msg : List Byte) (len : Nat) : List Byte :=
  squeezedBytes rate (absorbBlocks (Vector.replicate 25 0) (messageBlocks rate (paddedMessage rate delim msg))) len

end Sys2Proof.Machine
end

