-- ==== Sys2Proof/Machine/Timing.lean ====
section
/-! DEFINITION. The number of permutations of a command and its latency (40_permutation.md R109, R110,
70_reset_and_hazards.md R218, R219). Computed from the word, MODE, RATE and OFFSET alone. -/

namespace Sys2Proof.Machine

/-- PERM_CYCLES (R109). -/
def permCycles (rpc : RoundsPerCycle) : Nat := Config.rounds / RoundsPerCycle.toNat rpc

/-- The permutations of an ABSORB of n bytes from this OFFSET (R146, condition 1). -/
def absorbPerms (rate : Byte) : Nat → Byte → Nat
  | 0, _ => 0
  | n + 1, offset => if offset + 1 = rate then absorbPerms rate n 0 + 1 else absorbPerms rate n (offset + 1)

/-- The permutations of a SQUEEZE of n bytes from this OFFSET (R146, condition 3). -/
def squeezePerms (rate : Byte) : Nat → Byte → Nat
  | 0, _ => 0
  | n + 1, offset => if offset = rate then squeezePerms rate n 1 + 1 else squeezePerms rate n (offset + 1)

/-- P of R218 for a command in this mode with this RATE and OFFSET; 0 when it faults. -/
def permsOf (i : Instr) (mode : Mode) (rate offset : Byte) : Nat :=
  match i with
  | .status | .init _ _ => 0
  | .absorb1 _ | .absorb2 _ _ | .absorb3 _ _ _ =>
    if mode = .absorbing then absorbPerms rate (absorbOperands i).length offset else 0
  | .finalize => if mode = .absorbing then 1 else 0
  | .squeeze1 | .squeeze2 | .squeeze3 => if mode = .squeezing then squeezePerms rate (squeezeCount i) offset else 0

/-- P of R218 for a command word. A word that is no command faults, so P is 0 (log entry 20). -/
def permsOfWord (w : Word) (s : State) : Nat :=
  match decode w with
  | .ok i => permsOf i s.mode s.rate s.offset
  | .error _ => 0

/-- The edges from the one that accepts the word to the one from which its response is valid (R218; log
entry 8). -/
def latency (rpc : RoundsPerCycle) (w : Word) (s : State) : Nat := 1 + permsOfWord w s * permCycles rpc

end Sys2Proof.Machine
end

