-- ==== Sys2Proof/Machine/Stream.lean ====
section
/-! DEFINITION. Streams of commands: each word accepted, run to its response, and the response taken
(00_scope.md R7 'a stream of accepted 32-bit command words, and for each one exactly one 32-bit response word');
and what passes over the two ports during a run of clock edges (30_encoding.md R71, R72). -/

namespace Sys2Proof.Machine

/-- The host takes the pending response (30_encoding.md R72). -/
def takeResponse (s : State) : State := { s with rspPending := false }

/-- R7's step: one word in, the next state and one response out. -/
def transact (w : Word) (s : State) : Host.Outcome (State × Word) Fault Refusal :=
  match execWord w s with
  | .next t => .next (takeResponse t, t.rspReg)
  | .fault f => .fault f
  | .refused r => .refused r

/-- The state after a stream of words, and their responses in order (20_memory.md R57). -/
def stream : List Word → State → Host.Outcome (State × List Word) Fault Refusal
  | [], s => .next (s, [])
  | w :: ws, s =>
    match transact w s with
    | .fault f => .fault f
    | .refused r => .refused r
    | .next (t, r) =>
      match stream ws t with
      | .next (u, rs) => .next (u, r :: rs)
      | .fault f => .fault f
      | .refused r => .refused r

/-- The permutations a stream of words performs (41_sponge_commands.md R146, R148, R152). -/
def streamPerms : List Word → State → Nat
  | [], _ => 0
  | w :: ws, s =>
    permsOfWord w s +
      match transact w s with
      | .next (t, _) => streamPerms ws t
      | .fault _ | .refused _ => 0

/-- The first n output bytes of a SQUEEZE response (R83). -/
def responseBytes (n : Nat) (r : Word) : List Byte := (List.range n).map fun k => r.extractLsb' (8 * k) 8

/-- The output bytes in the responses `rs` of the commands `is` (R83): n of them for a SQUEEZE of n. -/
def outputBytes (is : List Instr) (rs : List Word) : List Byte :=
  (is.zip rs).flatMap fun ir => responseBytes (squeezeCount ir.1) ir.2

/-- The word a clock edge accepts (R71). -/
def acceptedAt (p : Ports) (s : State) : Option Word :=
  if p.cmdValid && canAccept p.rst s then some p.cmdWord else none

/-- The response word the host takes at a clock edge (R72). -/
def takenAt (p : Ports) (s : State) : Option Word := if p.rspReady && rspValid p.rst s then some s.rspReg else none

/-- A run of clock edges: the state after it, the words accepted and the responses taken, each in order. -/
def transcript (rpc : RoundsPerCycle) : List Ports → State → Host.Outcome (State × List Word × List Word) Fault Refusal
  | [], s => .next (s, [], [])
  | p :: ps, s =>
    match clockEdge rpc p s with
    | .fault f => .fault f
    | .refused r => .refused r
    | .next t =>
      match transcript rpc ps t with
      | .next (u, ws, rs) => .next (u, (acceptedAt p s).toList ++ ws, (takenAt p s).toList ++ rs)
      | .fault f => .fault f
      | .refused r => .refused r

end Sys2Proof.Machine
end

