-- ==== Sys2Proof/Safety.lean ====
section
/-! DEFINITION. What counts as a good state: the invariants of 10_state.md R32 with the canonical form of S and
the pipeline's rest state of R28, between commands and, edge by edge, inside one. -/

namespace Sys2Proof.Machine

/-- R32, 1: IDLE is the unconfigured state. -/
abbrev IdleInv (s : State) : Prop := s.mode = .idle → s.rate = 0 ∧ s.delim = 0 ∧ s.offset = 0 ∧ s.mem = ⟨[]⟩

/-- R32, 2: in ABSORBING the rate is legal and the cursor inside the rate window. -/
abbrev AbsorbingInv (s : State) : Prop :=
  s.mode = .absorbing → 1 ≤ s.rate.toNat ∧ s.rate.toNat ≤ 199 ∧ s.offset.toNat < s.rate.toNat

/-- R32, 3: in SQUEEZING the rate is legal and the cursor in the rate window or at its end. -/
abbrev SqueezingInv (s : State) : Prop :=
  s.mode = .squeezing → 1 ≤ s.rate.toNat ∧ s.rate.toNat ≤ 199 ∧ s.offset.toNat ≤ s.rate.toNat

/-- R32, 4: FCODE is 0 outside FAULT and one of 1..6 in it. -/
abbrev FcodeInv (s : State) : Prop :=
  (s.mode ≠ .fault → s.fcode = 0) ∧ (s.mode = .fault → 1 ≤ s.fcode.toNat ∧ s.fcode.toNat ≤ 6)

/-- In every mode (R23, R25, and R32, 5 for FAULT): RATE is at most 199 and OFFSET at most RATE. -/
abbrev WindowInv (s : State) : Prop := s.rate.toNat ≤ 199 ∧ s.offset.toNat ≤ s.rate.toNat

/-- R28: no permutation is running. -/
abbrev PipelineAtRest (s : State) : Prop := s.rcIdx = 0 ∧ s.work = s.mem.lanes

/-- R109: a permutation is running, RC_IDX rounds of it are done, in steps of ROUNDS_PER_CYCLE. -/
abbrev PipelineRunning (rpc : RoundsPerCycle) (s : State) : Prop :=
  s.rcIdx.toNat < 24 ∧ RoundsPerCycle.toNat rpc ∣ s.rcIdx.toNat ∧ s.work = roundsFrom 0 s.rcIdx.toNat s.mem.lanes

/-- R32's invariants with the canonical form of S and the pipeline at rest: what holds between commands. -/
abbrev BetweenCommands (s : State) : Prop :=
  s.mem.wf = true ∧ IdleInv s ∧ AbsorbingInv s ∧ SqueezingInv s ∧ FcodeInv s ∧ WindowInv s ∧ PipelineAtRest s

/-- A command in progress, waiting for its permutation. -/
abbrev InPermutation (rpc : RoundsPerCycle) (m : Mode) (s : State) : Prop :=
  s.mem.wf = true ∧ s.mode = m ∧ 1 ≤ s.rate.toNat ∧ FcodeInv s ∧ WindowInv s ∧ PipelineRunning rpc s

/-- What holds of the state while this work is left of a command (R109, R143 to R145, R181). -/
abbrev FlightInv (rpc : RoundsPerCycle) (w : Work) (s : State) : Prop :=
  match w with
  | .respond _ => BetweenCommands s
  | .fault _ => BetweenCommands s ∧ s.mode ≠ .fault
  | .absorb rest => InPermutation rpc .absorbing s ∧ s.offset = s.rate ∧ rest.length ≤ 2
  | .finalize => InPermutation rpc .absorbing s
  | .squeeze left out => InPermutation rpc .squeezing s ∧ s.offset = s.rate ∧ 1 ≤ left ∧ left + out.length ≤ 3

/-- After a reset and until an edge samples `rst` = 0 (R210, R211): no response is pending or in the response register,
and MODE is IDLE. -/
abbrev ResetInv (s : State) : Prop :=
  s.rstSampled = true → s.rspPending = false ∧ s.rspReg = 0 ∧ s.mode = .idle

/-- The invariant of every step, and of every clock edge at this ROUNDS_PER_CYCLE: between commands R32 and what a reset
leaves, inside a command what its remaining work needs, and no response pending while BUSY (R29, R72). -/
abbrev StepInv (rpc : RoundsPerCycle) (s : State) : Prop :=
  match s.flight with
  | none => BetweenCommands s ∧ ResetInv s
  | some w => FlightInv rpc w s ∧ s.rspPending = false ∧ s.rstSampled = false

/-! ### Words the claims are stated in -/

/-- The fault entry of 60_exceptions.md R181 with this FCODE, bit by bit. -/
def faulted (code : BitVec 4) (s : State) : State :=
  { s with
    mode := .fault, fcode := code, rspReg := (0#2) ++ code ++ (3#2) ++ (0#24), rspPending := true, flight := none }

/-- From `s` to `t`, nothing but S, the working register, OFFSET, MODE and the response changed. -/
abbrev OnlyDataChanged (s t : State) : Prop :=
  t.rate = s.rate ∧ t.delim = s.delim ∧ t.fcode = s.fcode ∧ t.rcIdx = s.rcIdx ∧ t.rstSampled = s.rstSampled ∧
    t.offer = s.offer ∧ t.inputs = s.inputs

/-- `t` holds the response to a command that did not fault (30_encoding.md R82), with these MODE bits and DATA. -/
abbrev Responds (fcode : BitVec 4) (mode : BitVec 2) (data : BitVec 24) (t : State) : Prop :=
  t.rspReg = (0#2) ++ fcode ++ mode ++ data ∧ t.rspPending = true ∧ t.flight = none

/-- The next step is an edge with `rst` = 1. -/
abbrev ResetNext (s : State) : Prop := ∃ p rest, s.inputs = .edge p :: rest ∧ p.rst = true

/-- The word the host offers at the next step. -/
def offeredWord (s : State) : Option Word :=
  match s.inputs with
  | .command w :: _ => some w
  | .edge p :: _ => if p.cmdValid then some p.cmdWord else none
  | [] => waitingWord s

/-- Ports at which the host offers no command and does not reset. -/
abbrev Quiet (p : Ports) : Prop := p.rst = false ∧ p.cmdValid = false

/-- The core is idle: no command in progress, no response pending, so `cmd_ready` = 1 (R73, R191), and no
offer waiting. -/
abbrev CoreIdle (s : State) : Prop := s.flight = none ∧ s.rspPending = false ∧ s.offer = .none

/-- The commands are ABSORBs. -/
abbrev AllAbsorb (is : List Instr) : Prop := ∀ i ∈ is, absorbOperands i ≠ []

/-- The commands are SQUEEZEs. -/
abbrev AllSqueeze (is : List Instr) : Prop := ∀ i ∈ is, squeezeCount i ≠ 0

/-- The bytes that ABSORBs absorb, in order. -/
def streamInput (is : List Instr) : List Byte := is.flatMap absorbOperands

/-- The number of bytes that SQUEEZEs squeeze. -/
def streamLength (is : List Instr) : Nat := (is.map squeezeCount).sum

end Sys2Proof.Machine
end

