-- ==== Sys2Proof/Certificates/Slice0/Obligations.lean ====
section
/-! DEFINITION. The statements for the provers, from the numbered rules of spec/. OBLIGATIONS.json lists them. -/

open Sys2Proof Sys2Proof.Machine

/-! ### Encoding -/

/-- Every command is read back from its word, with every operand (R75, R77 to R79). -/
def Obligations.DecodeOfEncodeIsTheCommand : Prop := ∀ i : Instr, decode (encode i) = .ok i

/-- A word that decodes is the word of its command: no second spelling (R75, R84). -/
def Obligations.EncodeOfDecodeIsTheWord : Prop := ∀ (w : Word) (i : Instr), decode w = .ok i → encode i = w

/-- The decoder, written from R75 and R80, accepts exactly R84's well-formed words. -/
def Obligations.DecoderAcceptsExactlyTheWellFormed : Prop :=
  ∀ w : Word, (∃ i, decode w = .ok i) ↔ wellFormedWord w = true

/-- R80 and R81: outside FAULT a word that is malformed or has a reserved opcode faults with ILLEGAL_COMMAND and
nothing else happens; every other word is a command. -/
def Obligations.MalformedWordsFaultIllegalCommand : Prop :=
  ∀ (w : Word) (s : State), s.mode ≠ .fault →
    if (w.toNat / 2 ^ 28 = 0 ∧ w.toNat % 2 ^ 28 ≠ 0) ∨ (w.toNat / 2 ^ 28 = 3 ∧ w.toNat % 2 ^ 28 ≠ 0) ∨
        (w.toNat / 2 ^ 28 = 1 ∧ w.toNat / 2 ^ 16 % 2 ^ 12 ≠ 0) ∨
        (w.toNat / 2 ^ 28 = 2 ∧ (w.toNat / 2 ^ 26 % 4 ≠ 0 ∨ w.toNat / 2 ^ 24 % 4 = 3 ∨
          (w.toNat / 2 ^ 24 % 4 = 0 ∧ w.toNat / 2 ^ 8 % 2 ^ 16 ≠ 0) ∨
          (w.toNat / 2 ^ 24 % 4 = 1 ∧ w.toNat / 2 ^ 16 % 2 ^ 8 ≠ 0))) ∨
        (w.toNat / 2 ^ 28 = 4 ∧ (w.toNat / 2 ^ 26 % 4 ≠ 0 ∨ w.toNat / 2 ^ 24 % 4 = 3 ∨ w.toNat % 2 ^ 24 ≠ 0)) ∨
        5 ≤ w.toNat / 2 ^ 28
    then execWord w s = .next (faulted 1 s)
    else ∃ i, decode w = .ok i ∧ execWord w s = exec i s

/-- A word matches exactly one row of the opcode table when it is a command, that command's row, and none when
it is not. -/
def Obligations.OpcodeTableIsTheDecoder : Prop :=
  ∀ w : Word, (opcodeTable.filter (·.matches w)).map OpcodeRow.mnemonic =
    match decode w with
    | .ok i => [i.mnemonic]
    | .error _ => []

/-- R77 and R78: the byte count is N1 + 1, the bytes of an ABSORB are bits [8k+7 : 8k], the first byte first. -/
def Obligations.OperandsAreAssembledByCount : Prop :=
  ∀ (w : Word) (i : Instr), decode w = .ok i →
    (w.extractLsb' 28 4 = 2 →
      absorbOperands i = (List.range ((w.extractLsb' 24 2).toNat + 1)).map fun k => w.extractLsb' (8 * k) 8) ∧
    (w.extractLsb' 28 4 = 4 → squeezeCount i = (w.extractLsb' 24 2).toNat + 1)

/-- R79: every 8-bit rate and delimiter decodes from 0x10000000 | rate << 8 | delim, and a rate outside 1..199
faults with INVALID_RATE when the word is executed. -/
def Obligations.InitWordDecodesForEveryRate : Prop :=
  ∀ (rate delim : Byte),
    let w : Word := 0x10000000 ||| (rate.setWidth 32 <<< 8) ||| delim.setWidth 32
    w.extractLsb' 8 8 = rate ∧ w.extractLsb' 0 8 = delim ∧ decode w = .ok (.init rate delim) ∧
      ∀ s : State, s.mode ≠ .fault → ¬(1 ≤ rate.toNat ∧ rate.toNat ≤ 199) → execWord w s = .next (faulted 2 s)

/-- Words written out from R75, one of each row. -/
def Obligations.WrittenWordsDecode : Prop :=
  decode 0x00000000 = .ok .status ∧ decode 0x10008806 = .ok (.init 136 0x06) ∧ decode 0x20000061 = .ok (.absorb1 0x61) ∧
    decode 0x21006261 = .ok (.absorb2 0x61 0x62) ∧ decode 0x22636261 = .ok (.absorb3 0x61 0x62 0x63) ∧
    decode 0x30000000 = .ok .finalize ∧ decode 0x40000000 = .ok .squeeze1 ∧ decode 0x41000000 = .ok .squeeze2 ∧
    decode 0x42000000 = .ok .squeeze3 ∧ decode 0x23000000 = .error .absorbCount ∧ decode 0x50000000 = .error .reservedOpcode

/-! ### The step -/

/-- A step with an acceptable command word runs the decoded command; the action is used up, the offer answered and the
sample of `rst` remembered (R71, R140; the host's list of actions is the model's own, log entry 1, and the sample is kept
as in log entry 15). The word placed by `withFetchWord` runs at the very next step. -/
def Obligations.StepRunsTheDecodedCommand : Prop :=
  (∀ (s : State) (w : Word) (rest : List HostAct) (i : Instr), s.inputs = .command w :: rest → s.flight = none →
    s.rspPending = false → (s.offer = .none ∨ s.offer = .waiting w) → decode w = .ok i →
      step s = exec i { s with inputs := rest, offer := .none, rstSampled := false }) ∧
  ∀ (s : State) (w : Nat) (i : Instr), w < 2 ^ 32 → decode (BitVec.ofNat 32 w) = .ok i →
    step (s.withFetchWord 32 w) = exec i { s with offer := .none, flight := none, rspPending := false, rstSampled := false }

/-- R71, R73: a command word on offer is not accepted while a response is pending. What the waiting step is, is the
model's choice: the host's list of actions is its own (log entry 1), the step is one edge with the word offered and
`rsp_ready` = 0 and the action stays in front (log entry 13), the offer is remembered (log entry 11), and the sample
of `rst` (log entry 15). -/
def Obligations.PendingResponseBlocksCommands : Prop :=
  ∀ (s : State) (w : Word) (rest : List HostAct), s.inputs = .command w :: rest → s.flight = none →
    s.rspPending = true → (s.offer = .none ∨ s.offer = .waiting w) →
      step s = .next { s with offer := .waiting w, rstSampled := false }

/-! ### Faults -/

/-- R182: in FAULT, STATUS answers {DELIM, RATE, OFFSET} and every other word answers DATA 0, with MODE 3 and the
recorded FCODE, and no state changes but the response. -/
def Obligations.FaultStateIsSticky : Prop :=
  ∀ (w : Word) (s : State), s.mode = .fault →
    execWord w s = .next
      { s with
        rspReg := (0#2) ++ s.fcode ++ (3#2) ++ (if w = 0x00000000 then s.delim ++ s.rate ++ s.offset else 0#24),
        rspPending := true, flight := none }

/-- R181, R183: which check of a word is reported, in the rule's order, each with the fault entry of R181; a word
that passes them all leaves a mode other than FAULT; reset wins over everything. (The host's offer, which an edge
remembers, is the model's own, log entry 11.) -/
def Obligations.ChecksInOrderOfPriority : Prop :=
  (∀ (w : Word) (s : State), s.mode ≠ .fault →
    let op := w.extractLsb' 28 4
    let rate := (w.extractLsb' 8 8).toNat
    if wellFormedWord w = false then execWord w s = .next (faulted 1 s)
    else if op = 1 ∧ ¬(1 ≤ rate ∧ rate ≤ 199) then execWord w s = .next (faulted 2 s)
    else if (op = 2 ∨ op = 3 ∨ op = 4) ∧ s.mode = .idle then execWord w s = .next (faulted 3 s)
    else if op = 2 ∧ s.mode = .squeezing then execWord w s = .next (faulted 4 s)
    else if op = 3 ∧ s.mode = .squeezing then execWord w s = .next (faulted 5 s)
    else if op = 4 ∧ s.mode = .absorbing then execWord w s = .next (faulted 6 s)
    else ∀ t, execWord w s = .next t → t.mode ≠ .fault ∧ t.fcode = s.fcode) ∧
  (∀ (w : Word) (s t : State), s.mode = .fault → execWord w s = .next t → t.fcode = s.fcode) ∧
  ∀ (rpc : RoundsPerCycle) (p : Ports) (s : State), p.rst = true →
    ∃ t, clockEdge rpc p s = .next t ∧ { t with offer := s.offer } = resetCore s

/-- R184: a command that enters FAULT has no effect but the fault entry. -/
def Obligations.FaultsArePrecise : Prop :=
  ∀ (w : Word) (s t : State), execWord w s = .next t → s.mode ≠ .fault → t.mode = .fault →
    t.mem = s.mem ∧ t.work = s.work ∧ t.rate = s.rate ∧ t.delim = s.delim ∧ t.offset = s.offset ∧ t.rcIdx = s.rcIdx ∧
      t.rspReg.extractLsb' 0 24 = 0 ∧ ∃ code, t = faulted code s

/-! ### What each command does -/

/-- R141: STATUS, encoded 0x00000000, answers {DELIM, RATE, OFFSET} with MODE and FCODE, in every mode, and changes no
other state; in IDLE it answers 0x00000000. -/
def Obligations.StatusReadsTheConfiguration : Prop :=
  encode .status = 0x00000000 ∧
  (∀ s : State, exec .status s = .next
    { s with
      rspReg := (0#2) ++ s.fcode ++
        (match s.mode with | .idle => 0#2 | .absorbing => 1#2 | .squeezing => 2#2 | .fault => 3#2) ++
        s.delim ++ s.rate ++ s.offset,
      rspPending := true, flight := none }) ∧
  ∀ s : State, BetweenCommands s → s.mode = .idle →
    exec .status s = .next { s with rspReg := 0x00000000, rspPending := true, flight := none }

/-- R142: outside FAULT an INIT with a rate of 1..199 constructs a fresh sponge whatever was there, and one with
another rate faults with INVALID_RATE; and the word of an INIT. -/
def Obligations.InitConstructsAFreshSponge : Prop :=
  (∀ rate delim : Byte,
    encode (.init rate delim) = 0x10000000 ||| (rate.setWidth 32 <<< 8) ||| delim.setWidth 32) ∧
  ∀ (rate delim : Byte) (s : State), s.mode ≠ .fault →
    if 1 ≤ rate.toNat ∧ rate.toNat ≤ 199 then
      ∃ t, exec (.init rate delim) s = .next t ∧ t.mem.wf = true ∧ (∀ a, t.mem.read a = 0) ∧ t.work = t.mem.lanes ∧
        t.rate = rate ∧ t.delim = delim ∧ t.offset = 0 ∧ t.mode = .absorbing ∧ t.fcode = s.fcode ∧ t.rcIdx = s.rcIdx ∧
        Responds s.fcode 1 0 t ∧ t.rstSampled = s.rstSampled ∧ t.offer = s.offer ∧ t.inputs = s.inputs
    else exec (.init rate delim) s = .next (faulted 2 s)

/-- R143: in ABSORBING with the cursor in the rate window, each byte in turn is XORed at the cursor, the cursor
advances, and the state is permuted when it reaches RATE; in IDLE and SQUEEZING an ABSORB faults; its word has OP 2
and N1 its byte count less one. For each of `absorb1`, `absorb2` and `absorb3`. -/
def Obligations.AbsorbXorsAdvancesAndPermutes : Prop :=
  ∀ (i : Instr) (s : State), absorbOperands i ≠ [] → s.mem.wf = true →
    ((encode i).extractLsb' 28 4 = 2 ∧ ((encode i).extractLsb' 24 2).toNat + 1 = (absorbOperands i).length) ∧
    (s.mode = .absorbing → s.rate.toNat ≤ 199 → s.offset.toNat < s.rate.toNat →
      ∃ t, exec i s = .next t ∧ t.mem.wf = true ∧
        (t.mem.lanes, t.offset.toNat) =
          (absorbOperands i).foldl (absorbReference s.rate.toNat) (s.mem.lanes, s.offset.toNat) ∧
        t.work = t.mem.lanes ∧ t.mode = .absorbing ∧ OnlyDataChanged s t ∧ Responds s.fcode 1 0 t) ∧
    (s.mode = .idle → exec i s = .next (faulted 3 s)) ∧
    (s.mode = .squeezing → exec i s = .next (faulted 4 s))

/-- R143, R149: an ABSORB of two or three bytes is that many ABSORBs of one byte. -/
def Obligations.LongAbsorbsAreByteAbsorbs : Prop :=
  ∀ (b0 b1 b2 : Byte) (s : State), s.mode = .absorbing → s.rate.toNat ≤ 199 → s.offset.toNat < s.rate.toNat →
    ∃ t u v, exec (.absorb1 b0) s = .next t ∧ exec (.absorb1 b1) t = .next u ∧ exec (.absorb1 b2) u = .next v ∧
      exec (.absorb2 b0 b1) s = .next u ∧ exec (.absorb3 b0 b1 b2) s = .next v

/-- R144, R155: FINALIZE XORs DELIM at the cursor and 0x80 at the last byte of the rate window, permutes, and goes
to SQUEEZING with the cursor at 0; in IDLE and SQUEEZING it faults; its word is 0x30000000. -/
def Obligations.FinalizePadsAndPermutes : Prop :=
  encode .finalize = 0x30000000 ∧
  ∀ s : State, s.mem.wf = true →
    (s.mode = .absorbing → s.rate.toNat ≤ 199 → s.offset.toNat < s.rate.toNat →
      ∃ t, exec .finalize s = .next t ∧ t.mem.wf = true ∧
        t.mem.lanes =
          keccakF (xorLaneByte (xorLaneByte s.mem.lanes s.offset.toNat s.delim) (s.rate.toNat - 1) 0x80) ∧
        t.work = t.mem.lanes ∧ t.offset = 0 ∧ t.mode = .squeezing ∧ OnlyDataChanged s t ∧ Responds s.fcode 2 0 t) ∧
    (s.mode = .idle → exec .finalize s = .next (faulted 3 s)) ∧
    (s.mode = .squeezing → exec .finalize s = .next (faulted 5 s))

/-- R155: the padding is exact for every delimiter; DELIM = 0x80 at the last byte of the rate window cancels the
padding bit, so that S is only permuted. -/
def Obligations.PaddingCancelsForDelimiter80 : Prop :=
  ∀ s : State, s.mem.wf = true → s.mode = .absorbing → s.rate.toNat ≤ 199 → s.offset.toNat + 1 = s.rate.toNat →
    s.delim = 0x80 → ∃ t, exec .finalize s = .next t ∧ t.mem = Memory.ofLanes (keccakF s.mem.lanes)

/-- R145: in SQUEEZING a SQUEEZE of n bytes at cursor o answers the bytes o, o + 1, ... of the output stream that
begins with the present block, having permuted exactly when a byte beyond a block is read; in IDLE and ABSORBING it
faults; its word is 0x40000000 | (n-1) << 24. For each of `squeeze1`, `squeeze2` and `squeeze3`. -/
def Obligations.SqueezeReadsTheOutputStream : Prop :=
  ∀ (i : Instr) (s : State), squeezeCount i ≠ 0 → s.mem.wf = true →
    encode i = BitVec.ofNat 32 (0x40000000 + (squeezeCount i - 1) * 2 ^ 24) ∧
    (s.mode = .squeezing → 1 ≤ s.rate.toNat → s.rate.toNat ≤ 199 → s.offset.toNat ≤ s.rate.toNat →
      let n := squeezeCount i
      let r := s.rate.toNat
      let o := s.offset.toNat
      let byte := fun k => if k < n then squeezedByte r s.mem.lanes (o + k) else 0
      ∃ t, exec i s = .next t ∧ t.mem.wf = true ∧ t.mem.lanes = keccakPower ((o + n - 1) / r) s.mem.lanes ∧
        (s.work = s.mem.lanes → t.work = t.mem.lanes) ∧ t.offset.toNat = o + n - r * ((o + n - 1) / r) ∧
        t.mode = .squeezing ∧ OnlyDataChanged s t ∧ Responds s.fcode 2 (byte 2 ++ byte 1 ++ byte 0) t) ∧
    (s.mode = .idle → exec i s = .next (faulted 3 s)) ∧
    (s.mode = .absorbing → exec i s = .next (faulted 6 s))

/-! ### Frames and whole-machine rules -/

/-- The frame every command shares: only INIT writes RATE and DELIM, only a fault entry writes FCODE, only INIT,
FINALIZE and a fault entry write MODE, and none writes RC_IDX, the sample of `rst` or the host's side. -/
def Obligations.RegisterFrameOfEveryCommand : Prop :=
  ∀ (i : Instr) (s t : State), exec i s = .next t →
    t.rcIdx = s.rcIdx ∧ t.rstSampled = s.rstSampled ∧ t.offer = s.offer ∧ t.inputs = s.inputs ∧ t.flight = none ∧
      t.rspPending = true ∧
      ((∀ rate delim, i ≠ .init rate delim) → t.rate = s.rate ∧ t.delim = s.delim) ∧
      (t.mode ≠ .fault ∨ s.mode = .fault → t.fcode = s.fcode) ∧
      ((∀ rate delim, i ≠ .init rate delim) → i ≠ .finalize → t.mode = s.mode ∨ t.mode = .fault) ∧
      (s.mode = .fault → t.mode = .fault)

/-- The memory frame: STATUS, any command in FAULT, and a SQUEEZE that does not permute change no byte of S; an
ABSORB that does not permute changes no byte but those at the cursor positions it passes, and advances the cursor by
its count (R51, R143, R145). -/
def Obligations.MemoryFrameOfEveryCommand : Prop :=
  ∀ (i : Instr) (s t : State), exec i s = .next t →
    (i = .status ∨ s.mode = .fault → t.mem = s.mem ∧ t.work = s.work ∧ t.offset = s.offset) ∧
    (squeezeCount i ≠ 0 → permsOf i s.mode s.rate s.offset = 0 → t.mem = s.mem ∧ t.work = s.work) ∧
    (absorbOperands i ≠ [] → permsOf i s.mode s.rate s.offset = 0 →
      ∀ a, (∀ k, k < (absorbOperands i).length → a ≠ s.offset.toNat + k) → t.mem.read a = s.mem.read a) ∧
    (absorbOperands i ≠ [] → permsOf i s.mode s.rate s.offset = 0 → s.mode = .absorbing →
      t.offset.toNat = s.offset.toNat + (absorbOperands i).length)

/-- R51, R146: without a permutation no command but INIT changes a byte of the capacity. -/
def Obligations.CapacityChangesOnlyByPermute : Prop :=
  ∀ (i : Instr) (s t : State), BetweenCommands s → exec i s = .next t → (∀ rate delim, i ≠ .init rate delim) →
    permsOf i s.mode s.rate s.offset = 0 → ∀ a, s.rate.toNat ≤ a → t.mem.read a = s.mem.read a

/-- R35, R51: the response and the control registers after a command do not depend on S, except that a SQUEEZE reads
bytes of the rate window: two states that differ in S alone, for a SQUEEZE that does not permute in the capacity
alone, answer alike. -/
def Obligations.ResponsesHideTheState : Prop :=
  ∀ (i : Instr) (s : State) (m : Memory), BetweenCommands s → BetweenCommands (setMem m s) →
    (squeezeCount i ≠ 0 →
      permsOf i s.mode s.rate s.offset = 0 ∧ ∀ a, a < s.rate.toNat → m.read a = s.mem.read a) →
    ∃ t u, exec i s = .next t ∧ exec i (setMem m s) = .next u ∧ u.rspReg = t.rspReg ∧ u.offset = t.offset ∧
      u.mode = t.mode ∧ u.fcode = t.fcode ∧ u.rate = t.rate ∧ u.delim = t.delim

/-- R34: a step that is neither a reset nor given an INIT word leaves RATE and DELIM as they are. (A step is the
model's next host action, log entry 1; that INIT writes them at the edge which accepts its word, and at no later edge,
is the model's choice, log entry 7.) -/
def Obligations.ConfigurationIsFixedBetweenInits : Prop :=
  ∀ s t : State, step s = .next t → ¬ResetNext s → (∀ w, offeredWord s = some w → w.extractLsb' 28 4 ≠ 1) →
    t.rate = s.rate ∧ t.delim = s.delim

/-- R26: the legal transitions of MODE at a step: by reset to IDLE; by an INIT word to ABSORBING; by FINALIZE from
ABSORBING to SQUEEZING; by a fault from any other mode to FAULT; else none. (Steps are the model's host actions and
edges, log entries 1, 7 and 9.) -/
def Obligations.ModeChangesOnlyByTheLegalTransitions : Prop :=
  ∀ s t : State, StepInv Config.roundsPerCycle s → step s = .next t →
    (ResetNext s → t.mode = .idle) ∧
    (¬ResetNext s →
      t.mode = s.mode ∨
      (s.mode ≠ .fault ∧ t.mode = .absorbing ∧ ∃ w, offeredWord s = some w ∧ w.extractLsb' 28 4 = 1) ∨
      (s.mode = .absorbing ∧ t.mode = .squeezing ∧ (offeredWord s = some 0x30000000 ∨ s.flight = some .finalize)) ∨
      (s.mode ≠ .fault ∧ t.mode = .fault ∧ t.fcode ≠ 0))

/-- R185, R182: from FAULT every step that is no reset stays in FAULT with FCODE, S, RATE, DELIM and OFFSET kept.
(Steps are the model's host actions and edges, log entry 1.) -/
def Obligations.OnlyResetLeavesFault : Prop :=
  ∀ s t : State, StepInv Config.roundsPerCycle s → step s = .next t → s.mode = .fault → ¬ResetNext s →
    t.mode = .fault ∧ t.fcode = s.fcode ∧ t.mem = s.mem ∧ t.rate = s.rate ∧ t.delim = s.delim ∧ t.offset = s.offset

/-! ### Invariants -/

/-- The state after reset meets the invariant of every step. -/
def Obligations.ResetStateMeetsTheInvariant : Prop := ∀ rpc : RoundsPerCycle, StepInv rpc State.reset

/-- Every step keeps the invariant: R32 between commands, the pipeline's partial rounds inside one, the canonical form
of S, and at most one of BUSY and RSP_PENDING. (The states inside a command are the model's own, log entries 3, 7 and
9, and so is the remembered sample of `rst`, log entry 15.) -/
def Obligations.EveryStepKeepsTheInvariant : Prop :=
  ∀ s t : State, StepInv Config.roundsPerCycle s → step s = .next t → StepInv Config.roundsPerCycle t

/-- R32: every command preserves the five invariants, and reset establishes them. -/
def Obligations.CommandsPreserveTheStateInvariants : Prop :=
  BetweenCommands State.reset ∧
    ∀ (w : Word) (s t : State), BetweenCommands s → execWord w s = .next t →
      BetweenCommands t ∧
        (t.mode = .fault → t.rate = s.rate ∧ t.delim = s.delim ∧ t.offset = s.offset ∧ t.mem = s.mem)

/-- No good state stops: a step never ends in a fault of the model, and is refused only when the host breaks its
offer (R216; log entries 5 and 11). -/
def Obligations.GoodStatesNeverStop : Prop :=
  ∀ s : State, StepInv Config.roundsPerCycle s →
    (∀ f, step s ≠ .fault f) ∧
    ∀ r, step s = .refused r → s.offer = .broken ∨ ∃ w, s.offer = .waiting w ∧ offeredWord s ≠ some w

/-! ### The permutation -/

/-- R114: bit z of the rotation by n is bit (z - n) mod 64. -/
def Obligations.RotationMovesBits : Prop :=
  ∀ (v : Lane) (n z : Nat), n < 64 → z < 64 → (rotl64 v n).getLsbD z = v.getLsbD ((z + (64 - n)) % 64)

/-- R101 bit by bit: bit z of a lane is XORed with the parities of column x - 1 at z and of column x + 1 at z - 1 (which
neighbour is rotated the spec marks as general knowledge, not in its source). -/
def Obligations.ThetaBitByBit : Prop :=
  ∀ (a : Lanes) (x y z : Nat), x < 5 → y < 5 → z < 64 →
    let parity := fun x z => (List.range 5).foldl (fun p y => Bool.xor p ((laneAt a x y).getLsbD z)) false
    (laneAt (thetaStep a) x y).getLsbD z =
      Bool.xor ((laneAt a x y).getLsbD z) (Bool.xor (parity (x + 4) z) (parity (x + 1) ((z + 63) % 64)))

/-- R102: rho moves bit z of lane (x, y) to bit z + RHO[x][y]; the table by linear index; lane (0, 0) stays (the spec
marks the table as general knowledge, not in its source). -/
def Obligations.RhoMovesBitsWithinLanes : Prop :=
  (∀ (a : Lanes) (x y z : Nat), x < 5 → y < 5 → z < 64 →
    (laneAt (rhoStep a) x y).getLsbD ((z + rhoOffset x y) % 64) = (laneAt a x y).getLsbD z) ∧
  (List.range 25).map (fun i => rhoOffset (i % 5) (i / 5)) =
    [0, 1, 62, 28, 27, 36, 44, 6, 55, 20, 3, 10, 43, 25, 39, 41, 45, 15, 21, 8, 18, 2, 61, 56, 14] ∧
  ∀ a : Lanes, laneAt (rhoStep a) 0 0 = laneAt a 0 0

/-- R103: both forms of pi, its table of sources, lane (0, 0) fixed, and no two lanes to one place (the spec marks the
mapping as general knowledge, not in its source). -/
def Obligations.PiRelocatesLanes : Prop :=
  (∀ (a : Lanes) (x y : Nat), x < 5 → y < 5 → laneAt (piStep a) y ((2 * x + 3 * y) % 5) = laneAt a x y) ∧
  (∀ (a : Lanes) (x y : Nat), x < 5 → y < 5 → laneAt (piStep a) x y = laneAt a ((x + 3 * y) % 5) x) ∧
  (∀ a : Lanes, (piStep a).toList =
    [0, 6, 12, 18, 24, 3, 9, 10, 16, 22, 1, 7, 13, 19, 20, 4, 5, 11, 17, 23, 2, 8, 14, 15, 21].map
      fun i => a.toList.getD i 0) ∧
  (∀ a : Lanes, laneAt (piStep a) 0 0 = laneAt a 0 0) ∧
  ∀ x y x' y', x < 5 → y < 5 → x' < 5 → y' < 5 → y = y' → (2 * x + 3 * y) % 5 = (2 * x' + 3 * y') % 5 → x = x'

/-- R104 bit by bit, and R105: chi reads only its own row; iota changes only lane (0, 0) (the spec marks its reading of
`two positions further` as general knowledge, not in its source). -/
def Obligations.ChiAndIotaLaneByLane : Prop :=
  (∀ (a : Lanes) (x y z : Nat), x < 5 → y < 5 → z < 64 →
    (laneAt (chiStep a) x y).getLsbD z =
      Bool.xor ((laneAt a x y).getLsbD z) (!(laneAt a (x + 1) y).getLsbD z && (laneAt a (x + 2) y).getLsbD z)) ∧
  ∀ (a : Lanes) (ir x y : Nat), x < 5 → y < 5 →
    laneAt (iotaStep a ir) x y = if x = 0 ∧ y = 0 then laneAt a 0 0 ^^^ roundConstants.getD ir 0 else laneAt a x y

/-- R115: the generation rules reproduce the tables of R102 and R106 (the orientation of the LFSR is presumed, log entry
19). -/
def Obligations.GenerationRulesGiveTheTables : Prop :=
  (∀ x < 5, ∀ y < 5, rhoGenerated x y = rhoOffset x y) ∧ ∀ ir < 24, roundConstantGenerated ir = roundConstant ir

/-- R100's example: two lanes of the permutation of the zero state. -/
def Obligations.KeccakFOfZero : Prop :=
  laneAt (keccakF (Vector.replicate 25 0)) 0 0 = 0xF1258F7940E1DDE7 ∧
    laneAt (keccakF (Vector.replicate 25 0)) 4 4 = 0xEAF1FF7B5CECA249

/-- R108: Permute is KECCAK-F on the lane view of S, and touches no other register; that the working register follows S
is the model's reading of R28 (log entry 6). -/
def Obligations.PermuteIsKeccakFOnTheLanes : Prop :=
  ∀ s : State, (permute s).mem.wf = true ∧
    (∀ x < 5, ∀ y < 5, laneAt (permute s).mem.lanes x y = laneAt (keccakF s.mem.lanes) x y) ∧
    permute s = { s with mem := (permute s).mem, work := (permute s).work } ∧ (permute s).work = (permute s).mem.lanes

/-- R22: bit z of lane (x, y) is bit z mod 8 of byte 8(x + 5y) + z div 8, and so the padding bit of a rate. -/
def Obligations.BitsOfLanesAreBitsOfBytes : Prop :=
  (∀ (m : Memory) (x y z : Nat), x < 5 → y < 5 → z < 64 →
    (laneAt m.lanes x y).getLsbD z = (m.read (8 * (x + 5 * y) + z / 8)).getLsbD (z % 8)) ∧
  ∀ (m : Memory) (rate : Nat), 1 ≤ rate → rate ≤ 199 →
    (m.read (rate - 1)).getLsbD 7 = (m.lane ((rate - 1) / 8)).getLsbD (8 * ((rate - 1) % 8) + 7)

/-- R109: at every ROUNDS_PER_CYCLE, 24 / ROUNDS_PER_CYCLE cycles of that many rounds each are KECCAK-F. -/
def Obligations.PipelineComputesKeccakF : Prop :=
  ∀ (rpc : RoundsPerCycle) (a : Lanes),
    (List.range (permCycles rpc)).foldl (fun b k => roundsFrom (k * RoundsPerCycle.toNat rpc) (RoundsPerCycle.toNat rpc) b) a = keccakF a

/-! ### Clock edges -/

/-- R211, R210, R212: an edge with `rst` = 1 puts every register at its reset value from any state, also inside a
command, with the sample of `rst` remembered (log entry 15); while `rst` = 1 neither `cmd_ready` nor `rsp_valid` is 1.
-/
def Obligations.ResetEdgeSetsEveryRegister : Prop :=
  ∀ (rpc : RoundsPerCycle) (p : Ports) (s : State), p.rst = true →
    ∃ t, clockEdge rpc p s = .next t ∧ (∀ a, t.mem.read a = 0) ∧ t.mem.wf = true ∧ t.rate = 0 ∧ t.delim = 0 ∧
      t.offset = 0 ∧ t.mode = .idle ∧ t.fcode = 0 ∧ t.rcIdx = 0 ∧ t.work = Vector.replicate 25 0 ∧ t.busy = false ∧
      t.flight = none ∧ t.rspPending = false ∧ t.rspReg = 0 ∧ t.rstSampled = true ∧ faultOutput t = false ∧ t.inputs = s.inputs ∧
      cmdReady true s = false ∧ rspValid true s = false

/-- R71, R70, R73 right after a reset: an edge with `rst` = 1 accepts nothing and leaves a core whose `cmd_ready` is 1 as
soon as `rst` is 0, and the first edge with `rst` = 0 accepts a word on offer, from whatever state the reset came, by doing
what it does in a core released before; with nothing on offer it changes only the remembered sample of `rst`. A `command`
action of the host right after a reset runs at once. (R210 has a sentence that says one edge later; R70, R71 and R73 hold
here, log entry 15. The host keeps up what it offers, R216, log entry 11; the action list is the model's, log entry 1.) -/
def Obligations.FirstEdgeAfterResetAccepts : Prop :=
  (∀ (rpc : RoundsPerCycle) (p q : Ports) (s : State), p.rst = true → q.rst = false →
    ∃ t, clockEdge rpc p s = .next t ∧ t.busy = false ∧ cmdReady p.rst t = false ∧ cmdReady q.rst t = true ∧
      (breaksOffer q t = false →
        ∃ u, clockEdge rpc q t = .next u ∧ u.busy = q.cmdValid ∧ u.rspPending = false ∧
          clockEdge rpc q { t with rstSampled := false } = .next u ∧
          (q.cmdValid = false → { u with rstSampled := true } = t))) ∧
  ∀ (s : State) (w : Word) (rest : List HostAct), s.inputs = .command w :: rest → s.flight = none →
    s.rspPending = false → s.rstSampled = true → (s.offer = .none ∨ s.offer = .waiting w) →
      step s = execWord w { s with inputs := rest, offer := .none, rstSampled := false }

/-- R29, R71, R73: `cmd_ready` is ~BUSY & ~RSP_PENDING & ~rst, and BUSY rises at an edge exactly when `rst` = 0,
`cmd_valid` = 1 and `cmd_ready` = 1; an edge with `rst` = 0 that can accept nothing does the same whatever word is
offered, but for remembering the offer. (The remembered offer is the model's own, log entry 11.) -/
def Obligations.CommandsAreAcceptedByTheHandshake : Prop :=
  (∀ (rst : Bool) (s : State), cmdReady rst s = true ↔ s.busy = false ∧ s.rspPending = false ∧ rst = false) ∧
  ∀ (rpc : RoundsPerCycle) (p : Ports) (s t : State), clockEdge rpc p s = .next t →
    ((s.busy = false ∧ t.busy = true) ↔ (p.rst = false ∧ p.cmdValid = true ∧ cmdReady p.rst s = true)) ∧
    (p.rst = false → cmdReady p.rst s = false → ∀ q : Ports, q.rst = false → q.rspReady = p.rspReady →
      ∀ u, clockEdge rpc q { s with offer := .none } = .next u → { u with offer := .none } = { t with offer := .none })

/-- R72: a pending response stays, with `rsp_word` as it is, until an edge at which the host takes it; then
RSP_PENDING is 0 and the next command can be accepted. (The remembered offer and the remembered sample of `rst` are
the model's own, log entries 11 and 15.) -/
def Obligations.ResponsesWaitToBeTaken : Prop :=
  ∀ (rpc : RoundsPerCycle) (p : Ports) (s : State), p.rst = false → s.flight = none → s.rspPending = true →
    breaksOffer p s = false →
    rspWord p.rst s = some s.rspReg ∧
    ∃ t, clockEdge rpc p s = .next t ∧ { t with offer := s.offer, rspPending := true, rstSampled := s.rstSampled } = s ∧
      (t.rspPending = true ↔ p.rspReady = false) ∧ (p.rspReady = true → cmdReady false t = true)

/-- R216 (93_implementation_defined.md I15): a host that withdraws or changes an offer before it is accepted is outside the
interface, whatever the core does and whatever `rst` is. At an edge with `rst` = 0 it is refused there; at an edge with
`rst` = 1 the core is reset all the same (R210), and the host is refused at every edge with `rst` = 0 after it. A word
offered at an edge with `rst` = 1 is not accepted there (R71) and must be held like any other. (The refusal and the
remembered offer are the model's form of it, log entry 11.) -/
def Obligations.WithdrawnOffersAreRefused : Prop :=
  (∀ (rpc : RoundsPerCycle) (p : Ports) (s : State) (w : Word), s.offer = .waiting w →
    (p.cmdValid = false ∨ p.cmdWord ≠ w) →
      (p.rst = false → clockEdge rpc p s = .refused .hostDroppedOffer) ∧
      (p.rst = true → ∃ t, clockEdge rpc p s = .next t ∧ t.offer = .broken)) ∧
  (∀ (rpc : RoundsPerCycle) (p : Ports) (s : State), s.offer = .broken →
    (p.rst = false → clockEdge rpc p s = .refused .hostDroppedOffer) ∧
    (p.rst = true → ∃ t, clockEdge rpc p s = .next t ∧ t.offer = .broken)) ∧
  ∀ (rpc : RoundsPerCycle) (p : Ports) (s : State), p.rst = true → p.cmdValid = true →
    (s.offer = .none ∨ s.offer = .waiting p.cmdWord) →
      ∃ t, clockEdge rpc p s = .next t ∧ t.offer = .waiting p.cmdWord

/-- R218, R109, R112: from an idle core, accepting a word and letting exactly `latency` edges pass gives exactly what
the command level gives in one step, at every ROUNDS_PER_CYCLE. (Where in a command its byte accesses fall and which
edge counts is the model's, log entries 7 to 9; the edges also remember that `rst` was sampled 0, log entry 15.) -/
def Obligations.ClockEdgesComputeTheCommand : Prop :=
  ∀ (rpc : RoundsPerCycle) (w : Word) (s : State) (ps : List Ports), BetweenCommands s → CoreIdle s →
    (∀ p ∈ ps, Quiet p) → ps.length = latency rpc w s →
      ∃ t, execWord w { s with rstSampled := false } = .next t ∧ clockEdges rpc (offerPorts w :: ps) s = .next t

/-- R218: before `latency` edges have passed, the core is busy and no response is valid. (Which edge counts is the
model's reading, log entry 8.) -/
def Obligations.NoResponseBeforeTheLatency : Prop :=
  ∀ (rpc : RoundsPerCycle) (w : Word) (s : State) (ps : List Ports), BetweenCommands s → CoreIdle s →
    (∀ p ∈ ps, Quiet p) → ps.length < latency rpc w s →
      ∃ t, clockEdges rpc (offerPorts w :: ps) s = .next t ∧ t.busy = true ∧ t.rspPending = false ∧
        cmdReady false t = false ∧ rspValid false t = false

/-- R219: at most 3 permutations a command, 3 only at RATE 1 with a 3-byte ABSORB or SQUEEZE, and so a `latency` of at
most 73 at the default ROUNDS_PER_CYCLE. (A bound on the two formulas of R218; the edge from which `latency` counts and
its value for words that are no command are the model's readings, log entries 8 and 20.
`EveryCommandRespondsWithin73Edges` says the same of edges and responses.) -/
def Obligations.PermutationsAndLatencyAreBounded : Prop :=
  ∀ (w : Word) (s : State), BetweenCommands s →
    permsOfWord w s ≤ 3 ∧
    (permsOfWord w s = 3 → s.rate = 1 ∧ ∃ i, decode w = .ok i ∧ ((absorbOperands i).length = 3 ∨ squeezeCount i = 3)) ∧
    latency .one w s ≤ 73

/-- R219: every command responds. At the default ROUNDS_PER_CYCLE, from an idle core in a good state, some number of
edges from 1 to 73 after the edge that accepts a word, at which the host only waits, the command is done and its response
is valid. (Edges as in log entries 7 to 9; words that are no command, log entry 20.) -/
def Obligations.EveryCommandRespondsWithin73Edges : Prop :=
  ∀ (w : Word) (s : State), BetweenCommands s → CoreIdle s →
    ∃ n, 1 ≤ n ∧ n ≤ 73 ∧ ∀ ps : List Ports, (∀ p ∈ ps, Quiet p) → ps.length = n →
      ∃ t, clockEdges .one (offerPorts w :: ps) s = .next t ∧ t.busy = false ∧ rspValid false t = true

/-- R110: two commands with the same OP and N1, from states with the same MODE, RATE and OFFSET, keep BUSY and
RSP_PENDING alike at every edge, whatever the data, the delimiter and S. (Edges as in log entries 7 to 9.) -/
def Obligations.TimingIsIndependentOfData : Prop :=
  ∀ (rpc : RoundsPerCycle) (i j : Instr) (s u : State) (ps : List Ports), BetweenCommands s → BetweenCommands u →
    CoreIdle s → CoreIdle u → s.mode = u.mode → s.rate = u.rate → s.offset = u.offset →
    (encode i).extractLsb' 28 4 = (encode j).extractLsb' 28 4 → (encode i).extractLsb' 24 2 = (encode j).extractLsb' 24 2 →
    (∀ p ∈ ps, Quiet p) →
      ∃ t v, clockEdges rpc (offerPorts (encode i) :: ps) s = .next t ∧
        clockEdges rpc (offerPorts (encode j) :: ps) u = .next v ∧ t.busy = v.busy ∧ t.rspPending = v.rspPending

/-- R153: over any run of clock edges without reset, the responses taken are the first ones of those that the accepted
words get one after another at the command level: they depend on the words alone, not on timing. (Edges as in log
entries 7 to 9.) -/
def Obligations.ResponsesDependOnTheCommandsAlone : Prop :=
  ∀ (rpc : RoundsPerCycle) (ps : List Ports) (s t : State) (ws rs : List Word), BetweenCommands s → s.flight = none →
    s.rspPending = false → (∀ p ∈ ps, p.rst = false) → transcript rpc ps s = .next (t, ws, rs) →
      ∃ u all, stream ws s = .next (u, all) ∧ rs = all.take rs.length ∧ rs.length ≤ ws.length ∧ ws.length ≤ rs.length + 1

/-! ### Streams of commands -/

/-- R149: two splittings of the same bytes into ABSORBs give the same state, S and OFFSET and all, but for the
number of responses. -/
def Obligations.AbsorbStreamsAgreeUnderAnySplitting : Prop :=
  ∀ (is js : List Instr) (s : State), BetweenCommands s → s.mode = .absorbing → AllAbsorb is → AllAbsorb js →
    streamInput is = streamInput js →
      ∃ t u rs qs, stream (is.map encode) s = .next (t, rs) ∧ stream (js.map encode) s = .next (u, qs) ∧
        t.mem = u.mem ∧ t.offset = u.offset ∧ t.mode = u.mode ∧ t.rate = u.rate ∧ t.delim = u.delim ∧ t.fcode = u.fcode

/-- R148: ABSORBs of m bytes from OFFSET o never fault, give the state of absorbing the bytes one at a time, perform
(o + m) / RATE permutations and leave OFFSET at (o + m) mod RATE. -/
def Obligations.AbsorbStreamsCountTheirPermutations : Prop :=
  ∀ (is : List Instr) (s : State), BetweenCommands s → s.mode = .absorbing → AllAbsorb is →
    let m := (streamInput is).length
    ∃ t rs, stream (is.map encode) s = .next (t, rs) ∧ t.mode = .absorbing ∧
      (t.mem.lanes, t.offset.toNat) =
        (streamInput is).foldl (absorbReference s.rate.toNat) (s.mem.lanes, s.offset.toNat) ∧
      streamPerms (is.map encode) s = (s.offset.toNat + m) / s.rate.toNat ∧
      t.offset.toNat = (s.offset.toNat + m) % s.rate.toNat

/-- R147: SQUEEZEs of L bytes together, from OFFSET 0, answer out[j] = P_(j div RATE)[j mod RATE] for j < L, whatever
the split, and perform max(0, ceil(L / RATE) - 1) permutations. -/
def Obligations.SqueezeStreamsGiveTheOutput : Prop :=
  ∀ (is : List Instr) (s : State), BetweenCommands s → s.mode = .squeezing → s.offset = 0 → AllSqueeze is →
    ∃ t rs, stream (is.map encode) s = .next (t, rs) ∧ t.mode = .squeezing ∧ rs.length = is.length ∧
      outputBytes is rs = squeezedBytes s.rate.toNat s.mem.lanes (streamLength is) ∧
      streamPerms (is.map encode) s = (streamLength is + s.rate.toNat - 1) / s.rate.toNat - 1

/-- R150: asking for more output never changes the first bytes. -/
def Obligations.ShorterOutputsAreBeginnings : Prop :=
  ∀ (is js : List Instr) (s : State), BetweenCommands s → s.mode = .squeezing → AllSqueeze is → AllSqueeze js →
    streamLength is ≤ streamLength js →
      ∃ t u rs qs, stream (is.map encode) s = .next (t, rs) ∧ stream (js.map encode) s = .next (u, qs) ∧
        outputBytes is rs = (outputBytes js qs).take (streamLength is)

/-- R152: INIT, ABSORBs of m bytes, FINALIZE and SQUEEZEs of L bytes perform
m / RATE + 1 + max(0, ceil(L / RATE) - 1) permutations. -/
def Obligations.LifetimePermutationCount : Prop :=
  ∀ (rate delim : Byte) (is js : List Instr) (s : State), BetweenCommands s → s.mode ≠ .fault → 1 ≤ rate.toNat →
    rate.toNat ≤ 199 → AllAbsorb is → AllSqueeze js →
      streamPerms (encode (.init rate delim) :: is.map encode ++ encode .finalize :: js.map encode) s =
        (streamInput is).length / rate.toNat + 1 + ((streamLength js + rate.toNat - 1) / rate.toNat - 1)

/-- R147, R155, R86: INIT, ABSORBs of a message, FINALIZE and SQUEEZEs of L bytes answer the first L bytes of the
sponge construction on the padded message, whatever the splitting and whatever the core did before. -/
def Obligations.CommandsComputeTheSponge : Prop :=
  ∀ (rate delim : Byte) (is js : List Instr) (s : State), BetweenCommands s → s.mode ≠ .fault → 1 ≤ rate.toNat →
    rate.toNat ≤ 199 → AllAbsorb is → AllSqueeze js →
      let cs := Instr.init rate delim :: is ++ Instr.finalize :: js
      ∃ t rs, stream (cs.map encode) s = .next (t, rs) ∧ rs.length = cs.length ∧
        outputBytes cs rs = spongeHash rate.toNat delim (streamInput is) (streamLength js)

/-! ### The assembler -/

/-- R85: the words of the assembler's lines, and which operands it refuses (the lines as parsed). (How text becomes a
line is partly the model's, log entry 18; that a `.word` number of 2^32 or more is refused is its choice too, log
entry 18.) -/
def Obligations.AssemblerWordsAndRefusals : Prop :=
  (assemble .status = some [0x00000000] ∧ assemble .finalize = some [0x30000000]) ∧
  (∀ r d : Nat, assemble (.init r d) =
    if r ≤ 255 ∧ d ≤ 255 then some [BitVec.ofNat 32 (0x10000000 + r * 2 ^ 8 + d)] else none) ∧
  (∀ b0 : Nat, assemble (.absorb [b0]) = if b0 ≤ 255 then some [BitVec.ofNat 32 (0x20000000 + b0)] else none) ∧
  (∀ b0 b1 : Nat, assemble (.absorb [b0, b1]) =
    if b0 ≤ 255 ∧ b1 ≤ 255 then some [BitVec.ofNat 32 (0x21000000 + b1 * 2 ^ 8 + b0)] else none) ∧
  (∀ b0 b1 b2 : Nat, assemble (.absorb [b0, b1, b2]) =
    if b0 ≤ 255 ∧ b1 ≤ 255 ∧ b2 ≤ 255 then some [BitVec.ofNat 32 (0x22000000 + b2 * 2 ^ 16 + b1 * 2 ^ 8 + b0)]
    else none) ∧
  (∀ bs : List Nat, bs.length = 0 ∨ 3 < bs.length → assemble (.absorb bs) = none) ∧
  (∀ n : Nat, assemble (.squeeze n) =
    if 1 ≤ n ∧ n ≤ 3 then some [BitVec.ofNat 32 (0x40000000 + (n - 1) * 2 ^ 24)] else none) ∧
  ∀ w : Nat, assemble (.word w) = if w < 2 ^ 32 then some [BitVec.ofNat 32 w] else none

/-- R86: ABSORBB expands into ABSORBs of three bytes and one of the rest, which absorb exactly the listed bytes;
SQUEEZEN L into SQUEEZEs of L bytes together. -/
def Obligations.PseudoCommandsExpand : Prop :=
  (∀ xs : List Byte, ∃ is : List Instr, assemble (.absorbb (xs.map BitVec.toNat)) = some (is.map encode) ∧
    AllAbsorb is ∧ streamInput is = xs ∧ is.length = (xs.length + 2) / 3 ∧
    ∀ i ∈ is.take (xs.length / 3), (absorbOperands i).length = 3) ∧
  ∀ len : Nat, ∃ is : List Instr, assemble (.squeezen len) = some (is.map encode) ∧ AllSqueeze is ∧
    streamLength is = len ∧ is.length = (len + 2) / 3 ∧ ∀ i ∈ is.take (len / 3), squeezeCount i = 3
end

