-- ==== Sys2Proof/Laws/Decode.lean ====
section
/-! SUPPORT. The fields of a command word as numbers, so that claims about decoding are arithmetic. -/

namespace Sys2Proof

theorem toNat_extract (w : Word) (start len : Nat) : (w.extractLsb' start len).toNat = w.toNat / 2 ^ start % 2 ^ len := by
  rw [BitVec.extractLsb'_toNat, Nat.shiftRight_eq_div_pow]

theorem toNat_opField (w : Word) : (opField w).toNat = w.toNat / 2 ^ 28 % 2 ^ 4 := toNat_extract w 28 4

theorem toNat_z2Field (w : Word) : (z2Field w).toNat = w.toNat / 2 ^ 26 % 2 ^ 2 := toNat_extract w 26 2

theorem toNat_n1Field (w : Word) : (n1Field w).toNat = w.toNat / 2 ^ 24 % 2 ^ 2 := toNat_extract w 24 2

theorem toNat_byteField (w : Word) (k : Nat) : (byteField w k).toNat = w.toNat / 2 ^ (8 * k) % 2 ^ 8 :=
  toNat_extract w (8 * k) 8

theorem toNat_append {m n : Nat} (x : BitVec m) (y : BitVec n) : (x ++ y).toNat = x.toNat * 2 ^ n + y.toNat := by
  rw [BitVec.toNat_append, Nat.shiftLeft_eq, Nat.mul_comm x.toNat, ← Nat.two_pow_add_eq_or_of_lt y.isLt]

/-- A command word as a number. -/
theorem toNat_commandWord (op : BitVec 4) (n1 : BitVec 2) (b2 b1 b0 : Byte) :
    (commandWord op n1 b2 b1 b0).toNat =
      op.toNat * 2 ^ 28 + n1.toNat * 2 ^ 24 + b2.toNat * 2 ^ 16 + b1.toNat * 2 ^ 8 + b0.toNat := by
  unfold commandWord
  simp only [toNat_append, BitVec.toNat_ofNat]
  omega

@[simp] theorem opField_commandWord (op : BitVec 4) (n1 : BitVec 2) (b2 b1 b0 : Byte) :
    opField (commandWord op n1 b2 b1 b0) = op := by
  apply BitVec.eq_of_toNat_eq
  rw [toNat_opField, toNat_commandWord]
  omega

@[simp] theorem z2Field_commandWord (op : BitVec 4) (n1 : BitVec 2) (b2 b1 b0 : Byte) :
    z2Field (commandWord op n1 b2 b1 b0) = 0 := by
  apply BitVec.eq_of_toNat_eq
  rw [toNat_z2Field, toNat_commandWord]
  simp only [BitVec.ofNat_eq_ofNat, BitVec.toNat_ofNat]
  omega

@[simp] theorem n1Field_commandWord (op : BitVec 4) (n1 : BitVec 2) (b2 b1 b0 : Byte) :
    n1Field (commandWord op n1 b2 b1 b0) = n1 := by
  apply BitVec.eq_of_toNat_eq
  rw [toNat_n1Field, toNat_commandWord]
  omega

@[simp] theorem byteField_zero_commandWord (op : BitVec 4) (n1 : BitVec 2) (b2 b1 b0 : Byte) :
    byteField (commandWord op n1 b2 b1 b0) 0 = b0 := by
  apply BitVec.eq_of_toNat_eq
  rw [toNat_byteField, toNat_commandWord]
  omega

@[simp] theorem byteField_one_commandWord (op : BitVec 4) (n1 : BitVec 2) (b2 b1 b0 : Byte) :
    byteField (commandWord op n1 b2 b1 b0) 1 = b1 := by
  apply BitVec.eq_of_toNat_eq
  rw [toNat_byteField, toNat_commandWord]
  omega

@[simp] theorem byteField_two_commandWord (op : BitVec 4) (n1 : BitVec 2) (b2 b1 b0 : Byte) :
    byteField (commandWord op n1 b2 b1 b0) 2 = b2 := by
  apply BitVec.eq_of_toNat_eq
  rw [toNat_byteField, toNat_commandWord]
  omega

end Sys2Proof
end

