-- ==== Sys2Proof/Laws/State.lean ====
section
/-! SUPPORT. What each named update of State leaves in each field: one lemma for each field of each update, so
that no proof unfolds a record update. -/

namespace Sys2Proof.Machine

/-! ### setMem -/

@[simp] theorem setMem_mem (m : Memory) (s : State) : (setMem m s).mem = m := rfl
@[simp] theorem setMem_rate (m : Memory) (s : State) : (setMem m s).rate = s.rate := rfl
@[simp] theorem setMem_delim (m : Memory) (s : State) : (setMem m s).delim = s.delim := rfl
@[simp] theorem setMem_offset (m : Memory) (s : State) : (setMem m s).offset = s.offset := rfl
@[simp] theorem setMem_mode (m : Memory) (s : State) : (setMem m s).mode = s.mode := rfl
@[simp] theorem setMem_fcode (m : Memory) (s : State) : (setMem m s).fcode = s.fcode := rfl
@[simp] theorem setMem_rcIdx (m : Memory) (s : State) : (setMem m s).rcIdx = s.rcIdx := rfl
@[simp] theorem setMem_work (m : Memory) (s : State) : (setMem m s).work = m.lanes := rfl
@[simp] theorem setMem_flight (m : Memory) (s : State) : (setMem m s).flight = s.flight := rfl
@[simp] theorem setMem_rspPending (m : Memory) (s : State) : (setMem m s).rspPending = s.rspPending := rfl
@[simp] theorem setMem_rspReg (m : Memory) (s : State) : (setMem m s).rspReg = s.rspReg := rfl
@[simp] theorem setMem_rstSampled (m : Memory) (s : State) : (setMem m s).rstSampled = s.rstSampled := rfl
@[simp] theorem setMem_offer (m : Memory) (s : State) : (setMem m s).offer = s.offer := rfl
@[simp] theorem setMem_inputs (m : Memory) (s : State) : (setMem m s).inputs = s.inputs := rfl

/-! ### setOffset -/

@[simp] theorem setOffset_mem (o : Byte) (s : State) : (setOffset o s).mem = s.mem := rfl
@[simp] theorem setOffset_rate (o : Byte) (s : State) : (setOffset o s).rate = s.rate := rfl
@[simp] theorem setOffset_delim (o : Byte) (s : State) : (setOffset o s).delim = s.delim := rfl
@[simp] theorem setOffset_offset (o : Byte) (s : State) : (setOffset o s).offset = o := rfl
@[simp] theorem setOffset_mode (o : Byte) (s : State) : (setOffset o s).mode = s.mode := rfl
@[simp] theorem setOffset_fcode (o : Byte) (s : State) : (setOffset o s).fcode = s.fcode := rfl
@[simp] theorem setOffset_rcIdx (o : Byte) (s : State) : (setOffset o s).rcIdx = s.rcIdx := rfl
@[simp] theorem setOffset_work (o : Byte) (s : State) : (setOffset o s).work = s.work := rfl
@[simp] theorem setOffset_flight (o : Byte) (s : State) : (setOffset o s).flight = s.flight := rfl
@[simp] theorem setOffset_rspPending (o : Byte) (s : State) : (setOffset o s).rspPending = s.rspPending := rfl
@[simp] theorem setOffset_rspReg (o : Byte) (s : State) : (setOffset o s).rspReg = s.rspReg := rfl
@[simp] theorem setOffset_rstSampled (o : Byte) (s : State) : (setOffset o s).rstSampled = s.rstSampled := rfl
@[simp] theorem setOffset_offer (o : Byte) (s : State) : (setOffset o s).offer = s.offer := rfl
@[simp] theorem setOffset_inputs (o : Byte) (s : State) : (setOffset o s).inputs = s.inputs := rfl

/-! ### setMode -/

@[simp] theorem setMode_mem (m : Mode) (s : State) : (setMode m s).mem = s.mem := rfl
@[simp] theorem setMode_rate (m : Mode) (s : State) : (setMode m s).rate = s.rate := rfl
@[simp] theorem setMode_delim (m : Mode) (s : State) : (setMode m s).delim = s.delim := rfl
@[simp] theorem setMode_offset (m : Mode) (s : State) : (setMode m s).offset = s.offset := rfl
@[simp] theorem setMode_mode (m : Mode) (s : State) : (setMode m s).mode = m := rfl
@[simp] theorem setMode_fcode (m : Mode) (s : State) : (setMode m s).fcode = s.fcode := rfl
@[simp] theorem setMode_rcIdx (m : Mode) (s : State) : (setMode m s).rcIdx = s.rcIdx := rfl
@[simp] theorem setMode_work (m : Mode) (s : State) : (setMode m s).work = s.work := rfl
@[simp] theorem setMode_flight (m : Mode) (s : State) : (setMode m s).flight = s.flight := rfl
@[simp] theorem setMode_rspPending (m : Mode) (s : State) : (setMode m s).rspPending = s.rspPending := rfl
@[simp] theorem setMode_rspReg (m : Mode) (s : State) : (setMode m s).rspReg = s.rspReg := rfl
@[simp] theorem setMode_rstSampled (m : Mode) (s : State) : (setMode m s).rstSampled = s.rstSampled := rfl
@[simp] theorem setMode_offer (m : Mode) (s : State) : (setMode m s).offer = s.offer := rfl
@[simp] theorem setMode_inputs (m : Mode) (s : State) : (setMode m s).inputs = s.inputs := rfl

/-! ### permute -/

@[simp] theorem permute_mem (s : State) : (permute s).mem = Memory.ofLanes (keccakF s.mem.lanes) := setMem_mem _ s
@[simp] theorem permute_rate (s : State) : (permute s).rate = s.rate := setMem_rate _ s
@[simp] theorem permute_delim (s : State) : (permute s).delim = s.delim := setMem_delim _ s
@[simp] theorem permute_offset (s : State) : (permute s).offset = s.offset := setMem_offset _ s
@[simp] theorem permute_mode (s : State) : (permute s).mode = s.mode := setMem_mode _ s
@[simp] theorem permute_fcode (s : State) : (permute s).fcode = s.fcode := setMem_fcode _ s
@[simp] theorem permute_rcIdx (s : State) : (permute s).rcIdx = s.rcIdx := setMem_rcIdx _ s
@[simp] theorem permute_work (s : State) : (permute s).work = (Memory.ofLanes (keccakF s.mem.lanes)).lanes := setMem_work _ s
@[simp] theorem permute_flight (s : State) : (permute s).flight = s.flight := setMem_flight _ s
@[simp] theorem permute_rspPending (s : State) : (permute s).rspPending = s.rspPending := setMem_rspPending _ s
@[simp] theorem permute_rspReg (s : State) : (permute s).rspReg = s.rspReg := setMem_rspReg _ s
@[simp] theorem permute_rstSampled (s : State) : (permute s).rstSampled = s.rstSampled := setMem_rstSampled _ s
@[simp] theorem permute_offer (s : State) : (permute s).offer = s.offer := setMem_offer _ s
@[simp] theorem permute_inputs (s : State) : (permute s).inputs = s.inputs := setMem_inputs _ s

/-! ### permuteBlock -/

@[simp] theorem permuteBlock_mem (s : State) : (permuteBlock s).mem = Memory.ofLanes (keccakF s.mem.lanes) := (setOffset_mem _ _).trans (permute_mem s)
@[simp] theorem permuteBlock_rate (s : State) : (permuteBlock s).rate = s.rate := (setOffset_rate _ _).trans (permute_rate s)
@[simp] theorem permuteBlock_delim (s : State) : (permuteBlock s).delim = s.delim := (setOffset_delim _ _).trans (permute_delim s)
@[simp] theorem permuteBlock_offset (s : State) : (permuteBlock s).offset = 0 := setOffset_offset _ _
@[simp] theorem permuteBlock_mode (s : State) : (permuteBlock s).mode = s.mode := (setOffset_mode _ _).trans (permute_mode s)
@[simp] theorem permuteBlock_fcode (s : State) : (permuteBlock s).fcode = s.fcode := (setOffset_fcode _ _).trans (permute_fcode s)
@[simp] theorem permuteBlock_rcIdx (s : State) : (permuteBlock s).rcIdx = s.rcIdx := (setOffset_rcIdx _ _).trans (permute_rcIdx s)
@[simp] theorem permuteBlock_work (s : State) : (permuteBlock s).work = (Memory.ofLanes (keccakF s.mem.lanes)).lanes := (setOffset_work _ _).trans (permute_work s)
@[simp] theorem permuteBlock_flight (s : State) : (permuteBlock s).flight = s.flight := (setOffset_flight _ _).trans (permute_flight s)
@[simp] theorem permuteBlock_rspPending (s : State) : (permuteBlock s).rspPending = s.rspPending := (setOffset_rspPending _ _).trans (permute_rspPending s)
@[simp] theorem permuteBlock_rspReg (s : State) : (permuteBlock s).rspReg = s.rspReg := (setOffset_rspReg _ _).trans (permute_rspReg s)
@[simp] theorem permuteBlock_rstSampled (s : State) : (permuteBlock s).rstSampled = s.rstSampled := (setOffset_rstSampled _ _).trans (permute_rstSampled s)
@[simp] theorem permuteBlock_offer (s : State) : (permuteBlock s).offer = s.offer := (setOffset_offer _ _).trans (permute_offer s)
@[simp] theorem permuteBlock_inputs (s : State) : (permuteBlock s).inputs = s.inputs := (setOffset_inputs _ _).trans (permute_inputs s)

/-! ### respond -/

@[simp] theorem respond_mem (data : BitVec 24) (s : State) : (respond data s).mem = s.mem := rfl
@[simp] theorem respond_rate (data : BitVec 24) (s : State) : (respond data s).rate = s.rate := rfl
@[simp] theorem respond_delim (data : BitVec 24) (s : State) : (respond data s).delim = s.delim := rfl
@[simp] theorem respond_offset (data : BitVec 24) (s : State) : (respond data s).offset = s.offset := rfl
@[simp] theorem respond_mode (data : BitVec 24) (s : State) : (respond data s).mode = s.mode := rfl
@[simp] theorem respond_fcode (data : BitVec 24) (s : State) : (respond data s).fcode = s.fcode := rfl
@[simp] theorem respond_rcIdx (data : BitVec 24) (s : State) : (respond data s).rcIdx = s.rcIdx := rfl
@[simp] theorem respond_work (data : BitVec 24) (s : State) : (respond data s).work = s.work := rfl
@[simp] theorem respond_flight (data : BitVec 24) (s : State) : (respond data s).flight = none := rfl
@[simp] theorem respond_rspPending (data : BitVec 24) (s : State) : (respond data s).rspPending = true := rfl
@[simp] theorem respond_rspReg (data : BitVec 24) (s : State) : (respond data s).rspReg = responseWord s.fcode s.mode data := rfl
@[simp] theorem respond_rstSampled (data : BitVec 24) (s : State) : (respond data s).rstSampled = s.rstSampled := rfl
@[simp] theorem respond_offer (data : BitVec 24) (s : State) : (respond data s).offer = s.offer := rfl
@[simp] theorem respond_inputs (data : BitVec 24) (s : State) : (respond data s).inputs = s.inputs := rfl

/-! ### raiseFault -/

@[simp] theorem raiseFault_mem (c : Cause) (s : State) : (raiseFault c s).mem = s.mem := rfl
@[simp] theorem raiseFault_rate (c : Cause) (s : State) : (raiseFault c s).rate = s.rate := rfl
@[simp] theorem raiseFault_delim (c : Cause) (s : State) : (raiseFault c s).delim = s.delim := rfl
@[simp] theorem raiseFault_offset (c : Cause) (s : State) : (raiseFault c s).offset = s.offset := rfl
@[simp] theorem raiseFault_mode (c : Cause) (s : State) : (raiseFault c s).mode = .fault := rfl
@[simp] theorem raiseFault_fcode (c : Cause) (s : State) : (raiseFault c s).fcode = c.code := rfl
@[simp] theorem raiseFault_rcIdx (c : Cause) (s : State) : (raiseFault c s).rcIdx = s.rcIdx := rfl
@[simp] theorem raiseFault_work (c : Cause) (s : State) : (raiseFault c s).work = s.work := rfl
@[simp] theorem raiseFault_flight (c : Cause) (s : State) : (raiseFault c s).flight = none := rfl
@[simp] theorem raiseFault_rspPending (c : Cause) (s : State) : (raiseFault c s).rspPending = true := rfl
@[simp] theorem raiseFault_rspReg (c : Cause) (s : State) : (raiseFault c s).rspReg = responseWord c.code .fault 0 := rfl
@[simp] theorem raiseFault_rstSampled (c : Cause) (s : State) : (raiseFault c s).rstSampled = s.rstSampled := rfl
@[simp] theorem raiseFault_offer (c : Cause) (s : State) : (raiseFault c s).offer = s.offer := rfl
@[simp] theorem raiseFault_inputs (c : Cause) (s : State) : (raiseFault c s).inputs = s.inputs := rfl

/-! ### initialise -/

@[simp] theorem initialise_mem (rate delim : Byte) (s : State) : (initialise rate delim s).mem = Memory.zeros := rfl
@[simp] theorem initialise_rate (rate delim : Byte) (s : State) : (initialise rate delim s).rate = rate := rfl
@[simp] theorem initialise_delim (rate delim : Byte) (s : State) : (initialise rate delim s).delim = delim := rfl
@[simp] theorem initialise_offset (rate delim : Byte) (s : State) : (initialise rate delim s).offset = 0 := rfl
@[simp] theorem initialise_mode (rate delim : Byte) (s : State) : (initialise rate delim s).mode = .absorbing := rfl
@[simp] theorem initialise_fcode (rate delim : Byte) (s : State) : (initialise rate delim s).fcode = s.fcode := rfl
@[simp] theorem initialise_rcIdx (rate delim : Byte) (s : State) : (initialise rate delim s).rcIdx = s.rcIdx := rfl
@[simp] theorem initialise_work (rate delim : Byte) (s : State) : (initialise rate delim s).work = Memory.zeros.lanes := rfl
@[simp] theorem initialise_flight (rate delim : Byte) (s : State) : (initialise rate delim s).flight = s.flight := rfl
@[simp] theorem initialise_rspPending (rate delim : Byte) (s : State) : (initialise rate delim s).rspPending = s.rspPending := rfl
@[simp] theorem initialise_rspReg (rate delim : Byte) (s : State) : (initialise rate delim s).rspReg = s.rspReg := rfl
@[simp] theorem initialise_rstSampled (rate delim : Byte) (s : State) : (initialise rate delim s).rstSampled = s.rstSampled := rfl
@[simp] theorem initialise_offer (rate delim : Byte) (s : State) : (initialise rate delim s).offer = s.offer := rfl
@[simp] theorem initialise_inputs (rate delim : Byte) (s : State) : (initialise rate delim s).inputs = s.inputs := rfl

/-! ### startPermutation -/

@[simp] theorem startPermutation_mem (s : State) : (startPermutation s).mem = s.mem := rfl
@[simp] theorem startPermutation_rate (s : State) : (startPermutation s).rate = s.rate := rfl
@[simp] theorem startPermutation_delim (s : State) : (startPermutation s).delim = s.delim := rfl
@[simp] theorem startPermutation_offset (s : State) : (startPermutation s).offset = s.offset := rfl
@[simp] theorem startPermutation_mode (s : State) : (startPermutation s).mode = s.mode := rfl
@[simp] theorem startPermutation_fcode (s : State) : (startPermutation s).fcode = s.fcode := rfl
@[simp] theorem startPermutation_rcIdx (s : State) : (startPermutation s).rcIdx = 0 := rfl
@[simp] theorem startPermutation_work (s : State) : (startPermutation s).work = s.mem.lanes := rfl
@[simp] theorem startPermutation_flight (s : State) : (startPermutation s).flight = s.flight := rfl
@[simp] theorem startPermutation_rspPending (s : State) : (startPermutation s).rspPending = s.rspPending := rfl
@[simp] theorem startPermutation_rspReg (s : State) : (startPermutation s).rspReg = s.rspReg := rfl
@[simp] theorem startPermutation_rstSampled (s : State) : (startPermutation s).rstSampled = s.rstSampled := rfl
@[simp] theorem startPermutation_offer (s : State) : (startPermutation s).offer = s.offer := rfl
@[simp] theorem startPermutation_inputs (s : State) : (startPermutation s).inputs = s.inputs := rfl

/-! ### setPipeline -/

@[simp] theorem setPipeline_mem (a : Lanes) (ir : BitVec 5) (s : State) : (setPipeline a ir s).mem = s.mem := rfl
@[simp] theorem setPipeline_rate (a : Lanes) (ir : BitVec 5) (s : State) : (setPipeline a ir s).rate = s.rate := rfl
@[simp] theorem setPipeline_delim (a : Lanes) (ir : BitVec 5) (s : State) : (setPipeline a ir s).delim = s.delim := rfl
@[simp] theorem setPipeline_offset (a : Lanes) (ir : BitVec 5) (s : State) : (setPipeline a ir s).offset = s.offset := rfl
@[simp] theorem setPipeline_mode (a : Lanes) (ir : BitVec 5) (s : State) : (setPipeline a ir s).mode = s.mode := rfl
@[simp] theorem setPipeline_fcode (a : Lanes) (ir : BitVec 5) (s : State) : (setPipeline a ir s).fcode = s.fcode := rfl
@[simp] theorem setPipeline_rcIdx (a : Lanes) (ir : BitVec 5) (s : State) : (setPipeline a ir s).rcIdx = ir := rfl
@[simp] theorem setPipeline_work (a : Lanes) (ir : BitVec 5) (s : State) : (setPipeline a ir s).work = a := rfl
@[simp] theorem setPipeline_flight (a : Lanes) (ir : BitVec 5) (s : State) : (setPipeline a ir s).flight = s.flight := rfl
@[simp] theorem setPipeline_rspPending (a : Lanes) (ir : BitVec 5) (s : State) : (setPipeline a ir s).rspPending = s.rspPending := rfl
@[simp] theorem setPipeline_rspReg (a : Lanes) (ir : BitVec 5) (s : State) : (setPipeline a ir s).rspReg = s.rspReg := rfl
@[simp] theorem setPipeline_rstSampled (a : Lanes) (ir : BitVec 5) (s : State) : (setPipeline a ir s).rstSampled = s.rstSampled := rfl
@[simp] theorem setPipeline_offer (a : Lanes) (ir : BitVec 5) (s : State) : (setPipeline a ir s).offer = s.offer := rfl
@[simp] theorem setPipeline_inputs (a : Lanes) (ir : BitVec 5) (s : State) : (setPipeline a ir s).inputs = s.inputs := rfl

/-! ### storePermuted -/

@[simp] theorem storePermuted_mem (m : Memory) (a : Lanes) (s : State) : (storePermuted m a s).mem = m := rfl
@[simp] theorem storePermuted_rate (m : Memory) (a : Lanes) (s : State) : (storePermuted m a s).rate = s.rate := rfl
@[simp] theorem storePermuted_delim (m : Memory) (a : Lanes) (s : State) : (storePermuted m a s).delim = s.delim := rfl
@[simp] theorem storePermuted_offset (m : Memory) (a : Lanes) (s : State) : (storePermuted m a s).offset = 0 := rfl
@[simp] theorem storePermuted_mode (m : Memory) (a : Lanes) (s : State) : (storePermuted m a s).mode = s.mode := rfl
@[simp] theorem storePermuted_fcode (m : Memory) (a : Lanes) (s : State) : (storePermuted m a s).fcode = s.fcode := rfl
@[simp] theorem storePermuted_rcIdx (m : Memory) (a : Lanes) (s : State) : (storePermuted m a s).rcIdx = 0 := rfl
@[simp] theorem storePermuted_work (m : Memory) (a : Lanes) (s : State) : (storePermuted m a s).work = a := rfl
@[simp] theorem storePermuted_flight (m : Memory) (a : Lanes) (s : State) : (storePermuted m a s).flight = s.flight := rfl
@[simp] theorem storePermuted_rspPending (m : Memory) (a : Lanes) (s : State) : (storePermuted m a s).rspPending = s.rspPending := rfl
@[simp] theorem storePermuted_rspReg (m : Memory) (a : Lanes) (s : State) : (storePermuted m a s).rspReg = s.rspReg := rfl
@[simp] theorem storePermuted_rstSampled (m : Memory) (a : Lanes) (s : State) : (storePermuted m a s).rstSampled = s.rstSampled := rfl
@[simp] theorem storePermuted_offer (m : Memory) (a : Lanes) (s : State) : (storePermuted m a s).offer = s.offer := rfl
@[simp] theorem storePermuted_inputs (m : Memory) (a : Lanes) (s : State) : (storePermuted m a s).inputs = s.inputs := rfl

/-! ### setFlight -/

@[simp] theorem setFlight_mem (w : Work) (s : State) : (setFlight w s).mem = s.mem := rfl
@[simp] theorem setFlight_rate (w : Work) (s : State) : (setFlight w s).rate = s.rate := rfl
@[simp] theorem setFlight_delim (w : Work) (s : State) : (setFlight w s).delim = s.delim := rfl
@[simp] theorem setFlight_offset (w : Work) (s : State) : (setFlight w s).offset = s.offset := rfl
@[simp] theorem setFlight_mode (w : Work) (s : State) : (setFlight w s).mode = s.mode := rfl
@[simp] theorem setFlight_fcode (w : Work) (s : State) : (setFlight w s).fcode = s.fcode := rfl
@[simp] theorem setFlight_rcIdx (w : Work) (s : State) : (setFlight w s).rcIdx = s.rcIdx := rfl
@[simp] theorem setFlight_work (w : Work) (s : State) : (setFlight w s).work = s.work := rfl
@[simp] theorem setFlight_flight (w : Work) (s : State) : (setFlight w s).flight = some w := rfl
@[simp] theorem setFlight_rspPending (w : Work) (s : State) : (setFlight w s).rspPending = s.rspPending := rfl
@[simp] theorem setFlight_rspReg (w : Work) (s : State) : (setFlight w s).rspReg = s.rspReg := rfl
@[simp] theorem setFlight_rstSampled (w : Work) (s : State) : (setFlight w s).rstSampled = s.rstSampled := rfl
@[simp] theorem setFlight_offer (w : Work) (s : State) : (setFlight w s).offer = s.offer := rfl
@[simp] theorem setFlight_inputs (w : Work) (s : State) : (setFlight w s).inputs = s.inputs := rfl

/-! ### takeResponse -/

@[simp] theorem takeResponse_mem (s : State) : (takeResponse s).mem = s.mem := rfl
@[simp] theorem takeResponse_rate (s : State) : (takeResponse s).rate = s.rate := rfl
@[simp] theorem takeResponse_delim (s : State) : (takeResponse s).delim = s.delim := rfl
@[simp] theorem takeResponse_offset (s : State) : (takeResponse s).offset = s.offset := rfl
@[simp] theorem takeResponse_mode (s : State) : (takeResponse s).mode = s.mode := rfl
@[simp] theorem takeResponse_fcode (s : State) : (takeResponse s).fcode = s.fcode := rfl
@[simp] theorem takeResponse_rcIdx (s : State) : (takeResponse s).rcIdx = s.rcIdx := rfl
@[simp] theorem takeResponse_work (s : State) : (takeResponse s).work = s.work := rfl
@[simp] theorem takeResponse_flight (s : State) : (takeResponse s).flight = s.flight := rfl
@[simp] theorem takeResponse_rspPending (s : State) : (takeResponse s).rspPending = false := rfl
@[simp] theorem takeResponse_rspReg (s : State) : (takeResponse s).rspReg = s.rspReg := rfl
@[simp] theorem takeResponse_rstSampled (s : State) : (takeResponse s).rstSampled = s.rstSampled := rfl
@[simp] theorem takeResponse_offer (s : State) : (takeResponse s).offer = s.offer := rfl
@[simp] theorem takeResponse_inputs (s : State) : (takeResponse s).inputs = s.inputs := rfl

/-! ### holdOffer -/

@[simp] theorem holdOffer_mem (p : Ports) (s : State) : (holdOffer p s).mem = s.mem := rfl
@[simp] theorem holdOffer_rate (p : Ports) (s : State) : (holdOffer p s).rate = s.rate := rfl
@[simp] theorem holdOffer_delim (p : Ports) (s : State) : (holdOffer p s).delim = s.delim := rfl
@[simp] theorem holdOffer_offset (p : Ports) (s : State) : (holdOffer p s).offset = s.offset := rfl
@[simp] theorem holdOffer_mode (p : Ports) (s : State) : (holdOffer p s).mode = s.mode := rfl
@[simp] theorem holdOffer_fcode (p : Ports) (s : State) : (holdOffer p s).fcode = s.fcode := rfl
@[simp] theorem holdOffer_rcIdx (p : Ports) (s : State) : (holdOffer p s).rcIdx = s.rcIdx := rfl
@[simp] theorem holdOffer_work (p : Ports) (s : State) : (holdOffer p s).work = s.work := rfl
@[simp] theorem holdOffer_flight (p : Ports) (s : State) : (holdOffer p s).flight = s.flight := rfl
@[simp] theorem holdOffer_rspPending (p : Ports) (s : State) : (holdOffer p s).rspPending = s.rspPending := rfl
@[simp] theorem holdOffer_rspReg (p : Ports) (s : State) : (holdOffer p s).rspReg = s.rspReg := rfl
@[simp] theorem holdOffer_rstSampled (p : Ports) (s : State) : (holdOffer p s).rstSampled = s.rstSampled := rfl
@[simp] theorem holdOffer_offer (p : Ports) (s : State) : (holdOffer p s).offer = if breaksOffer p s then .broken else if p.cmdValid then .waiting p.cmdWord else .none := rfl
@[simp] theorem holdOffer_inputs (p : Ports) (s : State) : (holdOffer p s).inputs = s.inputs := rfl

/-! ### offerNext -/

@[simp] theorem offerNext_mem (w : Word) (s : State) : (offerNext w s).mem = s.mem := rfl
@[simp] theorem offerNext_rate (w : Word) (s : State) : (offerNext w s).rate = s.rate := rfl
@[simp] theorem offerNext_delim (w : Word) (s : State) : (offerNext w s).delim = s.delim := rfl
@[simp] theorem offerNext_offset (w : Word) (s : State) : (offerNext w s).offset = s.offset := rfl
@[simp] theorem offerNext_mode (w : Word) (s : State) : (offerNext w s).mode = s.mode := rfl
@[simp] theorem offerNext_fcode (w : Word) (s : State) : (offerNext w s).fcode = s.fcode := rfl
@[simp] theorem offerNext_rcIdx (w : Word) (s : State) : (offerNext w s).rcIdx = s.rcIdx := rfl
@[simp] theorem offerNext_work (w : Word) (s : State) : (offerNext w s).work = s.work := rfl
@[simp] theorem offerNext_flight (w : Word) (s : State) : (offerNext w s).flight = none := rfl
@[simp] theorem offerNext_rspPending (w : Word) (s : State) : (offerNext w s).rspPending = false := rfl
@[simp] theorem offerNext_rspReg (w : Word) (s : State) : (offerNext w s).rspReg = s.rspReg := rfl
@[simp] theorem offerNext_rstSampled (w : Word) (s : State) : (offerNext w s).rstSampled = false := rfl
@[simp] theorem offerNext_offer (w : Word) (s : State) : (offerNext w s).offer = .none := rfl
@[simp] theorem offerNext_inputs (w : Word) (s : State) : (offerNext w s).inputs = .command w :: s.inputs := rfl

/-! ### releaseReset -/

@[simp] theorem releaseReset_mem (s : State) : (releaseReset s).mem = s.mem := rfl
@[simp] theorem releaseReset_rate (s : State) : (releaseReset s).rate = s.rate := rfl
@[simp] theorem releaseReset_delim (s : State) : (releaseReset s).delim = s.delim := rfl
@[simp] theorem releaseReset_offset (s : State) : (releaseReset s).offset = s.offset := rfl
@[simp] theorem releaseReset_mode (s : State) : (releaseReset s).mode = s.mode := rfl
@[simp] theorem releaseReset_fcode (s : State) : (releaseReset s).fcode = s.fcode := rfl
@[simp] theorem releaseReset_rcIdx (s : State) : (releaseReset s).rcIdx = s.rcIdx := rfl
@[simp] theorem releaseReset_work (s : State) : (releaseReset s).work = s.work := rfl
@[simp] theorem releaseReset_flight (s : State) : (releaseReset s).flight = s.flight := rfl
@[simp] theorem releaseReset_rspPending (s : State) : (releaseReset s).rspPending = s.rspPending := rfl
@[simp] theorem releaseReset_rspReg (s : State) : (releaseReset s).rspReg = s.rspReg := rfl
@[simp] theorem releaseReset_rstSampled (s : State) : (releaseReset s).rstSampled = false := rfl
@[simp] theorem releaseReset_offer (s : State) : (releaseReset s).offer = s.offer := rfl
@[simp] theorem releaseReset_inputs (s : State) : (releaseReset s).inputs = s.inputs := rfl

/-! ### resetCore: every register at its reset value, the host's offer and actions kept -/

@[simp] theorem resetCore_mem (s : State) : (resetCore s).mem = ⟨[]⟩ := rfl
@[simp] theorem resetCore_rate (s : State) : (resetCore s).rate = 0 := rfl
@[simp] theorem resetCore_delim (s : State) : (resetCore s).delim = 0 := rfl
@[simp] theorem resetCore_offset (s : State) : (resetCore s).offset = 0 := rfl
@[simp] theorem resetCore_mode (s : State) : (resetCore s).mode = .idle := rfl
@[simp] theorem resetCore_fcode (s : State) : (resetCore s).fcode = 0 := rfl
@[simp] theorem resetCore_rcIdx (s : State) : (resetCore s).rcIdx = 0 := rfl
@[simp] theorem resetCore_work (s : State) : (resetCore s).work = Vector.replicate 25 0 := rfl
@[simp] theorem resetCore_flight (s : State) : (resetCore s).flight = none := rfl
@[simp] theorem resetCore_rspPending (s : State) : (resetCore s).rspPending = false := rfl
@[simp] theorem resetCore_rspReg (s : State) : (resetCore s).rspReg = 0 := rfl
@[simp] theorem resetCore_rstSampled (s : State) : (resetCore s).rstSampled = true := rfl
@[simp] theorem resetCore_offer (s : State) : (resetCore s).offer = s.offer := rfl
@[simp] theorem resetCore_inputs (s : State) : (resetCore s).inputs = s.inputs := rfl

/-- Two states with equal fields are equal. -/
theorem State.ext_fields {s t : State} (hmem : s.mem = t.mem) (hrate : s.rate = t.rate) (hdelim : s.delim = t.delim)
    (hoffset : s.offset = t.offset) (hmode : s.mode = t.mode) (hfcode : s.fcode = t.fcode) (hrcIdx : s.rcIdx = t.rcIdx)
    (hwork : s.work = t.work) (hflight : s.flight = t.flight) (hrspPending : s.rspPending = t.rspPending)
    (hrspReg : s.rspReg = t.rspReg) (hrstSampled : s.rstSampled = t.rstSampled) (hoffer : s.offer = t.offer) (hinputs : s.inputs = t.inputs) : s = t := by
  cases s
  cases t
  simp_all

end Sys2Proof.Machine
end

