-- ==== Sys2Proof/Laws/Edges.lean ====
section
/-! SUPPORT. When the core is ready and when it can accept, and the four things one clock edge can do (30_encoding.md
R71 to R73). -/

namespace Sys2Proof.Machine

theorem cmdReady_iff {rst : Bool} {s : State} :
    cmdReady rst s = true ↔ s.flight = none ∧ s.rspPending = false ∧ rst = false := by
  cases h : s.flight <;> simp [cmdReady, State.busy, h]

/-- R71's condition is `cmd_ready` = 1, which includes `rst` = 0. -/
theorem canAccept_eq {rst : Bool} {s : State} : canAccept rst s = cmdReady rst s := by
  cases rst <;> simp [canAccept, cmdReady]

/-- To the letter, R71 (with the `cmd_ready` of R73) and R210's sentence on the first edge after a reset exclude each other,
however acceptance is decided: with a word on offer at the edge that samples `rst` = 0 first, R71 accepts it and R210
does not (log entry 15). -/
theorem no_acceptance_meets_R71_and_R210 (accepts : Ports → State → Bool)
    (r71 : ∀ p s, p.rst = false → p.cmdValid = true → cmdReady p.rst s = true → accepts p s = true)
    (r210 : ∀ p s, s.rstSampled = true → p.rst = false → accepts p s = false) : False := by
  have h := r71 (offerPorts 0) State.reset rfl rfl rfl
  rw [r210 (offerPorts 0) State.reset rfl rfl] at h
  cases h

theorem breaksOffer_waiting {p : Ports} {s : State} {w : Word} (h : s.offer = .waiting w) :
    breaksOffer p s = true ↔ p.cmdValid = false ∨ p.cmdWord ≠ w := by
  simp [breaksOffer, h]

/-- A host that breaks its offer has broken it for good. -/
theorem holdOffer_broken {p : Ports} {s : State} (h : breaksOffer p s = true) : (holdOffer p s).offer = .broken := by
  simp [holdOffer, h]

/-- A host that keeps its offer goes on to owe what it offers. -/
theorem holdOffer_kept {p : Ports} {s : State} (h : breaksOffer p s = false) :
    holdOffer p s = { s with offer := if p.cmdValid then .waiting p.cmdWord else .none } := by
  simp [holdOffer, h]

/-- An edge with `rst` = 1. -/
theorem clockEdge_reset {rpc : RoundsPerCycle} {p : Ports} {s : State} (h : p.rst = true) :
    clockEdge rpc p s = .next (resetCore (holdOffer p s)) := if_pos h

/-- An edge with `rst` = 0 at which the host breaks its offer. -/
theorem clockEdge_refused {rpc : RoundsPerCycle} {p : Ports} {s : State} (hr : p.rst = false)
    (hb : breaksOffer p s = true) : clockEdge rpc p s = .refused .hostDroppedOffer := by
  simp [clockEdge, hr, hb]

/-- What an edge with `rst` = 0 and a lawful host does: accept, advance, or wait. -/
theorem clockEdge_eq {rpc : RoundsPerCycle} {p : Ports} {s : State} (hr : p.rst = false)
    (hb : breaksOffer p s = false) :
    clockEdge rpc p s =
      if p.cmdValid = true ∧ canAccept false s = true then
        keepFlight (beginWord p.cmdWord { releaseReset s with offer := .none })
      else
        match s.flight with
        | some w => advance rpc w (holdOffer p (releaseReset s))
        | none => .next { holdOffer p (releaseReset s) with rspPending := s.rspPending && !p.rspReady } := by
  simp only [clockEdge, hr, hb, Bool.false_eq_true, if_false, Bool.and_eq_true]
    <;> rfl

/-- An edge that answers a next state resets, accepts, advances, or waits. -/
theorem clockEdge_cases {rpc : RoundsPerCycle} {p : Ports} {s t : State} (h : clockEdge rpc p s = .next t) :
    (p.rst = true ∧ t = resetCore (holdOffer p s)) ∨
    (p.rst = false ∧ breaksOffer p s = false ∧ p.cmdValid = true ∧ canAccept false s = true ∧
      keepFlight (beginWord p.cmdWord { releaseReset s with offer := .none }) = .next t) ∨
    (p.rst = false ∧ breaksOffer p s = false ∧
      ∃ w, s.flight = some w ∧ advance rpc w (holdOffer p (releaseReset s)) = .next t) ∨
    (p.rst = false ∧ breaksOffer p s = false ∧ s.flight = none ∧ ¬(p.cmdValid = true ∧ canAccept false s = true) ∧
      t = { holdOffer p (releaseReset s) with rspPending := s.rspPending && !p.rspReady }) := by
  cases hr : p.rst with
  | true =>
    rw [clockEdge_reset hr] at h
    injection h with h
    exact .inl ⟨rfl, h.symm⟩
  | false =>
    cases hb : breaksOffer p s with
    | true => simp [clockEdge, hr, hb] at h
    | false =>
      rw [clockEdge_eq hr hb] at h
      by_cases ha : p.cmdValid = true ∧ canAccept false s = true
      · rw [if_pos ha] at h
        exact .inr (.inl ⟨rfl, rfl, ha.1, ha.2, h⟩)
      · rw [if_neg ha] at h
        cases hf : s.flight with
        | some w =>
          rw [hf] at h
          exact .inr (.inr (.inl ⟨rfl, rfl, w, rfl, h⟩))
        | none =>
          rw [hf] at h
          injection h with h
          exact .inr (.inr (.inr ⟨rfl, rfl, rfl, ha, h.symm⟩))

end Sys2Proof.Machine
end

