-- ==== Sys2Proof/Laws/Memory.lean ====
section
/-! SUPPORT. The laws of the state array as bytes: the canonical form is kept, a read after a write, and equal
reads make equal arrays. -/

namespace Sys2Proof.Machine

/-! ### Lists of cells -/

theorem cellsWf_weaken {lo lo' : Nat} (h : lo' ≤ lo) : ∀ {cs : List Host.Cell}, cellsWf lo cs = true → cellsWf lo' cs = true
  | [], _ => rfl
  | (a, v) :: rest, hw => by
    simp only [cellsWf, Bool.and_eq_true, decide_eq_true_eq] at hw ⊢
    exact ⟨⟨⟨by omega, hw.1.1.2⟩, hw.1.2⟩, hw.2⟩

/-- An address below the list's bound is not listed. -/
theorem lookup_below {lo a : Nat} (h : a < lo) : ∀ {cs : List Host.Cell}, cellsWf lo cs = true → cs.lookup a = none
  | [], _ => rfl
  | (b, v) :: rest, hw => by
    simp only [cellsWf, Bool.and_eq_true, decide_eq_true_eq] at hw
    have hne : (a == b) = false := by simp; omega
    rw [List.lookup_cons, hne]
    exact lookup_below (lo := b + 1) (by omega) hw.2

/-- An address that S does not have is not listed. -/
theorem lookup_outside {lo a : Nat} (h : Config.stateBytes ≤ a) :
    ∀ {cs : List Host.Cell}, cellsWf lo cs = true → cs.lookup a = none
  | [], _ => rfl
  | (b, v) :: rest, hw => by
    simp only [cellsWf, Bool.and_eq_true, decide_eq_true_eq] at hw
    have hne : (a == b) = false := by simp; omega
    rw [List.lookup_cons, hne]
    exact lookup_outside h hw.2

theorem insertCell_wf {a : Nat} {v : Byte} (ha : a < Config.stateBytes) :
    ∀ {lo : Nat} {cs : List Host.Cell}, lo ≤ a → cellsWf lo cs = true → cellsWf lo (insertCell a v cs) = true
  | lo, [], hlo, _ => by
    unfold insertCell
    split
    · rfl
    · rename_i hv; simp [cellsWf, hlo, ha, hv]
  | lo, (b, u) :: rest, hlo, hw => by
    have hw' := hw
    simp only [cellsWf, Bool.and_eq_true, decide_eq_true_eq] at hw'
    unfold insertCell
    split
    · rename_i hab
      split
      · exact hw
      · rename_i hv
        simp only [cellsWf, Bool.and_eq_true, decide_eq_true_eq, bne_iff_ne, ne_eq]
        refine ⟨⟨⟨hlo, ha⟩, hv⟩, ⟨⟨by omega, hw'.1.1.2⟩, by simpa using hw'.1.2⟩, hw'.2⟩
    · split
      · rename_i hab
        subst hab
        split
        · exact cellsWf_weaken (by omega) hw'.2
        · rename_i hv
          simp only [cellsWf, Bool.and_eq_true, decide_eq_true_eq, bne_iff_ne, ne_eq]
          exact ⟨⟨⟨hlo, ha⟩, hv⟩, hw'.2⟩
      · simp only [cellsWf, Bool.and_eq_true, decide_eq_true_eq]
        exact ⟨hw'.1, insertCell_wf ha (by omega) hw'.2⟩

theorem lookup_insertCell_same (a : Nat) (v : Byte) :
    ∀ {lo : Nat} {cs : List Host.Cell}, cellsWf lo cs = true →
      ((insertCell a v cs).lookup a).getD Memory.unlisted = v
  | _, [], _ => by
    unfold insertCell
    split <;> simp_all
  | lo, (b, u) :: rest, hw => by
    simp only [cellsWf, Bool.and_eq_true, decide_eq_true_eq] at hw
    unfold insertCell
    split
    · split
      · rename_i hab hv
        rw [lookup_below (lo := b) hab (cs := (b, u) :: rest) (by simpa [cellsWf] using ⟨⟨hw.1.1.2, by simpa using hw.1.2⟩, hw.2⟩)]
        simp [hv]
      · simp
    · split
      · rename_i hab
        subst hab
        split
        · rename_i hv
          rw [lookup_below (lo := a + 1) (by omega) hw.2]
          simp [hv]
        · simp
      · rename_i h1 h2
        rw [List.lookup_cons, show (a == b) = false by simpa using h2]
        exact lookup_insertCell_same a v hw.2

theorem lookup_insertCell_other {a a' : Nat} (v : Byte) (h : a' ≠ a) :
    ∀ {cs : List Host.Cell}, (insertCell a v cs).lookup a' = cs.lookup a'
  | [] => by
    unfold insertCell
    split
    · rfl
    · rw [List.lookup_cons, show (a' == a) = false by simpa using h]
  | (b, u) :: rest => by
    unfold insertCell
    split
    · split
      · rfl
      · rw [List.lookup_cons (k := a), show (a' == a) = false by simpa using h]
    · split
      · rename_i hab
        subst hab
        have hb : (a' == a) = false := by simpa using h
        split
        · rw [List.lookup_cons, hb]
        · rw [List.lookup_cons, List.lookup_cons, hb]
      · rw [List.lookup_cons, List.lookup_cons, lookup_insertCell_other v h]

theorem cellsOfFn_wf (f : Nat → Byte) : ∀ {n lo : Nat}, lo + n ≤ Config.stateBytes → cellsWf lo (cellsOfFn f n lo) = true
  | 0, _, _ => rfl
  | n + 1, lo, h => by
    have ih := cellsOfFn_wf f (n := n) (lo := lo + 1) (by omega)
    unfold cellsOfFn
    split
    · exact cellsWf_weaken (by omega) ih
    · rename_i hv
      simp only [cellsWf, Bool.and_eq_true, decide_eq_true_eq, bne_iff_ne, ne_eq]
      exact ⟨⟨⟨by omega, by omega⟩, hv⟩, ih⟩

theorem lookup_cellsOfFn (f : Nat → Byte) (a : Nat) :
    ∀ {n lo : Nat}, ((cellsOfFn f n lo).lookup a).getD Memory.unlisted =
      if lo ≤ a ∧ a < lo + n then f a else Memory.unlisted
  | 0, lo => by
    rw [if_neg (by omega)]; rfl
  | n + 1, lo => by
    have ih := lookup_cellsOfFn f a (n := n) (lo := lo + 1)
    unfold cellsOfFn
    by_cases ha : a = lo
    · subst ha
      rw [if_neg (show ¬(a + 1 ≤ a ∧ a < a + 1 + n) by omega)] at ih
      rw [if_pos (show a ≤ a ∧ a < a + (n + 1) by omega)]
      by_cases hv : f a = Memory.unlisted
      · rw [if_pos hv, ih, hv]
      · rw [if_neg hv]; simp
    · have hb : (a == lo) = false := by simpa using ha
      have hi : (lo ≤ a ∧ a < lo + (n + 1)) ↔ (lo + 1 ≤ a ∧ a < lo + 1 + n) := by omega
      split
      · rw [ih]; simp only [hi]
      · rw [List.lookup_cons, hb, ih]; simp only [hi]

theorem cells_ext : ∀ {lo : Nat} {cs ds : List Host.Cell}, cellsWf lo cs = true → cellsWf lo ds = true →
    (∀ a, (cs.lookup a).getD Memory.unlisted = (ds.lookup a).getD Memory.unlisted) → cs = ds
  | _, [], [], _, _, _ => rfl
  | lo, [], (b, v) :: ds, _, hd, h => by
    simp only [cellsWf, Bool.and_eq_true, decide_eq_true_eq, bne_iff_ne, ne_eq] at hd
    have := h b
    simp at this
    exact absurd this.symm hd.1.2
  | lo, (b, v) :: cs, [], hc, _, h => by
    simp only [cellsWf, Bool.and_eq_true, decide_eq_true_eq, bne_iff_ne, ne_eq] at hc
    have := h b
    simp at this
    exact absurd this hc.1.2
  | lo, (a, v) :: cs, (b, u) :: ds, hc, hd, h => by
    have hc' := hc
    have hd' := hd
    simp only [cellsWf, Bool.and_eq_true, decide_eq_true_eq, bne_iff_ne, ne_eq] at hc' hd'
    have hab : a = b := by
      rcases Nat.lt_trichotomy a b with hlt | heq | hgt
      · have := h a
        rw [lookup_below (lo := b) hlt (cs := (b, u) :: ds) (by simpa [cellsWf] using ⟨⟨hd'.1.1.2, hd'.1.2⟩, hd'.2⟩)] at this
        simp at this
        exact absurd this hc'.1.2
      · exact heq
      · have := h b
        rw [lookup_below (lo := a) hgt (cs := (a, v) :: cs) (by simpa [cellsWf] using ⟨⟨hc'.1.1.2, hc'.1.2⟩, hc'.2⟩)] at this
        simp at this
        exact absurd this.symm hd'.1.2
    subst hab
    have hvu : v = u := by simpa using h a
    subst hvu
    have : cs = ds := by
      apply cells_ext hc'.2 hd'.2
      intro x
      by_cases hx : x = a
      · subst hx
        rw [lookup_below (lo := x + 1) (by omega) hc'.2, lookup_below (lo := x + 1) (by omega) hd'.2]
      · have := h x
        rwa [List.lookup_cons, List.lookup_cons, show (x == a) = false by simpa using hx] at this
    rw [this]

/-! ### The state array -/

/-- Equal reads make equal arrays (the canonical form is canonical). -/
theorem Memory.ext_read {m n : Memory} (hm : m.wf = true) (hn : n.wf = true) (h : ∀ a, m.read a = n.read a) : m = n := by
  cases m; cases n
  exact congrArg Memory.mk (cells_ext hm hn h)

theorem Memory.write_wf {m : Memory} {a : Nat} {v : Byte} (ha : a < Config.stateBytes) (hm : m.wf = true) :
    (m.write a v).wf = true :=
  insertCell_wf ha (Nat.zero_le a) hm

theorem Memory.read_write_same {m : Memory} (hm : m.wf = true) (a : Nat) (v : Byte) : (m.write a v).read a = v :=
  lookup_insertCell_same a v hm

theorem Memory.read_write_other {m : Memory} {a a' : Nat} (v : Byte) (h : a' ≠ a) : (m.write a v).read a' = m.read a' := by
  unfold Memory.read Memory.write
  rw [lookup_insertCell_other v h]

theorem Memory.read_outside {m : Memory} (hm : m.wf = true) {a : Nat} (h : Config.stateBytes ≤ a) : m.read a = 0 := by
  unfold Memory.read
  rw [lookup_outside h hm]; rfl

@[simp] theorem Memory.zeros_wf : Memory.zeros.wf = true := rfl

@[simp] theorem Memory.read_zeros (a : Nat) : Memory.zeros.read a = 0 := rfl

@[simp] theorem Memory.ofFn_wf (f : Nat → Byte) : (Memory.ofFn f).wf = true := by
  unfold Memory.ofFn
  exact cellsOfFn_wf f (n := Config.stateBytes) (lo := 0) (by omega)

theorem Memory.read_ofFn (f : Nat → Byte) (a : Nat) : (Memory.ofFn f).read a = if a < Config.stateBytes then f a else 0 := by
  unfold Memory.read Memory.ofFn
  rw [lookup_cellsOfFn]
  simp only [Nat.zero_le, true_and, Nat.zero_add]
  rfl

@[simp] theorem Memory.ofLanes_wf (a : Lanes) : (Memory.ofLanes a).wf = true := Memory.ofFn_wf _

theorem Memory.read_ofLanes (a : Lanes) (i : Nat) :
    (Memory.ofLanes a).read i = if i < Config.stateBytes then lanesByte a i else 0 :=
  Memory.read_ofFn _ i

/-- The state array after reset is canonical, and every byte of it is 0 (R211). -/
theorem reset_mem_wf : State.reset.mem.wf = true := rfl

theorem reset_mem_read (a : Nat) : State.reset.mem.read a = 0 := rfl

end Sys2Proof.Machine
end

