-- ==== Sys2Proof/Laws/Lanes.lean ====
section
/-! SUPPORT. The laws of the state array as lanes: SetLane after Lane and Lane after SetLane, lanes by their
coordinates, and rounds in pieces. -/

namespace Sys2Proof.Machine

/-- Byte k of a lane is byte 8i + k of S (R21). -/
theorem Memory.lane_byte (m : Memory) (i : Nat) {k : Nat} (hk : k < 8) :
    (m.lane i).extractLsb' (8 * k) 8 = m.read (8 * i + k) := by
  have : k = 0 ∨ k = 1 ∨ k = 2 ∨ k = 3 ∨ k = 4 ∨ k = 5 ∨ k = 6 ∨ k = 7 := by omega
  rcases this with rfl | rfl | rfl | rfl | rfl | rfl | rfl | rfl <;>
  · ext j hj
    simp only [Memory.lane, BitVec.getElem_extractLsb', BitVec.getLsbD_append]
    have : j = 0 ∨ j = 1 ∨ j = 2 ∨ j = 3 ∨ j = 4 ∨ j = 5 ∨ j = 6 ∨ j = 7 := by omega
    rcases this with rfl | rfl | rfl | rfl | rfl | rfl | rfl | rfl <;> simp [BitVec.getLsbD_eq_getElem]

/-- A lane is its eight bytes. -/
theorem lane_of_bytes (v : Lane) :
    v.extractLsb' 56 8 ++ v.extractLsb' 48 8 ++ v.extractLsb' 40 8 ++ v.extractLsb' 32 8 ++ v.extractLsb' 24 8 ++
      v.extractLsb' 16 8 ++ v.extractLsb' 8 8 ++ v.extractLsb' 0 8 = v := by
  ext j hj
  simp only [BitVec.getElem_append, BitVec.getElem_extractLsb']
  repeat' split
  all_goals
    rw [← BitVec.getLsbD_eq_getElem hj]
    congr 1
    omega

theorem getElem_lanes (m : Memory) {i : Nat} (h : i < 25) : m.lanes[i] = m.lane i := by
  unfold Memory.lanes
  exact Vector.getElem_ofFn h

/-- SetLane, then Lane (R21). -/
@[simp] theorem Memory.lanes_ofLanes (a : Lanes) : (Memory.ofLanes a).lanes = a := by
  apply Vector.ext
  intro i hi
  rw [getElem_lanes _ hi]
  have hread : ∀ k, k < 8 → (Memory.ofLanes a).read (8 * i + k) = a[i].extractLsb' (8 * k) 8 := by
    intro k hk
    rw [Memory.read_ofLanes, if_pos (show 8 * i + k < Config.stateBytes by simp only [Config.stateBytes]; omega)]
    unfold lanesByte
    rw [show (8 * i + k) / 8 = i by omega, show (8 * i + k) % 8 = k by omega, Vector.getElem?_eq_getElem hi]
    rfl
  unfold Memory.lane
  rw [hread 7 (by omega), hread 6 (by omega), hread 5 (by omega), hread 4 (by omega), hread 3 (by omega),
    hread 2 (by omega), hread 1 (by omega), show 8 * i = 8 * i + 0 by omega, hread 0 (by omega)]
  exact lane_of_bytes a[i]

/-- Lane, then SetLane, of an array in canonical form. -/
theorem Memory.ofLanes_lanes {m : Memory} (hm : m.wf = true) : Memory.ofLanes m.lanes = m := by
  apply Memory.ext_read (Memory.ofLanes_wf _) hm
  intro a
  rw [Memory.read_ofLanes]
  split
  · rename_i h
    have hi : a / 8 < 25 := by simp only [Config.stateBytes] at h; omega
    unfold lanesByte
    rw [Vector.getElem?_eq_getElem hi, Option.getD_some, getElem_lanes m hi, Memory.lane_byte m _ (by omega)]
    congr 1
    omega
  · rename_i h
    exact (Memory.read_outside hm (by omega)).symm

/-- Lanes with the same eight bytes are equal. -/
theorem lane_ext_bytes {v w : Lane} (h : ∀ k < 8, v.extractLsb' (8 * k) 8 = w.extractLsb' (8 * k) 8) : v = w := by
  rw [← lane_of_bytes v, ← lane_of_bytes w]
  have h0 := h 0 (by omega); have h1 := h 1 (by omega); have h2 := h 2 (by omega); have h3 := h 3 (by omega)
  have h4 := h 4 (by omega); have h5 := h 5 (by omega); have h6 := h 6 (by omega); have h7 := h 7 (by omega)
  simp only [Nat.reduceMul] at h0 h1 h2 h3 h4 h5 h6 h7
  rw [h0, h1, h2, h3, h4, h5, h6, h7]

/-- A byte shifted into byte lane c has that byte there and 0 elsewhere. -/
theorem byte_of_shifted (b : Byte) {c k : Nat} (hk : k < 8) :
    ((b.setWidth 64 <<< (8 * c) : Lane)).extractLsb' (8 * k) 8 = if k = c then b else 0 := by
  apply BitVec.eq_of_getLsbD_eq
  intro j hj
  rw [BitVec.getLsbD_extractLsb', BitVec.getLsbD_shiftLeft, BitVec.getLsbD_setWidth]
  split
  · subst c
    simp [hj, show 8 * k + j < 64 by omega, show 8 * k + j - 8 * k = j by omega, show j < 64 by omega]
  · rcases Nat.lt_or_gt_of_ne ‹_› with h | h
    · simp; omega
    · have : b.getLsbD (8 * k + j - 8 * c) = false := BitVec.getLsbD_of_ge _ _ (by omega)
      simp [this]

/-- The byte XOR of the rate window is the lane XOR of the datapath (R2, R21). -/
theorem lanes_write_xor {m : Memory} (hm : m.wf = true) {a : Nat} (ha : a < 200) (b : Byte) :
    (m.write a (m.read a ^^^ b)).lanes = xorLaneByte m.lanes a b := by
  have hi : a / 8 < 25 := by omega
  unfold xorLaneByte
  rw [dif_pos hi]
  apply Vector.ext
  intro i hi'
  rw [getElem_lanes _ hi', Vector.getElem_set]
  have hbyte : ∀ k < 8, (m.write a (m.read a ^^^ b)).read (8 * i + k) = if 8 * i + k = a then m.read (8 * i + k) ^^^ b else m.read (8 * i + k) := by
    intro k _
    split
    · rename_i h; rw [h]; exact Memory.read_write_same hm _ _
    · rename_i h; exact Memory.read_write_other _ h
  split
  · rename_i h
    subst h
    rw [getElem_lanes _ hi]
    apply lane_ext_bytes
    intro k hk
    rw [Memory.lane_byte _ _ hk, hbyte k hk, BitVec.extractLsb'_xor, Memory.lane_byte _ _ hk, byte_of_shifted b hk]
    by_cases hka : k = a % 8
    · rw [if_pos hka, if_pos (by omega)]
    · rw [if_neg hka, if_neg (by omega)]; simp
  · rename_i h
    rw [getElem_lanes _ hi']
    apply lane_ext_bytes
    intro k hk
    rw [Memory.lane_byte _ _ hk, hbyte k hk, if_neg (by omega), Memory.lane_byte _ _ hk]
/-- A lane of an array built by coordinates. -/
@[simp] theorem laneAt_lanesOfFn (f : Nat → Nat → Lane) (x y : Nat) : laneAt (lanesOfFn f) x y = f (x % 5) (y % 5) := by
  unfold laneAt lanesOfFn
  rw [Vector.getElem_ofFn]
  simp only
  congr 1 <;> omega

/-- Arrays with equal lanes (x, y) are equal. -/
theorem lanes_ext {a b : Lanes} (h : ∀ x < 5, ∀ y < 5, laneAt a x y = laneAt b x y) : a = b := by
  apply Vector.ext
  intro i hi
  have := h (i % 5) (by omega) (i / 5) (by omega)
  unfold laneAt at this
  simpa only [show i % 5 % 5 + 5 * (i / 5 % 5) = i by omega] using this

/-- Rounds in two pieces (R109). -/
theorem roundsFrom_add (m n : Nat) : ∀ (ir : Nat) (a : Lanes),
    roundsFrom ir (m + n) a = roundsFrom (ir + m) n (roundsFrom ir m a) := by
  induction m with
  | zero => intro ir a; simp [roundsFrom]
  | succ m ih =>
    intro ir a
    rw [show m + 1 + n = (m + n) + 1 by omega]
    simp only [roundsFrom]
    rw [ih, show ir + 1 + m = ir + (m + 1) by omega]

/-- The permutation is its 24 rounds (R100). -/
theorem keccakF_eq (a : Lanes) : keccakF a = roundsFrom 0 24 a := by
  unfold keccakF
  rfl

end Sys2Proof.Machine
end

