-- ==== Sys2Proof/Laws/Ops.lean ====
section
/-! SUPPORT. One lemma for each shared operation: when it succeeds and what it then gives, and what must have held
if it succeeded. -/

namespace Sys2Proof.Machine

/-! ### Bytes of S -/

theorem readByte_ok {a : Nat} {s : State} (h : a < 200) : readByte a s = .ok (s.mem.read a) := if_pos h

theorem xorByte_ok {a : Nat} {v : Byte} {s : State} (h : a < 200) :
    xorByte a v s = .ok (setMem (s.mem.write a (s.mem.read a ^^^ v)) s) := if_pos h

theorem xorByte_cases {a : Nat} {v : Byte} {s t : State} (h : xorByte a v s = .ok t) :
    a < 200 ∧ t = setMem (s.mem.write a (s.mem.read a ^^^ v)) s := by
  unfold xorByte at h
  split at h
  · rename_i ha
    exact ⟨ha, by injection h with h; exact h.symm⟩
  · cases h

/-! ### The cursor -/

theorem absorbCursor_ok {b : Byte} {s : State} (h : s.offset.toNat < 200) :
    absorbCursor b s =
      .ok (setOffset (s.offset + 1) (setMem (s.mem.write s.offset.toNat (s.mem.read s.offset.toNat ^^^ b)) s)) := by
  unfold absorbCursor
  rw [xorByte_ok h]
  rfl

theorem absorbCursor_cases {b : Byte} {s t : State} (h : absorbCursor b s = .ok t) :
    s.offset.toNat < 200 ∧
      t = setOffset (s.offset + 1) (setMem (s.mem.write s.offset.toNat (s.mem.read s.offset.toNat ^^^ b)) s) := by
  by_cases ha : s.offset.toNat < 200
  · rw [absorbCursor_ok ha] at h
    injection h with h
    exact ⟨ha, h.symm⟩
  · unfold absorbCursor xorByte at h
    rw [if_neg ha] at h
    cases h

theorem readCursor_ok {s : State} (h : s.offset.toNat < 200) :
    readCursor s = .ok (setOffset (s.offset + 1) s, s.mem.read s.offset.toNat) := by
  unfold readCursor
  rw [readByte_ok h]

theorem readCursor_cases {s : State} {r : State × Byte} (h : readCursor s = .ok r) :
    s.offset.toNat < 200 ∧ r = (setOffset (s.offset + 1) s, s.mem.read s.offset.toNat) := by
  by_cases ha : s.offset.toNat < 200
  · rw [readCursor_ok ha] at h
    injection h with h
    exact ⟨ha, h.symm⟩
  · unfold readCursor readByte at h
    rw [if_neg ha] at h
    cases h

/-- The block boundary as numbers. -/
theorem atBoundary_iff {s : State} : atBoundary s = true ↔ s.offset = s.rate := by simp [atBoundary]

/-! ### ABSORB -/

/-- One turn of the loop inside the rate window (R143). -/
theorem absorbByte_ok {b : Byte} {s : State} (h : s.offset.toNat < 200) :
    absorbByte b s =
      let t := setOffset (s.offset + 1) (setMem (s.mem.write s.offset.toNat (s.mem.read s.offset.toNat ^^^ b)) s)
      .ok (if s.offset + 1 = s.rate then permuteBlock t else t) := by
  unfold absorbByte
  rw [absorbCursor_ok h]
  simp [atBoundary]

theorem absorbByte_cases {b : Byte} {s t : State} (h : absorbByte b s = .ok t) :
    s.offset.toNat < 200 ∧
      t = (let u := setOffset (s.offset + 1) (setMem (s.mem.write s.offset.toNat (s.mem.read s.offset.toNat ^^^ b)) s)
        if s.offset + 1 = s.rate then permuteBlock u else u) := by
  by_cases ha : s.offset.toNat < 200
  · rw [absorbByte_ok ha] at h
    injection h with h
    exact ⟨ha, h.symm⟩
  · unfold absorbByte absorbCursor xorByte at h
    rw [if_neg ha] at h
    cases h

theorem absorbBytes_append (bs cs : List Byte) : ∀ s : State,
    absorbBytes (bs ++ cs) s =
      match absorbBytes bs s with
      | .ok t => absorbBytes cs t
      | .error f => .error f := by
  induction bs with
  | nil => intro s; rfl
  | cons b bs ih =>
    intro s
    simp only [List.cons_append, absorbBytes]
    cases absorbByte b s with
    | ok t => exact ih t
    | error f => rfl

/-! ### FINALIZE -/

/-- The address of the last byte of the rate window (R144). -/
theorem lastRateByte_eq {s : State} (h : 1 ≤ s.rate.toNat) : lastRateByte s = s.rate.toNat - 1 := by
  have := s.rate.isLt
  have one : (1 : Byte).toNat = 1 := rfl
  simp only [lastRateByte, BitVec.toNat_sub, one]
  omega

/-- The padding inside the rate window (R144). -/
theorem padBlock_ok {s : State} (ho : s.offset.toNat < 200) (hr : 1 ≤ s.rate.toNat) (hr' : s.rate.toNat ≤ 200) :
    padBlock s =
      let m := s.mem.write s.offset.toNat (s.mem.read s.offset.toNat ^^^ s.delim)
      .ok (setMem (m.write (s.rate.toNat - 1) (m.read (s.rate.toNat - 1) ^^^ 0x80)) (setMem m s)) := by
  unfold padBlock
  rw [xorByte_ok ho]
  simp only
  rw [lastRateByte_eq (by simpa using hr), xorByte_ok (by simp; omega)]
  simp

theorem padBlock_cases {s t : State} (h : padBlock s = .ok t) : ∃ m, t = setMem m s ∧ (s.mem.wf = true → m.wf = true) := by
  unfold padBlock at h
  split at h
  · rename_i u hu
    obtain ⟨ha, rfl⟩ := xorByte_cases hu
    obtain ⟨hb, rfl⟩ := xorByte_cases h
    exact ⟨_, rfl, fun hw => Memory.write_wf hb (Memory.write_wf ha hw)⟩
  · cases h

/-! ### SQUEEZE -/

theorem squeezeByte_ok {s : State} (h : (if s.offset = s.rate then 0 else s.offset.toNat) < 200) :
    squeezeByte s =
      let t := if s.offset = s.rate then permuteBlock s else s
      .ok (setOffset (t.offset + 1) t, t.mem.read t.offset.toNat) := by
  unfold squeezeByte
  by_cases hb : s.offset = s.rate
  · rw [if_pos (atBoundary_iff.mpr hb), if_pos hb, readCursor_ok (by simp)]
  · rw [if_neg (by simpa [atBoundary] using hb), if_neg hb]
    rw [if_neg hb] at h
    exact readCursor_ok h

theorem squeezeByte_cases {s : State} {r : State × Byte} (h : squeezeByte s = .ok r) :
    r = (let t := if s.offset = s.rate then permuteBlock s else s
      (setOffset (t.offset + 1) t, t.mem.read t.offset.toNat)) := by
  unfold squeezeByte at h
  obtain ⟨_, rfl⟩ := readCursor_cases h
  simp only [atBoundary, beq_iff_eq]

/-! ### Gates -/

theorem faultGate_fault {s : State} {go : Host.Outcome State Fault Refusal} (h : s.mode = .fault) :
    faultGate s go = .next (respond 0 s) := if_pos h

theorem faultGate_other {s : State} {go : Host.Outcome State Fault Refusal} (h : s.mode ≠ .fault) : faultGate s go = go :=
  if_neg h

@[simp] theorem checked_some (c : Cause) (s : State) (go : Host.Outcome State Fault Refusal) :
    checked (some c) s go = .next (raiseFault c s) := rfl

@[simp] theorem checked_none (s : State) (go : Host.Outcome State Fault Refusal) : checked none s go = go := rfl

/-- The rate check as numbers (R142). -/
theorem legalRate_iff {rate : Byte} : legalRate rate = true ↔ 1 ≤ rate.toNat ∧ rate.toNat ≤ 199 := by
  simp [legalRate]

/-! ### What each command can do -/

/-- INIT answers a next state, one of three. -/
theorem execInit_cases {rate delim : Byte} {s t : State} (h : execInit rate delim s = .next t) :
    (s.mode = .fault ∧ t = respond 0 s) ∨
    (s.mode ≠ .fault ∧ legalRate rate = false ∧ t = raiseFault .invalidRate s) ∨
    (s.mode ≠ .fault ∧ legalRate rate = true ∧ t = respond 0 (initialise rate delim s)) := by
  unfold execInit at h
  by_cases hf : s.mode = .fault
  · rw [faultGate_fault hf] at h
    injection h with h
    exact .inl ⟨hf, h.symm⟩
  · rw [faultGate_other hf] at h
    cases hr : legalRate rate <;> rw [hr] at h <;> simp only [Bool.false_eq_true, if_true, if_false] at h <;>
      injection h with h
    · exact .inr (.inl ⟨hf, rfl, h.symm⟩)
    · exact .inr (.inr ⟨hf, rfl, h.symm⟩)

/-- If an ABSORB answers a next state, it is one of three. -/
theorem absorbCommand_cases {bs : List Byte} {s t : State} (h : absorbCommand bs s = .next t) :
    (s.mode = .fault ∧ t = respond 0 s) ∨
    (∃ c, absorbCheck s.mode = some c ∧ s.mode ≠ .fault ∧ s.mode ≠ .absorbing ∧ t = raiseFault c s) ∨
    (s.mode = .absorbing ∧ ∃ u, absorbBytes bs s = .ok u ∧ t = respond 0 u) := by
  unfold absorbCommand at h
  cases hm : s.mode <;> simp only [hm, faultGate, absorbCheck, checked_some, checked_none, reduceCtorEq, if_false, if_true] at h
  · injection h with h
    exact .inr (.inl ⟨_, rfl, by simp, by simp, h.symm⟩)
  · refine .inr (.inr ⟨rfl, ?_⟩)
    split at h
    · rename_i u hu
      injection h with h
      exact ⟨u, hu, h.symm⟩
    · cases h
  · injection h with h
    exact .inr (.inl ⟨_, rfl, by simp, by simp, h.symm⟩)
  · injection h with h
    exact .inl ⟨rfl, h.symm⟩

/-- If FINALIZE answers a next state, it is one of three. -/
theorem execFinalize_cases {s t : State} (h : execFinalize s = .next t) :
    (s.mode = .fault ∧ t = respond 0 s) ∨
    (∃ c, finalizeCheck s.mode = some c ∧ s.mode ≠ .fault ∧ s.mode ≠ .absorbing ∧ t = raiseFault c s) ∨
    (s.mode = .absorbing ∧ ∃ u, padBlock s = .ok u ∧ t = respond 0 (setMode .squeezing (permuteBlock u))) := by
  unfold execFinalize at h
  cases hm : s.mode <;> simp only [hm, faultGate, finalizeCheck, checked_some, checked_none, reduceCtorEq, if_false, if_true] at h
  · injection h with h
    exact .inr (.inl ⟨_, rfl, by simp, by simp, h.symm⟩)
  · refine .inr (.inr ⟨rfl, ?_⟩)
    split at h
    · rename_i u hu
      injection h with h
      exact ⟨u, hu, h.symm⟩
    · cases h
  · injection h with h
    exact .inr (.inl ⟨_, rfl, by simp, by simp, h.symm⟩)
  · injection h with h
    exact .inl ⟨rfl, h.symm⟩

/-- If a SQUEEZE answers a next state, it is one of three. -/
theorem squeezeCommand_cases {n : Nat} {s t : State} (h : squeezeCommand n s = .next t) :
    (s.mode = .fault ∧ t = respond 0 s) ∨
    (∃ c, squeezeCheck s.mode = some c ∧ s.mode ≠ .fault ∧ s.mode ≠ .squeezing ∧ t = raiseFault c s) ∨
    (s.mode = .squeezing ∧ ∃ u out, squeezeBytes n s = .ok (u, out) ∧ t = respond (packBytes out) u) := by
  unfold squeezeCommand at h
  cases hm : s.mode <;> simp only [hm, faultGate, squeezeCheck, checked_some, checked_none, reduceCtorEq, if_false, if_true] at h
  · injection h with h
    exact .inr (.inl ⟨_, rfl, by simp, by simp, h.symm⟩)
  · injection h with h
    exact .inr (.inl ⟨_, rfl, by simp, by simp, h.symm⟩)
  · refine .inr (.inr ⟨rfl, ?_⟩)
    split at h
    · rename_i u out hu
      injection h with h
      exact ⟨u, out, hu, h.symm⟩
    · cases h
  · injection h with h
    exact .inl ⟨rfl, h.symm⟩

end Sys2Proof.Machine
end

