-- ==== Sys2Proof/Laws/Frames.lean ====
section
/-! SUPPORT. What the loops of ABSORB and SQUEEZE and the padding leave alone, in any state. -/

namespace Sys2Proof.Machine

/-- From `s` to `t`, nothing but S, the working register and OFFSET changed. -/
def SpongeOnly (s t : State) : Prop :=
  t.rate = s.rate ∧ t.delim = s.delim ∧ t.mode = s.mode ∧ t.fcode = s.fcode ∧ t.rcIdx = s.rcIdx ∧ t.flight = s.flight ∧
    t.rspPending = s.rspPending ∧ t.rspReg = s.rspReg ∧ t.rstSampled = s.rstSampled ∧ t.offer = s.offer ∧
    t.inputs = s.inputs

@[refl] theorem SpongeOnly.refl (s : State) : SpongeOnly s s := by simp [SpongeOnly]

theorem SpongeOnly.trans {s t u : State} (h : SpongeOnly s t) (k : SpongeOnly t u) : SpongeOnly s u := by
  simp_all [SpongeOnly]

theorem absorbByte_spongeOnly {b : Byte} {s t : State} (h : absorbByte b s = .ok t) : SpongeOnly s t := by
  obtain ⟨_, rfl⟩ := absorbByte_cases h
  simp only
  split <;> simp [SpongeOnly]

theorem absorbBytes_spongeOnly : ∀ {bs : List Byte} {s t : State}, absorbBytes bs s = .ok t → SpongeOnly s t
  | [], s, t, h => by
    simp only [absorbBytes] at h
    injection h with h
    subst h
    exact .refl s
  | b :: bs, s, t, h => by
    simp only [absorbBytes] at h
    split at h
    · rename_i u hu
      exact (absorbByte_spongeOnly hu).trans (absorbBytes_spongeOnly h)
    · cases h

theorem squeezeByte_spongeOnly {s : State} {r : State × Byte} (h : squeezeByte s = .ok r) : SpongeOnly s r.1 := by
  rw [squeezeByte_cases h]
  simp only
  split <;> simp [SpongeOnly]

theorem squeezeBytes_spongeOnly : ∀ {n : Nat} {s t : State} {out : List Byte}, squeezeBytes n s = .ok (t, out) → SpongeOnly s t
  | 0, s, t, out, h => by
    simp only [squeezeBytes, Except.ok.injEq, Prod.mk.injEq] at h
    rw [← h.1]
  | n + 1, s, t, out, h => by
    simp only [squeezeBytes] at h
    split at h
    · cases h
    · rename_i u b hu
      split at h
      · rename_i v bs hv
        simp only [Except.ok.injEq, Prod.mk.injEq] at h
        rw [← h.1]
        exact (squeezeByte_spongeOnly hu).trans (squeezeBytes_spongeOnly hv)
      · cases h

theorem padBlock_spongeOnly {s t : State} (h : padBlock s = .ok t) : SpongeOnly s t ∧ t.offset = s.offset := by
  obtain ⟨m, rfl, _⟩ := padBlock_cases h
  simp [SpongeOnly]

/-- Advancing the cursor inside S does not wrap. -/
theorem toNat_advance {o : Byte} (h : o.toNat < 200) : (o + 1).toNat = o.toNat + 1 := by
  have one : (1 : Byte).toNat = 1 := rfl
  rw [BitVec.toNat_add, one]
  omega

/-- An ABSORB loop that does not permute writes only the bytes it passes. -/
theorem absorbBytes_frame : ∀ {bs : List Byte} {s t : State}, absorbBytes bs s = .ok t →
    absorbPerms s.rate bs.length s.offset = 0 →
    (∀ a, (∀ k < bs.length, a ≠ s.offset.toNat + k) → t.mem.read a = s.mem.read a) ∧
      t.offset.toNat = s.offset.toNat + bs.length
  | [], s, t, h, _ => by
    simp only [absorbBytes] at h
    injection h with h
    subst h
    simp
  | b :: bs, s, t, h, hp => by
    simp only [absorbBytes] at h
    simp only [List.length_cons, absorbPerms] at hp
    split at hp
    · omega
    · rename_i hne
      split at h
      · rename_i u hu
        obtain ⟨ha, rfl⟩ := absorbByte_cases hu
        simp only [hne, if_false] at h
        have ih := absorbBytes_frame h (by simpa using hp)
        simp only [setOffset_offset, setOffset_mem, setMem_mem, toNat_advance ha] at ih
        refine ⟨fun a hk => ?_, by rw [ih.2, List.length_cons]; omega⟩
        rw [ih.1 a (fun k hk' => by have := hk (k + 1) (by simpa using hk'); omega)]
        exact Memory.read_write_other _ (by have := hk 0 (by simp); omega)
      · cases h

/-- A SQUEEZE loop that does not permute writes nothing. -/
theorem squeezeBytes_frame : ∀ {n : Nat} {s t : State} {out : List Byte}, squeezeBytes n s = .ok (t, out) →
    squeezePerms s.rate n s.offset = 0 → t.mem = s.mem ∧ t.work = s.work
  | 0, s, t, out, h, _ => by
    simp only [squeezeBytes, Except.ok.injEq, Prod.mk.injEq] at h
    rw [← h.1]
    exact ⟨rfl, rfl⟩
  | n + 1, s, t, out, h, hp => by
    simp only [squeezeBytes] at h
    simp only [squeezePerms] at hp
    split at hp
    · omega
    · rename_i hne
      split at h
      · cases h
      · rename_i u b hu
        split at h
        · rename_i v bs hv
          have hr := squeezeByte_cases hu
          simp only [hne, if_false, Prod.mk.injEq] at hr
          simp only [Except.ok.injEq, Prod.mk.injEq] at h
          rw [← h.1]
          rw [hr.1] at hv
          simpa using squeezeBytes_frame hv (by simpa using hp)
        · cases h

end Sys2Proof.Machine
end

