-- ==== Sys2Proof/Laws/PerInstr.lean ====
section
/-! SUPPORT. A fact proved instruction by instruction: the header fields of each command's word (30_encoding.md R74,
R75, R77, R78) are those of its row of spec/opcode_table.json. -/

namespace Sys2Proof.Laws.HeaderFields

/-- N1 is the byte count less one, 0 for a command without a count (R77, R78); Z2 is 0 (R80); and OP and N1 are those
of the fixed bits of the opcode-table row that bears the command's name. -/
def Statement (i : Instr) : Prop :=
  (n1Field (encode i)).toNat = (Machine.absorbOperands i).length + Machine.squeezeCount i - 1 ∧
    z2Field (encode i) = 0 ∧
    ∃ r ∈ opcodeTable, r.mnemonic = i.mnemonic ∧ opField r.pattern = opField (encode i) ∧
      n1Field r.pattern = n1Field (encode i)

theorem status : Statement .status := ⟨by decide, by decide, ⟨_, 0x00000000, 0xFFFFFFFF⟩, by decide, rfl, by decide, by decide⟩

theorem init (rate delim : Byte) : Statement (.init rate delim) :=
  ⟨by simp [encode, Machine.absorbOperands, Machine.squeezeCount], by simp [encode], ⟨_, 0x10000000, 0xFFFF0000⟩, by decide,
    rfl, by simp [encode]; decide, by simp [encode]; decide⟩

theorem absorb1 (b0 : Byte) : Statement (.absorb1 b0) :=
  ⟨by simp [encode, Machine.absorbOperands, Machine.squeezeCount], by simp [encode], ⟨_, 0x20000000, 0xFFFFFF00⟩, by decide,
    rfl, by simp [encode]; decide, by simp [encode]; decide⟩

theorem absorb2 (b0 b1 : Byte) : Statement (.absorb2 b0 b1) :=
  ⟨by simp [encode, Machine.absorbOperands, Machine.squeezeCount], by simp [encode], ⟨_, 0x21000000, 0xFFFF0000⟩, by decide,
    rfl, by simp [encode]; decide, by simp [encode]; decide⟩

theorem absorb3 (b0 b1 b2 : Byte) : Statement (.absorb3 b0 b1 b2) :=
  ⟨by simp [encode, Machine.absorbOperands, Machine.squeezeCount], by simp [encode], ⟨_, 0x22000000, 0xFF000000⟩, by decide,
    rfl, by simp [encode]; decide, by simp [encode]; decide⟩

theorem finalize : Statement .finalize :=
  ⟨by decide, by decide, ⟨_, 0x30000000, 0xFFFFFFFF⟩, by decide, rfl, by decide, by decide⟩

theorem squeeze1 : Statement .squeeze1 :=
  ⟨by decide, by decide, ⟨_, 0x40000000, 0xFFFFFFFF⟩, by decide, rfl, by decide, by decide⟩

theorem squeeze2 : Statement .squeeze2 :=
  ⟨by decide, by decide, ⟨_, 0x41000000, 0xFFFFFFFF⟩, by decide, rfl, by decide, by decide⟩

theorem squeeze3 : Statement .squeeze3 :=
  ⟨by decide, by decide, ⟨_, 0x42000000, 0xFFFFFFFF⟩, by decide, rfl, by decide, by decide⟩

end Sys2Proof.Laws.HeaderFields
end

