-- ==== Sys2Proof/Laws/Sponge.lean ====
section
/-! SUPPORT. The loops of ABSORB and SQUEEZE and the padding of FINALIZE against the reference, and what keeps the
invariant between commands. -/

namespace Sys2Proof.Machine

/-! ### ABSORB -/

/-- What R143's loop needs and keeps (R32, 2). -/
abbrev AbsorbReady (s : State) : Prop := s.mem.wf = true ∧ s.rate.toNat ≤ 199 ∧ s.offset.toNat < s.rate.toNat

/-- The block boundary after a byte, as numbers. -/
theorem eq_rate_iff {o r : Byte} (h : o.toNat < 200) : o + 1 = r ↔ o.toNat + 1 = r.toNat := by
  rw [BitVec.toNat_eq, toNat_advance h]

/-- One turn of R143's loop is one byte of the reference. -/
theorem absorbByte_ready {b : Byte} {s : State} (h : AbsorbReady s) :
    ∃ t, absorbByte b s = .ok t ∧ AbsorbReady t ∧ t.work = t.mem.lanes ∧
      (t.mem.lanes, t.offset.toNat) = absorbReference s.rate.toNat (s.mem.lanes, s.offset.toNat) b := by
  obtain ⟨hw, hr, ho⟩ := h
  have ho2 : s.offset.toNat < 200 := by omega
  refine ⟨_, absorbByte_ok ho2, ?_⟩
  simp only [absorbReference, eq_rate_iff ho2]
  by_cases hb : s.offset.toNat + 1 = s.rate.toNat
  · simp only [hb, if_true]
    simp [AbsorbReady, lanes_write_xor hw ho2, hr]
    omega
  · simp only [hb, if_false]
    simp [AbsorbReady, lanes_write_xor hw ho2, hr, Memory.write_wf ho2 hw]
    omega

/-- R143's loop completes and is the reference byte by byte. -/
theorem absorbBytes_ready : ∀ {bs : List Byte} {s : State}, AbsorbReady s →
    ∃ t, absorbBytes bs s = .ok t ∧ AbsorbReady t ∧ (bs ≠ [] → t.work = t.mem.lanes) ∧
      (s.work = s.mem.lanes → t.work = t.mem.lanes) ∧
      (t.mem.lanes, t.offset.toNat) = bs.foldl (absorbReference s.rate.toNat) (s.mem.lanes, s.offset.toNat)
  | [], s, h => ⟨s, rfl, h, by simp, id, rfl⟩
  | b :: bs, s, h => by
    obtain ⟨t, ht, hr, hw, he⟩ := absorbByte_ready (b := b) h
    obtain ⟨u, hu, hr', hw', hw2, he'⟩ := absorbBytes_ready (bs := bs) hr
    refine ⟨u, by simp [absorbBytes, ht, hu], hr', fun _ => hw2 hw, fun _ => hw2 hw, ?_⟩
    rw [List.foldl_cons, ← he, he', (absorbByte_spongeOnly ht).1]

/-! ### SQUEEZE -/

/-- What R145's loop needs and keeps (R32, 3). -/
abbrev SqueezeReady (s : State) : Prop :=
  s.mem.wf = true ∧ 1 ≤ s.rate.toNat ∧ s.rate.toNat ≤ 199 ∧ s.offset.toNat ≤ s.rate.toNat

/-- One turn of R145's loop. -/
theorem squeezeByte_ready {s : State} (h : SqueezeReady s) :
    ∃ t b, squeezeByte s = .ok (t, b) ∧ SqueezeReady t ∧ (s.work = s.mem.lanes → t.work = t.mem.lanes) ∧
      t.mem.lanes = (if s.offset = s.rate then keccakF s.mem.lanes else s.mem.lanes) ∧
      b = lanesByte t.mem.lanes (if s.offset = s.rate then 0 else s.offset.toNat) ∧
      t.offset.toNat = (if s.offset = s.rate then 0 else s.offset.toNat) + 1 := by
  obtain ⟨hw, hr1, hr, ho⟩ := h
  have hread : ∀ m : Memory, m.wf = true → ∀ a < 200, m.read a = lanesByte m.lanes a := by
    intro m hm a ha
    conv_lhs => rw [← Memory.ofLanes_lanes hm, Memory.read_ofLanes]
    simp [ha]
  by_cases hb : s.offset = s.rate
  · refine ⟨_, _, squeezeByte_ok (by rw [if_pos hb]; omega), ?_⟩
    simp only [hb, if_true]
    simp [SqueezeReady, hr1, hr]
    rw [hread _ (by simp) 0 (by omega)]; simp
  · have : s.offset.toNat < s.rate.toNat := by
      have : s.offset.toNat ≠ s.rate.toNat := fun h => hb (BitVec.eq_of_toNat_eq h)
      omega
    refine ⟨_, _, squeezeByte_ok (by rw [if_neg hb]; omega), ?_⟩
    simp only [hb, if_false]
    have := toNat_advance (o := s.offset) (by omega)
    refine ⟨⟨hw, hr1, hr, ?_⟩, id, rfl, hread _ hw _ (by omega), this⟩
    simp only [setOffset_offset, setOffset_rate, this]; omega

/-! ### The output stream (R147) -/

theorem keccakPower_succ (k : Nat) (a : Lanes) : keccakPower (k+1) a = keccakPower k (keccakF a) := by
  induction k with
  | zero => rfl
  | succ k ih => simp only [keccakPower] at *; rw [ih]

theorem keccakPower_add (k l : Nat) (a : Lanes) : keccakPower (k+l) a = keccakPower k (keccakPower l a) := by
  induction k with
  | zero => simp [keccakPower]
  | succ k ih => rw [show k+1+l = (k+l)+1 by omega]; simp only [keccakPower]; rw [ih]

/-- Byte RATE + j of the stream from one block is byte j of the stream from the next. -/
theorem squeezedByte_block {r : Nat} (hr : 1 ≤ r) (a : Lanes) (j : Nat) :
    squeezedByte r a (r + j) = squeezedByte r (keccakF a) j := by
  unfold squeezedByte
  rw [show (r + j) / r = j / r + 1 by rw [Nat.add_div_left _ hr], Nat.add_mod_left, keccakPower_succ]

/-- R145's loop completes and reads the output stream. -/
theorem squeezeBytes_ready : ∀ {n : Nat} {s : State}, SqueezeReady s →
    ∃ t out, squeezeBytes n s = .ok (t, out) ∧ SqueezeReady t ∧ (s.work = s.mem.lanes → t.work = t.mem.lanes) ∧
      out = (List.range n).map (fun k => squeezedByte s.rate.toNat s.mem.lanes (s.offset.toNat + k)) ∧
      (n ≠ 0 → t.mem.lanes = keccakPower ((s.offset.toNat + n - 1) / s.rate.toNat) s.mem.lanes ∧
        t.offset.toNat = s.offset.toNat + n - s.rate.toNat * ((s.offset.toNat + n - 1) / s.rate.toNat))
  | 0, s, h => ⟨s, [], rfl, h, id, rfl, by simp⟩
  | n+1, s, h => by
    obtain ⟨t, b, ht, hr, hwk, hm, hb, ho⟩ := squeezeByte_ready h
    obtain ⟨u, out, hu, hr', hwk', hout, hn⟩ := squeezeBytes_ready (n := n) hr
    have hrate : t.rate = s.rate := (squeezeByte_spongeOnly ht).1
    obtain ⟨hw, h1, h199, hor⟩ := h
    refine ⟨u, b :: out, by simp [squeezeBytes, ht, hu], hr', fun h => hwk' (hwk h), ?_, ?_⟩
    · rw [List.range_succ_eq_map, List.map_cons, List.map_map]
      by_cases hbd : s.offset = s.rate
      · simp only [hbd, if_true] at *
        congr 1
        · have := squeezedByte_block h1 s.mem.lanes 0
          rw [this, hb, hm]; simp [squeezedByte, keccakPower]
        · rw [hout]
          apply List.map_congr_left
          intro k _
          simp only [Function.comp]
          rw [squeezedByte_block h1, hm, ho, hrate]; congr 1; omega
      · have hlt : s.offset.toNat < s.rate.toNat := by
          have : s.offset.toNat ≠ s.rate.toNat := fun h => hbd (BitVec.eq_of_toNat_eq h)
          omega
        simp only [hbd, if_false] at *
        congr 1
        · rw [hb, hm]; simp [squeezedByte, keccakPower, Nat.div_eq_of_lt hlt, Nat.mod_eq_of_lt hlt]
        · rw [hout]
          apply List.map_congr_left
          intro k _
          simp only [Function.comp]
          rw [hm, ho, hrate]; congr 1; omega
    · intro _
      by_cases hbd : s.offset = s.rate
      · simp only [hbd, if_true] at *
        have e : s.rate.toNat + (n+1) - 1 = s.rate.toNat + n := by omega
        rw [e, Nat.add_div_left _ h1, keccakPower_succ]
        cases n with
        | zero =>
          simp only [squeezeBytes] at hu
          injection hu with hu; injection hu with hu _; subst hu
          rw [hm, ho, Nat.div_eq_of_lt (by omega)]
          simp [keccakPower]
        | succ n =>
          have := hn (by omega)
          rw [this.1, this.2, hm, ho, hrate]
          have e : 0 + 1 + (n+1) - 1 = n+1 := by omega
          rw [e]; refine ⟨rfl, ?_⟩
          rw [Nat.mul_add]; omega
      · have hlt : s.offset.toNat < s.rate.toNat := by
          have : s.offset.toNat ≠ s.rate.toNat := fun h => hbd (BitVec.eq_of_toNat_eq h)
          omega
        simp only [hbd, if_false] at *
        cases n with
        | zero =>
          simp only [squeezeBytes] at hu
          injection hu with hu; injection hu with hu _; subst hu
          rw [hm, ho, Nat.div_eq_of_lt (by omega)]
          simp [keccakPower]
        | succ n =>
          have := hn (by omega)
          rw [this.1, this.2, hm, ho, hrate]
          have e : s.offset.toNat + 1 + (n+1) - 1 = s.offset.toNat + (n + 1 + 1) - 1 := by omega
          rw [e]; refine ⟨rfl, ?_⟩; omega

/-! ### Dispatch by family -/

/-- The fault entry as data (R181). -/
theorem raiseFault_eq (c : Cause) (s : State) : raiseFault c s = faulted c.code s := rfl

/-- Every ABSORB runs the one loop. -/
theorem exec_absorb {i : Instr} (h : absorbOperands i ≠ []) (s : State) :
    exec i s = absorbCommand (absorbOperands i) s := by
  cases i <;> first | rfl | simp [absorbOperands] at h

/-- Every SQUEEZE runs the one loop. -/
theorem exec_squeeze {i : Instr} (h : squeezeCount i ≠ 0) (s : State) :
    exec i s = squeezeCommand (squeezeCount i) s := by
  cases i <;> first | rfl | simp [squeezeCount] at h

/-! ### FINALIZE -/

/-- The padding completes inside the rate window (R144). -/
theorem padBlock_ready {s : State} (h : AbsorbReady s) :
    ∃ t, padBlock s = .ok t ∧ t.mem.wf = true ∧
      t.mem.lanes = xorLaneByte (xorLaneByte s.mem.lanes s.offset.toNat s.delim) (s.rate.toNat - 1) 0x80 ∧
      t.work = t.mem.lanes := by
  obtain ⟨hw, hr, ho⟩ := h
  refine ⟨_, padBlock_ok (by omega) (by omega) (by omega), ?_⟩
  have h1 : (s.mem.write s.offset.toNat (s.mem.read s.offset.toNat ^^^ s.delim)).wf = true :=
    Memory.write_wf (by simp only [Config.stateBytes]; omega) hw
  simp only [setMem_mem, setMem_work]
  refine ⟨Memory.write_wf (by simp only [Config.stateBytes]; omega) h1, ?_, trivial⟩
  rw [lanes_write_xor h1 (by omega), lanes_write_xor hw (by omega)]

/-! ### The invariant between commands (R32) -/

theorem Cause.code_bounds (c : Cause) : 1 ≤ c.code.toNat ∧ c.code.toNat ≤ 6 := by cases c <;> decide

/-- A fault entry keeps it. -/
theorem betweenCommands_raiseFault {c : Cause} {s : State} (h : BetweenCommands s) : BetweenCommands (raiseFault c s) := by
  obtain ⟨h1, _, _, _, _, h6, h7⟩ := h
  refine ⟨h1, by simp [IdleInv], by simp [AbsorbingInv], by simp [SqueezingInv], ⟨by simp, fun _ => ?_⟩, h6, h7⟩
  simpa using c.code_bounds

/-- INIT's writes establish it. -/
theorem betweenCommands_initialise {rate delim : Byte} {s : State} (h : BetweenCommands s) (hs : s.mode ≠ .fault)
    (hr : 1 ≤ rate.toNat ∧ rate.toNat ≤ 199) : BetweenCommands (initialise rate delim s) := by
  obtain ⟨_, _, _, _, h5, _, h7⟩ := h
  refine ⟨by simp, by simp [IdleInv], ?_, by simp [SqueezingInv], ⟨fun _ => by simpa using h5.1 hs, by simp⟩, ?_, ?_⟩
  · intro _; simp; omega
  · simp [WindowInv]; exact hr.2
  · simp [PipelineAtRest, h7.1]

theorem betweenCommands_absorbReady {s : State} (h : BetweenCommands s) (hm : s.mode = .absorbing) : AbsorbReady s := by
  obtain ⟨h1, _, h3, _⟩ := h
  have := h3 hm
  exact ⟨h1, this.2.1, this.2.2⟩

theorem betweenCommands_squeezeReady {s : State} (h : BetweenCommands s) (hm : s.mode = .squeezing) : SqueezeReady s := by
  obtain ⟨h1, _, _, h4, _⟩ := h
  exact ⟨h1, h4 hm⟩

/-- What R143's loop leaves keeps it. -/
theorem betweenCommands_of_absorb {s t : State} (h : BetweenCommands s) (hm : s.mode = .absorbing) (ho : SpongeOnly s t)
    (hr : AbsorbReady t) (hw : t.work = t.mem.lanes) : BetweenCommands t := by
  obtain ⟨_, _, _, _, h5, _, h7⟩ := h
  simp only [SpongeOnly] at ho
  obtain ⟨r1, r2, r3⟩ := hr
  refine ⟨r1, ?_, ?_, ?_, ?_, ⟨r2, by omega⟩, ⟨by rw [ho.2.2.2.2.1]; exact h7.1, hw⟩⟩
  · intro hh; rw [ho.2.2.1, hm] at hh; cases hh
  · intro _; exact ⟨by omega, r2, r3⟩
  · intro hh; rw [ho.2.2.1, hm] at hh; cases hh
  · rw [FcodeInv, ho.2.2.1, ho.2.2.2.1]; exact h5

/-- What R145's loop leaves keeps it. -/
theorem betweenCommands_of_squeeze {s t : State} (h : BetweenCommands s) (hm : s.mode = .squeezing)
    (ho : SpongeOnly s t) (hr : SqueezeReady t) (hw : t.work = t.mem.lanes) : BetweenCommands t := by
  obtain ⟨_, _, _, _, h5, _, h7⟩ := h
  simp only [SpongeOnly] at ho
  obtain ⟨r1, r2, r3, r4⟩ := hr
  refine ⟨r1, ?_, ?_, ?_, ?_, ⟨r3, by omega⟩, ⟨by rw [ho.2.2.2.2.1]; exact h7.1, hw⟩⟩
  · intro hh; rw [ho.2.2.1, hm] at hh; cases hh
  · intro hh; rw [ho.2.2.1, hm] at hh; cases hh
  · intro _; exact ⟨r2, r3, r4⟩
  · rw [FcodeInv, ho.2.2.1, ho.2.2.2.1]; exact h5

end Sys2Proof.Machine
end

