-- ==== Sys2Proof/Tests/Slice0.lean ====
section
/-! SUPPORT. Tests with values from the spec (30_encoding.md and 95_test_vectors.md, named at each), and for each
obligation with hypotheses concrete states and operands that meet them (`witness_...`). -/

namespace Sys2Proof.Tests

set_option Elab.async false

open Sys2Proof.Machine

/-! ### Helpers -/

/-- The outcome is a next state (or result) with this property. -/
def answers {α φ ρ : Type} (o : Host.Outcome α φ ρ) (p : α → Bool) : Bool :=
  match o with
  | .next t => p t
  | .fault _ => false
  | .refused _ => false

theorem exists_of_answers {α φ ρ : Type} {o : Host.Outcome α φ ρ} {p : α → Bool} (h : answers o p = true) :
    ∃ t, o = .next t ∧ p t = true := by
  cases o with
  | next t => exact ⟨t, rfl, h⟩
  | fault f => exact absurd h (by simp [answers])
  | refused r => exact absurd h (by simp [answers])

/-- A state in this mode, S given by its nonzero bytes. -/
def sample (mode : Mode) (rate delim offset : Byte) (cells : List Host.Cell := []) : State :=
  { setMem ⟨cells⟩ State.reset with
    mode := mode, rate := rate, delim := delim, offset := offset, fcode := if mode = .fault then 4 else 0,
    rstSampled := false }

/-- IDLE, with a reset released. -/
def idle : State := sample .idle 0 0 0

/-- The first bytes of S. -/
def firstBytes (n : Nat) (s : State) : List Nat := (List.range n).map fun a => (s.mem.read a).toNat

/-- Ports at which nothing happens. -/
def quiet : Ports := { rst := false, cmdValid := false, cmdWord := 0, rspReady := false }

/-- Ports at which the host takes a response. -/
def taking : Ports := { rst := false, cmdValid := false, cmdWord := 0, rspReady := true }

/-- Ports with `rst` = 1. -/
def resetting : Ports := { rst := true, cmdValid := false, cmdWord := 0, rspReady := false }

/-! ### Decoding: words written out from the field table of R75 -/

-- 0000 0000 00000000 00000000 00000000
theorem test_decode_status : decode 0b00000000000000000000000000000000 = .ok .status := by decide

-- OP 0001, RATE 11000111, DELIM 00011111
theorem test_decode_init : decode 0b00010000000000001100011100011111 = .ok (.init 199 0x1F) := by decide

-- OP 0010, N1 00, B0 10000001
theorem test_decode_absorb1 : decode 0b00100000000000000000000010000001 = .ok (.absorb1 0x81) := by decide

-- OP 0010, N1 01, B1 00000010, B0 11111110
theorem test_decode_absorb2 : decode 0b00100001000000000000001011111110 = .ok (.absorb2 0xFE 0x02) := by decide

-- OP 0010, N1 10, B2 10000000, B1 01000000, B0 00000001
theorem test_decode_absorb3 : decode 0b00100010100000000100000000000001 = .ok (.absorb3 0x01 0x40 0x80) := by decide

-- OP 0011
theorem test_decode_finalize : decode 0b00110000000000000000000000000000 = .ok .finalize := by decide

-- OP 0100, N1 00
theorem test_decode_squeeze1 : decode 0b01000000000000000000000000000000 = .ok .squeeze1 := by decide

-- OP 0100, N1 01
theorem test_decode_squeeze2 : decode 0b01000001000000000000000000000000 = .ok .squeeze2 := by decide

-- OP 0100, N1 10
theorem test_decode_squeeze3 : decode 0b01000010000000000000000000000000 = .ok .squeeze3 := by decide

/-! ### Ill-formed words, one for each check of R80 and R81 -/

theorem smoke_reservedOpcode :
    (wellFormedWord 0x50000000 = false ∧ decode 0x50000000 = .error .reservedOpcode) ∧
      wellFormedWord 0xF0000000 = false ∧ decode 0xF0000000 = .error .reservedOpcode := by decide

theorem smoke_statusBits :
    (wellFormedWord 0x00000001 = false ∧ decode 0x00000001 = .error .statusBits) ∧
      wellFormedWord 0x08000000 = false ∧ decode 0x08000000 = .error .statusBits := by decide

theorem smoke_initBits :
    (wellFormedWord 0x10010000 = false ∧ decode 0x10010000 = .error .initBits) ∧
      wellFormedWord 0x18008806 = false ∧ decode 0x18008806 = .error .initBits := by decide

theorem smoke_absorbHighBits :
    (wellFormedWord 0x24000061 = false ∧ decode 0x24000061 = .error .absorbHighBits) ∧
      wellFormedWord 0x28000061 = false ∧ decode 0x28000061 = .error .absorbHighBits := by decide

theorem smoke_absorbCount : wellFormedWord 0x23000000 = false ∧ decode 0x23000000 = .error .absorbCount := by decide

theorem smoke_absorbUnusedBytes :
    (wellFormedWord 0x20006261 = false ∧ decode 0x20006261 = .error .absorbUnusedBytes) ∧
      wellFormedWord 0x21FF6261 = false ∧ decode 0x21FF6261 = .error .absorbUnusedBytes := by decide

theorem smoke_finalizeBits : wellFormedWord 0x30000001 = false ∧ decode 0x30000001 = .error .finalizeBits := by decide

theorem smoke_squeezeHighBits :
    wellFormedWord 0x44000000 = false ∧ decode 0x44000000 = .error .squeezeHighBits := by decide

theorem smoke_squeezeCount : wellFormedWord 0x43000000 = false ∧ decode 0x43000000 = .error .squeezeCount := by decide

theorem smoke_squeezeBits : wellFormedWord 0x40000001 = false ∧ decode 0x40000001 = .error .squeezeBits := by decide

/-! ### One command on a small state -/

-- V11: after INIT 136, 0x06 and ABSORB of three bytes
theorem test_status : answers (exec .status (sample .absorbing 136 0x06 3)) (fun t => t.rspReg == 0x01068803) = true := by
  decide +kernel

-- V11: STATUS in FAULT still reads the registers
theorem test_status_fault : answers (exec .status (sample .fault 136 0x06 0)) (fun t => t.rspReg == 0x13068800) = true := by
  decide +kernel

-- V12: the lowest legal rate, over a live sponge
theorem test_init :
    answers (exec (.init 1 0x1F) (sample .squeezing 136 0x06 9 [(5, 7)])) (fun t =>
      t.rspReg == 0x01000000 && t.rate == 1 && t.delim == 0x1F && t.offset == 0 && firstBytes 6 t == [0, 0, 0, 0, 0, 0]) =
      true := by decide +kernel

-- V12: rate 200 while ABSORBING
theorem test_init_rate_200 :
    answers (exec (.init 200 0x06) (sample .absorbing 136 0x06 1 [(0, 0x61)])) (fun t =>
      t.rspReg == 0x0B000000 && t.rate == 136 && t.offset == 1 && firstBytes 1 t == [0x61]) = true := by decide +kernel

-- V13: a second byte, rate 136
theorem test_absorb1 :
    answers (exec (.absorb1 0x62) (sample .absorbing 136 0x06 1 [(0, 0x61)])) (fun t =>
      t.rspReg == 0x01000000 && t.offset == 2 && firstBytes 3 t == [0x61, 0x62, 0]) = true := by decide +kernel

-- V13: in IDLE
theorem test_absorb1_idle : answers (exec (.absorb1 0x61) State.reset) (fun t => t.rspReg == 0x0F000000) = true := by
  decide +kernel

-- R143: XOR with what is there, and V13's end OFFSET 0 at the block boundary (rate 4)
theorem test_absorb2 :
    answers (exec (.absorb2 0x0F 0xF0) (sample .absorbing 8 0x06 2 [(2, 0xFF), (3, 0xFF)])) (fun t =>
      t.offset == 4 && firstBytes 5 t == [0, 0, 0xF0, 0x0F, 0]) = true := by decide +kernel

-- V13: in SQUEEZING
theorem test_absorb2_squeezing :
    answers (exec (.absorb2 0x61 0x62) (sample .squeezing 136 0x06 0)) (fun t => t.rspReg == 0x13000000) = true := by
  decide +kernel

-- V10 and R143: two zero bytes at rate 2 permute the zero state; 0x63 goes into the fresh block, 0xE7 ^ 0x63 = 0x84
theorem test_absorb3_across_boundary :
    answers (exec (.absorb3 0 0 0x63) (sample .absorbing 2 0x06 0)) (fun t =>
      t.rspReg == 0x01000000 && t.offset == 1 && firstBytes 4 t == [0x84, 0xDD, 0xE1, 0x40]) = true := by decide +kernel

-- V13: three bytes in a fresh block
theorem test_absorb3 :
    answers (exec (.absorb3 0x61 0x62 0x63) (sample .absorbing 136 0x06 0)) (fun t =>
      t.offset == 3 && firstBytes 4 t == [0x61, 0x62, 0x63, 0]) = true := by decide +kernel

-- E3: SHA3-256 of the empty input
theorem test_finalize :
    answers (exec .finalize (sample .absorbing 136 0x06 0)) (fun t =>
      t.rspReg == 0x02000000 && t.offset == 0 && firstBytes 4 t == [0xA7, 0xFF, 0xC6, 0xF8]) = true := by decide +kernel

-- P16: DELIM and the padding bit in one byte
theorem test_finalize_last_byte :
    answers (exec .finalize (sample .absorbing 3 0x06 2)) (fun t =>
      firstBytes 8 t == [0x7E, 0x52, 0x8B, 0x02, 0xBD, 0x12, 0x31, 0xDC]) = true := by decide +kernel

-- V15: the second of the bytes a7 ff c6
theorem test_squeeze1 :
    answers (exec .squeeze1 (sample .squeezing 136 0x06 1 [(0, 0xA7), (1, 0xFF), (2, 0xC6)])) (fun t =>
      t.rspReg == 0x020000FF && t.offset == 2) = true := by decide +kernel

-- V15: in ABSORBING
theorem test_squeeze1_absorbing :
    answers (exec .squeeze1 (sample .absorbing 136 0x06 0)) (fun t => t.rspReg == 0x1B000000) = true := by decide +kernel

-- V15: the bytes ff c6, up to the end of a block of 3: no permutation yet
theorem test_squeeze2 :
    answers (exec .squeeze2 (sample .squeezing 3 0x06 1 [(0, 0xA7), (1, 0xFF), (2, 0xC6)])) (fun t =>
      t.rspReg == 0x0200C6FF && t.offset == 3 && firstBytes 1 t == [0xA7]) = true := by decide +kernel

-- V15: in IDLE
theorem test_squeeze2_idle : answers (exec .squeeze2 State.reset) (fun t => t.rspReg == 0x0F000000) = true := by
  decide +kernel

-- V10: at the end of a block, from the zero state: the bytes e7 dd e1 of KeccakF(zero)
theorem test_squeeze3 :
    answers (exec .squeeze3 (sample .squeezing 199 0x06 199)) (fun t => t.rspReg == 0x02E1DDE7 && t.offset == 3) = true := by
  decide +kernel

/-! ### The permutation -/

/-- The zero lanes but for these. -/
def lanesWith (ls : List (Nat × Lane)) : Lanes := Vector.ofFn fun i => (ls.lookup i.val).getD 0

-- V8
theorem test_theta :
    thetaStep (lanesWith [(7, 0x20)]) =
      lanesWith [(1, 0x40), (6, 0x40), (11, 0x40), (16, 0x40), (21, 0x40), (3, 0x20), (8, 0x20), (13, 0x20), (18, 0x20),
        (23, 0x20), (7, 0x20)] := by decide +kernel

-- V4
theorem test_rho :
    rhoStep (lanesWith [(6, 1), (2, 0x8000000000000000), (1, 0x8000000000000000)]) =
      lanesWith [(6, 0x0000100000000000), (2, 0x2000000000000000), (1, 1)] := by decide +kernel

-- V5
theorem test_pi : piStep (lanesWith [(1, 1), (24, 5)]) = lanesWith [(10, 1), (4, 5)] := by decide +kernel

-- V6
theorem test_chi :
    chiStep (lanesWith [(0, 0xF0F0F0F0F0F0F0F0), (1, 0xFF00FF00FF00FF00), (2, 0xFFFF0000FFFF0000)]) =
      lanesWith [(0, 0xF00FF0F0F00FF0F0), (1, 0xFF00FF00FF00FF00), (2, 0xFFFF0000FFFF0000), (3, 0xF0F0F0F0F0F0F0F0),
        (4, 0x0F000F000F000F00)] := by decide +kernel

-- V9
theorem test_iota : iotaStep (lanesWith []) 23 = lanesWith [(0, 0x8000000080008008)] := by decide +kernel

-- V7
theorem test_two_rounds :
    keccakRound (keccakRound (lanesWith []) 0) 1 =
      lanesWith [(0, 0x8083), (1, 0x100000000000), (2, 0x8000), (3, 0x1), (4, 0x100000008000), (6, 0x200000200000),
        (8, 0x200000000000), (9, 0x200000), (10, 0x2), (11, 0x200), (13, 0x202), (15, 0x10000400), (17, 0x400),
        (18, 0x10000000), (20, 0x10000000000), (22, 0x10000000004), (24, 0x4)] := by decide +kernel

/-! ### Clock edges -/

-- 95_test_vectors.md section 7: with ROUNDS_PER_CYCLE = 24, FINALIZE takes 2 cycles
theorem test_finalize_latency :
    latency .twentyFour 0x30000000 (sample .absorbing 136 0x06 0) = 2 ∧
      answers (clockEdges .twentyFour [offerPorts 0x30000000, quiet] (sample .absorbing 136 0x06 0)) (fun t =>
        t.busy && !t.rspPending) = true ∧
      answers (clockEdges .twentyFour [offerPorts 0x30000000, quiet, quiet] (sample .absorbing 136 0x06 0)) (fun t =>
        !t.busy && rspWord false t == some 0x02000000) = true := by decide +kernel

-- section 7: ABSORB 0x61, 0x62 at rate 1, and the second SQUEEZE 3 at rate 1
theorem test_latency :
    latency .one 0x21006261 (sample .absorbing 1 0x1F 0) = 49 ∧
      latency .one 0x42000000 (sample .squeezing 1 0x1F 0) = 49 ∧
      latency .one 0x42000000 (sample .squeezing 1 0x1F 1) = 73 := by decide

-- R212: a reset inside a command
theorem test_reset_in_flight :
    answers (clockEdges .one [offerPorts 0x30000000, quiet, resetting, quiet] (sample .absorbing 136 0x06 0)) (fun t =>
      t == { State.reset with rstSampled := false }) = true := by decide +kernel

-- R71, R73: the first edge with rst = 0 after a reset accepts a word on offer
theorem test_first_edge_after_reset :
    answers (clockEdges .one [resetting, offerPorts 0] (sample .fault 136 0x06 0)) (fun t => t.busy && t.offer == .none) = true ∧
      answers (clockEdges .one [resetting, quiet, offerPorts 0] (sample .fault 136 0x06 0)) (fun t => t.busy) = true := by
  decide +kernel

-- R216: a word offered at an edge with rst = 1 is held or the host is refused
theorem test_offer_at_a_reset_edge :
    let p : Ports := { offerPorts 0 with rst := true }
    clockEdges .one [p, quiet] idle = .refused .hostDroppedOffer ∧
      clockEdges .one [p, resetting, offerPorts 0] idle = .refused .hostDroppedOffer ∧
      answers (clockEdges .one [p, offerPorts 0] idle) (fun t => t.busy) = true :=
  ⟨rfl, rfl, by decide +kernel⟩

/-! ### The assembler -/

-- E1, first chunking
theorem test_assemble :
    assembleProgram "INIT 136, 0x06\nABSORB 0x61, 0x62 ; ab\nABSORBB 0x63, 0x64\nFINALIZE\nSQUEEZE 3".toList =
      some [0x10008806, 0x21006261, 0x21006463, 0x30000000, 0x42000000] := by decide +kernel

-- P2 and R86: SQUEEZEN 32 is ten SQUEEZE 3 and one SQUEEZE 2
theorem test_assemble_squeezen :
    assembleText "SQUEEZEN 32".toList = some (List.replicate 10 0x42000000 ++ [0x41000000]) := by decide +kernel

-- R85: an operand out of range is refused
theorem test_assemble_refuses :
    assembleText "INIT 256, 0x06".toList = none ∧ assembleText "SQUEEZE 4".toList = none ∧
      assembleText "ABSORB 0x100".toList = none := by decide +kernel

/-! ### Witnesses: states and operands that meet an obligation's hypotheses, for each clause -/

/-- A command in progress: FINALIZE at RATE 136, its permutation just started. -/
def permuting : State := { sample .absorbing 136 0x06 0 with flight := some .finalize }

/-- The host's next action is this one. -/
def next (a : HostAct) (s : State) : State := { s with inputs := [a] }

/-- What the invariant of every step says where no command is in progress. -/
abbrev GoodBetween (s : State) : Prop := BetweenCommands s ∧ ResetInv s

theorem not_resetNext_command {s : State} {w : Word} {rest : List HostAct} (h : s.inputs = .command w :: rest) :
    ¬ResetNext s := by
  rintro ⟨p, rest', hp, _⟩
  rw [h] at hp
  cases hp

theorem witness_EncodeOfDecodeIsTheWord : decode 0x22FFFFFF = .ok (.absorb3 0xFF 0xFF 0xFF) := by decide

theorem witness_MalformedWordsFaultIllegalCommand :
    State.reset.mode ≠ .fault ∧
    (let w : Word := 0x00000001; w.toNat / 2 ^ 28 = 0 ∧ w.toNat % 2 ^ 28 ≠ 0) ∧
    (let w : Word := 0x38000000; w.toNat / 2 ^ 28 = 3 ∧ w.toNat % 2 ^ 28 ≠ 0) ∧
    (let w : Word := 0x10010000; w.toNat / 2 ^ 28 = 1 ∧ w.toNat / 2 ^ 16 % 2 ^ 12 ≠ 0) ∧
    (let w : Word := 0x24000000; w.toNat / 2 ^ 28 = 2 ∧ w.toNat / 2 ^ 26 % 4 ≠ 0) ∧
    (let w : Word := 0x23000000; w.toNat / 2 ^ 28 = 2 ∧ w.toNat / 2 ^ 24 % 4 = 3) ∧
    (let w : Word := 0x20000100; w.toNat / 2 ^ 28 = 2 ∧ w.toNat / 2 ^ 24 % 4 = 0 ∧ w.toNat / 2 ^ 8 % 2 ^ 16 ≠ 0) ∧
    (let w : Word := 0x21010000; w.toNat / 2 ^ 28 = 2 ∧ w.toNat / 2 ^ 24 % 4 = 1 ∧ w.toNat / 2 ^ 16 % 2 ^ 8 ≠ 0) ∧
    (let w : Word := 0x44000000; w.toNat / 2 ^ 28 = 4 ∧ w.toNat / 2 ^ 26 % 4 ≠ 0) ∧
    (let w : Word := 0x43000000; w.toNat / 2 ^ 28 = 4 ∧ w.toNat / 2 ^ 24 % 4 = 3) ∧
    (let w : Word := 0x40800000; w.toNat / 2 ^ 28 = 4 ∧ w.toNat % 2 ^ 24 ≠ 0) ∧
    (let w : Word := 0x50000000; 5 ≤ w.toNat / 2 ^ 28) ∧
    -- and words that fall under none of the clauses, the largest of their rows
    wellFormedWord 0x1000FFFF = true ∧ wellFormedWord 0x200000FF = true ∧ wellFormedWord 0x2100FFFF = true ∧
      wellFormedWord 0x22FFFFFF = true ∧ wellFormedWord 0x42000000 = true := by decide

theorem witness_OperandsAreAssembledByCount :
    (decode 0x21006261 = .ok (.absorb2 0x61 0x62) ∧ (0x21006261 : Word).extractLsb' 28 4 = 2) ∧
      decode 0x42000000 = .ok .squeeze3 ∧ (0x42000000 : Word).extractLsb' 28 4 = 4 := by decide

theorem witness_InitWordDecodesForEveryRate :
    State.reset.mode ≠ .fault ∧ ¬(1 ≤ (0 : Byte).toNat ∧ (0 : Byte).toNat ≤ 199) ∧
      ¬(1 ≤ (200 : Byte).toNat ∧ (200 : Byte).toNat ≤ 199) := by decide

theorem witness_StepRunsTheDecodedCommand :
    (let s := next (.command 0x10008806) idle
     s.inputs = [.command 0x10008806] ∧ s.flight = none ∧ s.rspPending = false ∧ (s.offer = .none ∨ s.offer = .waiting 0x10008806) ∧
       decode 0x10008806 = .ok (.init 136 0x06)) ∧
    (let s := { next (.command 0x30000000) idle with offer := .waiting 0x30000000 }
     s.inputs = [.command 0x30000000] ∧ s.flight = none ∧ s.rspPending = false ∧ s.offer = .waiting 0x30000000 ∧
       decode 0x30000000 = .ok .finalize) ∧
    0x42000000 < 2 ^ 32 ∧ decode (BitVec.ofNat 32 0x42000000) = .ok .squeeze3 := by decide

theorem witness_PendingResponseBlocksCommands :
    let s := next (.command 0x00000000) (respond 0 idle)
    s.inputs = [.command 0x00000000] ∧ s.flight = none ∧ s.rspPending = true ∧ s.offer = .none := by decide

theorem witness_FaultStateIsSticky : (sample .fault 136 0x06 3).mode = .fault := by decide

theorem witness_ChecksInOrderOfPriority :
    (State.reset.mode ≠ .fault ∧ wellFormedWord 0x10010000 = false) ∧
    ((0x1000C806 : Word).extractLsb' 28 4 = 1 ∧ wellFormedWord 0x1000C806 = true ∧ ((0x1000C806 : Word).extractLsb' 8 8).toNat = 200) ∧
    ((0x30000000 : Word).extractLsb' 28 4 = 3 ∧ wellFormedWord 0x30000000 = true ∧ State.reset.mode = .idle) ∧
    ((0x20000061 : Word).extractLsb' 28 4 = 2 ∧ wellFormedWord 0x20000061 = true ∧ (sample .squeezing 136 0x06 0).mode = .squeezing) ∧
    ((0x30000000 : Word).extractLsb' 28 4 = 3 ∧ (sample .squeezing 136 0x06 0).mode = .squeezing) ∧
    ((0x40000000 : Word).extractLsb' 28 4 = 4 ∧ wellFormedWord 0x40000000 = true ∧ (sample .absorbing 136 0x06 0).mode = .absorbing) ∧
    (wellFormedWord 0x1000C706 = true ∧ ((0x1000C706 : Word).extractLsb' 8 8).toNat = 199 ∧
      answers (execWord 0x1000C706 State.reset) (fun t => t.mode == .absorbing) = true) ∧
    ((sample .fault 136 0x06 0).mode = .fault ∧ answers (execWord 0x23000000 (sample .fault 136 0x06 0)) (fun _ => true) = true) ∧
    resetting.rst = true := by decide +kernel

theorem witness_FaultsArePrecise :
    ∃ t, execWord 0x40000000 (sample .absorbing 136 0x06 1 [(0, 0x61)]) = .next t ∧
      decide ((sample .absorbing 136 0x06 1 [(0, 0x61)]).mode ≠ .fault ∧ t.mode = .fault) = true :=
  exists_of_answers (by decide +kernel)

theorem witness_InitConstructsAFreshSponge :
    (sample .squeezing 136 0x06 9 [(5, 7)]).mode ≠ .fault ∧ (1 ≤ (1 : Byte).toNat ∧ (1 : Byte).toNat ≤ 199) ∧
      (1 ≤ (199 : Byte).toNat ∧ (199 : Byte).toNat ≤ 199) ∧ ¬(1 ≤ (0 : Byte).toNat ∧ (0 : Byte).toNat ≤ 199) ∧
      ¬(1 ≤ (200 : Byte).toNat ∧ (200 : Byte).toNat ≤ 199) := by decide

theorem witness_StatusReadsTheConfiguration : BetweenCommands State.reset ∧ State.reset.mode = .idle := by decide +kernel

/-- For each mode clause of ABSORB, FINALIZE and SQUEEZE: the ends of the range of RATE and of OFFSET. -/
theorem witness_AbsorbXorsAdvancesAndPermutes :
    absorbOperands (.absorb1 0x61) ≠ [] ∧ absorbOperands (.absorb2 0 0) ≠ [] ∧ absorbOperands (.absorb3 1 2 3) ≠ [] ∧
    (let s := sample .absorbing 1 0x06 0
     s.mem.wf = true ∧ s.mode = .absorbing ∧ s.rate.toNat ≤ 199 ∧ s.offset.toNat < s.rate.toNat) ∧
    (let s := sample .absorbing 199 0x06 198 [(0, 1), (199, 2)]
     s.mem.wf = true ∧ s.mode = .absorbing ∧ s.rate.toNat ≤ 199 ∧ s.offset.toNat < s.rate.toNat) ∧
    (State.reset.mem.wf = true ∧ State.reset.mode = .idle) ∧
    (sample .squeezing 136 0x06 0 [(0, 1)]).mem.wf = true ∧ (sample .squeezing 136 0x06 0 [(0, 1)]).mode = .squeezing := by
  decide +kernel

theorem witness_LongAbsorbsAreByteAbsorbs :
    let s := sample .absorbing 2 0x06 1 [(0, 0x61)]
    s.mode = .absorbing ∧ s.rate.toNat ≤ 199 ∧ s.offset.toNat < s.rate.toNat := by decide +kernel

theorem witness_FinalizePadsAndPermutes :
    (let s := sample .absorbing 1 0x1F 0
     s.mem.wf = true ∧ s.mode = .absorbing ∧ s.rate.toNat ≤ 199 ∧ s.offset.toNat < s.rate.toNat) ∧
    (let s := sample .absorbing 199 0x06 198 [(3, 5)]
     s.mem.wf = true ∧ s.mode = .absorbing ∧ s.rate.toNat ≤ 199 ∧ s.offset.toNat < s.rate.toNat) ∧
    (State.reset.mem.wf = true ∧ State.reset.mode = .idle) ∧
    (sample .squeezing 136 0x06 136).mem.wf = true ∧ (sample .squeezing 136 0x06 136).mode = .squeezing := by decide +kernel

theorem witness_PaddingCancelsForDelimiter80 :
    let s := sample .absorbing 136 0x80 135
    s.mem.wf = true ∧ s.mode = .absorbing ∧ s.rate.toNat ≤ 199 ∧ s.offset.toNat + 1 = s.rate.toNat ∧ s.delim = 0x80 := by
  decide +kernel

theorem witness_SqueezeReadsTheOutputStream :
    squeezeCount .squeeze1 ≠ 0 ∧ squeezeCount .squeeze2 ≠ 0 ∧ squeezeCount .squeeze3 ≠ 0 ∧
    (let s := sample .squeezing 1 0x06 0
     s.mem.wf = true ∧ s.mode = .squeezing ∧ 1 ≤ s.rate.toNat ∧ s.rate.toNat ≤ 199 ∧ s.offset.toNat ≤ s.rate.toNat) ∧
    (let s := sample .squeezing 199 0x06 199 [(7, 7)]
     s.mem.wf = true ∧ s.mode = .squeezing ∧ 1 ≤ s.rate.toNat ∧ s.rate.toNat ≤ 199 ∧ s.offset.toNat ≤ s.rate.toNat ∧
       s.work = s.mem.lanes) ∧
    (State.reset.mem.wf = true ∧ State.reset.mode = .idle) ∧
    (sample .absorbing 136 0x06 0).mem.wf = true ∧ (sample .absorbing 136 0x06 0).mode = .absorbing := by decide +kernel

theorem witness_RegisterFrameOfEveryCommand :
    (∃ t, exec (.absorb1 0x61) (sample .absorbing 136 0x06 0) = .next t ∧ decide (t.mode ≠ .fault) = true) ∧
    (∀ rate delim, Instr.absorb1 0x61 ≠ .init rate delim) ∧ Instr.absorb1 0x61 ≠ .finalize ∧
    ∃ t, exec (.init 136 0x06) (sample .fault 136 0x06 0) = .next t ∧ decide ((sample .fault 136 0x06 0).mode = .fault) = true :=
  ⟨exists_of_answers (by decide +kernel), by simp, by simp, exists_of_answers (by decide +kernel)⟩

theorem witness_MemoryFrameOfEveryCommand :
    (∃ t, exec .status (sample .absorbing 136 0x06 3) = .next t ∧ true = true) ∧
    (∃ t, exec (.init 136 0x06) (sample .fault 136 0x06 3) = .next t ∧
      decide ((sample .fault 136 0x06 3).mode = .fault) = true) ∧
    (∃ t, exec .squeeze3 (sample .squeezing 3 0x06 0) = .next t ∧
      decide (squeezeCount .squeeze3 ≠ 0 ∧ permsOf .squeeze3 .squeezing 3 0 = 0) = true) ∧
    ∃ t, exec (.absorb2 1 2) (sample .absorbing 136 0x06 133) = .next t ∧
      decide (absorbOperands (.absorb2 1 2) ≠ [] ∧ permsOf (.absorb2 1 2) .absorbing 136 133 = 0 ∧
        ∀ k, k < (absorbOperands (.absorb2 1 2)).length → 135 ≠ (133 : Byte).toNat + k) = true :=
  ⟨exists_of_answers (by decide +kernel), exists_of_answers (by decide +kernel), exists_of_answers (by decide +kernel),
    exists_of_answers (by decide +kernel)⟩

theorem witness_CapacityChangesOnlyByPermute :
    BetweenCommands (sample .absorbing 136 0x06 132 [(136, 9)]) ∧
    (∃ t, exec (.absorb3 1 2 3) (sample .absorbing 136 0x06 132 [(136, 9)]) = .next t ∧
      decide (permsOf (.absorb3 1 2 3) .absorbing 136 132 = 0 ∧ (136 : Byte).toNat ≤ 136) = true) ∧
    ∀ rate delim, Instr.absorb3 1 2 3 ≠ .init rate delim :=
  ⟨by decide +kernel, exists_of_answers (by decide +kernel), by simp⟩

theorem witness_ResponsesHideTheState :
    (BetweenCommands (sample .absorbing 136 0x06 3 [(0, 1)]) ∧
      BetweenCommands (setMem ⟨[(0, 2), (199, 3)]⟩ (sample .absorbing 136 0x06 3 [(0, 1)])) ∧ squeezeCount .finalize = 0) ∧
    BetweenCommands (sample .squeezing 136 0x06 133 [(0, 1)]) ∧
      BetweenCommands (setMem ⟨[(0, 1), (136, 3)]⟩ (sample .squeezing 136 0x06 133 [(0, 1)])) ∧
      squeezeCount .squeeze3 ≠ 0 ∧ permsOf .squeeze3 .squeezing 136 133 = 0 ∧
      ∀ a, a < (136 : Byte).toNat → (⟨[(0, 1), (136, 3)]⟩ : Memory).read a = (⟨[(0, 1)]⟩ : Memory).read a :=
  ⟨⟨by decide +kernel, by decide +kernel, rfl⟩, by decide +kernel, by decide +kernel, by decide +kernel⟩

theorem witness_ConfigurationIsFixedBetweenInits :
    let s := next (.command 0x21006261) (sample .absorbing 2 0x06 0)
    (∃ t, step s = .next t ∧ true = true) ∧ ¬ResetNext s ∧ ∀ w, offeredWord s = some w → w.extractLsb' 28 4 ≠ 1 :=
  ⟨exists_of_answers (by decide +kernel), not_resetNext_command rfl, by intro w h; cases h; decide⟩

theorem witness_ModeChangesOnlyByTheLegalTransitions :
    (let s := next (.command 0x30000000) (sample .absorbing 136 0x06 5)
     StepInv Config.roundsPerCycle s ∧ (∃ t, step s = .next t ∧ decide (t.mode = .squeezing) = true) ∧ ¬ResetNext s) ∧
    (let s := next (.command 0x40000000) (sample .absorbing 136 0x06 5)
     StepInv Config.roundsPerCycle s ∧ (∃ t, step s = .next t ∧ decide (t.mode = .fault) = true) ∧ ¬ResetNext s) ∧
    let s := next (.edge resetting) (sample .fault 136 0x06 5)
    StepInv Config.roundsPerCycle s ∧ (∃ t, step s = .next t ∧ decide (t.mode = .idle) = true) ∧ ResetNext s :=
  ⟨⟨(by decide +kernel : GoodBetween (sample .absorbing 136 0x06 5)), exists_of_answers (by decide +kernel),
      not_resetNext_command rfl⟩,
    ⟨(by decide +kernel : GoodBetween (sample .absorbing 136 0x06 5)), exists_of_answers (by decide +kernel),
      not_resetNext_command rfl⟩,
    (by decide +kernel : GoodBetween (sample .fault 136 0x06 5)), exists_of_answers (by decide +kernel),
      ⟨resetting, [], rfl, rfl⟩⟩

theorem witness_OnlyResetLeavesFault :
    let s := next (.command 0x10008806) (sample .fault 136 0x06 5 [(1, 1)])
    StepInv Config.roundsPerCycle s ∧ (∃ t, step s = .next t ∧ true = true) ∧ s.mode = .fault ∧ ¬ResetNext s :=
  ⟨(by decide +kernel : GoodBetween (sample .fault 136 0x06 5 [(1, 1)])), exists_of_answers (by decide +kernel), rfl,
    not_resetNext_command rfl⟩

/-- Between commands, and inside one, at every ROUNDS_PER_CYCLE. -/
theorem witness_EveryStepKeepsTheInvariant :
    (let s := next (.command 0x22636261) (sample .absorbing 1 0x06 0)
     StepInv Config.roundsPerCycle s ∧ ∃ t, step s = .next t ∧ true = true) ∧
    StepInv Config.roundsPerCycle permuting ∧ ∃ t, step permuting = .next t ∧ true = true := by
  refine ⟨⟨(by decide +kernel : GoodBetween (sample .absorbing 1 0x06 0)), exists_of_answers (by decide +kernel)⟩, ?_, ?_⟩
  · exact ⟨⟨by decide +kernel, rfl, by decide, by decide, by decide, by decide, Nat.dvd_zero _, by decide +kernel⟩, rfl, rfl⟩
  · apply exists_of_answers
    unfold step
    cases Config.roundsPerCycle <;> decide +kernel

theorem witness_CommandsPreserveTheStateInvariants :
    BetweenCommands (sample .absorbing 136 0x06 5) ∧
      ∃ t, execWord 0x40000000 (sample .absorbing 136 0x06 5) = .next t ∧ decide (t.mode = .fault) = true :=
  ⟨by decide +kernel, exists_of_answers (by decide +kernel)⟩

theorem witness_GoodStatesNeverStop :
    StepInv Config.roundsPerCycle State.reset ∧
    let s := next (.edge quiet) { respond 0 idle with offer := .waiting 0x30000000 }
    (StepInv Config.roundsPerCycle s ∧ step s = .refused .hostDroppedOffer) ∧
    let u := next (.edge quiet) { idle with offer := .broken }
    StepInv Config.roundsPerCycle u ∧ step u = .refused .hostDroppedOffer :=
  ⟨(by decide +kernel : GoodBetween State.reset),
    ⟨(by decide +kernel : GoodBetween { respond 0 idle with offer := .waiting 0x30000000 }), rfl⟩,
    (by decide +kernel : GoodBetween { idle with offer := .broken }), rfl⟩

/-- The largest indices of the lane and bit ranges. -/
theorem witness_lane_and_bit_indices : (63 < 64 ∧ 0 < 64) ∧ (4 < 5 ∧ 0 < 5) ∧ 23 < 24 ∧ 1 ≤ 199 ∧ 199 ≤ 199 := by decide

theorem witness_ResetEdgeSetsEveryRegister : resetting.rst = true ∧ permuting.busy = true := by decide

/-- With a word offered at the first edge with `rst` = 0, and with none. -/
theorem witness_FirstEdgeAfterResetAccepts :
    (resetting.rst = true ∧ (offerPorts 0x10008806).rst = false ∧ breaksOffer (offerPorts 0x10008806) State.reset = false ∧
      ∃ t, clockEdge .one resetting permuting = .next t ∧ decide (t = State.reset) = true) ∧
    (quiet.rst = false ∧ quiet.cmdValid = false ∧ breaksOffer quiet State.reset = false) ∧
    let s := next (.command 0x10008806) State.reset
    s.inputs = [.command 0x10008806] ∧ s.flight = none ∧ s.rspPending = false ∧ s.rstSampled = true ∧ s.offer = .none :=
  ⟨⟨by decide, by decide, by decide, exists_of_answers (by decide +kernel)⟩, by decide, by decide⟩

/-- Acceptances, one of them right after a reset; and a busy core. -/
theorem witness_CommandsAreAcceptedByTheHandshake :
    (∃ t, clockEdge .one (offerPorts 0x10008806) idle = .next t ∧
      decide (idle.busy = false ∧ t.busy = true ∧ cmdReady false idle = true) = true) ∧
    (∃ t, clockEdge .one (offerPorts 0x10008806) State.reset = .next t ∧
      decide (State.reset.busy = false ∧ t.busy = true ∧ cmdReady false State.reset = true) = true) ∧
    ∃ t, clockEdge .one quiet permuting = .next t ∧
      decide (quiet.rst = false ∧ cmdReady quiet.rst permuting = false ∧ (offerPorts 0x10008806).rspReady = quiet.rspReady ∧
        answers (clockEdge .one (offerPorts 0x10008806) { permuting with offer := .none }) (fun _ => true) = true) = true :=
  ⟨exists_of_answers (by decide +kernel), exists_of_answers (by decide +kernel), exists_of_answers (by decide +kernel)⟩

theorem witness_ResponsesWaitToBeTaken :
    let s := respond 0 idle
    taking.rst = false ∧ s.flight = none ∧ s.rspPending = true ∧ breaksOffer taking s = false ∧ breaksOffer quiet s = false ∧
      taking.rspReady = true ∧ quiet.rspReady = false := by decide

/-- Dropped and changed, with and without `rst`; broken before; and offered at an edge with `rst` = 1. -/
theorem witness_WithdrawnOffersAreRefused :
    (let s := { permuting with offer := .waiting 0x30000000 }
     s.offer = .waiting 0x30000000 ∧ quiet.rst = false ∧ resetting.rst = true ∧ quiet.cmdValid = false ∧
       resetting.cmdValid = false ∧ (offerPorts 0x40000000).cmdWord ≠ 0x30000000) ∧
    ({ idle with offer := .broken } : State).offer = .broken ∧
    let p : Ports := { offerPorts 0 with rst := true }
    p.rst = true ∧ p.cmdValid = true ∧ idle.offer = .none := by decide

theorem witness_ClockEdgesComputeTheCommand :
    (let s := sample .absorbing 136 0x06 0
     BetweenCommands s ∧ CoreIdle s ∧ (∀ p ∈ [quiet], Quiet p) ∧ [quiet].length = latency .one 0x22636261 s) ∧
    let s := sample .absorbing 136 0x06 135
    BetweenCommands s ∧ CoreIdle s ∧ (∀ p ∈ [quiet, taking], Quiet p) ∧
      [quiet, taking].length = latency .twentyFour 0x30000000 s :=
  ⟨⟨by decide +kernel, by decide +kernel⟩, by decide +kernel, by decide +kernel⟩

theorem witness_NoResponseBeforeTheLatency :
    let s := sample .absorbing 136 0x06 135
    BetweenCommands s ∧ CoreIdle s ∧ (∀ p ∈ List.replicate 24 quiet, Quiet p) ∧
      (List.replicate 24 quiet).length < latency .one 0x30000000 s := by decide +kernel

theorem witness_PermutationsAndLatencyAreBounded :
    BetweenCommands (sample .absorbing 1 0x06 0) ∧ permsOfWord 0x22636261 (sample .absorbing 1 0x06 0) = 3 ∧
      BetweenCommands (sample .squeezing 1 0x06 1) ∧ permsOfWord 0x42000000 (sample .squeezing 1 0x06 1) = 3 :=
  ⟨by decide +kernel, by decide +kernel, by decide +kernel, by decide +kernel⟩

/-- The command of the longest latency: 73 waiting edges, and it has responded. -/
theorem witness_EveryCommandRespondsWithin73Edges :
    let s := sample .squeezing 1 0x06 1
    BetweenCommands s ∧ CoreIdle s ∧ latency .one 0x42000000 s = 73 ∧ (List.replicate 73 quiet).length = 73 ∧
      ∀ p ∈ List.replicate 73 quiet, Quiet p := by decide +kernel

theorem witness_TimingIsIndependentOfData :
    let s := sample .absorbing 136 0x06 135
    let u := sample .absorbing 136 0x1F 135 [(0, 1), (199, 2)]
    let i := Instr.absorb2 0x61 0x62
    let j := Instr.absorb2 0xFF 0x00
    BetweenCommands s ∧ BetweenCommands u ∧ CoreIdle s ∧ CoreIdle u ∧ s.mode = u.mode ∧ s.rate = u.rate ∧
      s.offset = u.offset ∧ (encode i).extractLsb' 28 4 = (encode j).extractLsb' 28 4 ∧
      (encode i).extractLsb' 24 2 = (encode j).extractLsb' 24 2 ∧ ∀ p ∈ [quiet, quiet], Quiet p :=
  ⟨by decide +kernel, by decide +kernel, by decide +kernel⟩

theorem witness_ResponsesDependOnTheCommandsAlone :
    BetweenCommands State.reset ∧ State.reset.flight = none ∧ State.reset.rspPending = false ∧
    let ps := [offerPorts 0x10008806, quiet, taking, offerPorts 0x20000061, quiet]
    (∀ p ∈ ps, p.rst = false) ∧
      ∃ r, transcript .one ps State.reset = .next r ∧ decide (r.2 = ([0x10008806, 0x20000061], [0x01000000])) = true :=
  ⟨by decide +kernel, rfl, rfl, by decide, exists_of_answers (by decide +kernel)⟩

theorem witness_absorb_streams :
    BetweenCommands (sample .absorbing 2 0x06 1) ∧ (sample .absorbing 2 0x06 1).mode = .absorbing ∧
      AllAbsorb [.absorb2 0x61 0x62, .absorb1 0x63] ∧ AllAbsorb [.absorb1 0x61, .absorb2 0x62 0x63] ∧
      streamInput [.absorb2 0x61 0x62, .absorb1 0x63] = streamInput [.absorb1 0x61, .absorb2 0x62 0x63] := by decide +kernel

theorem witness_squeeze_streams :
    BetweenCommands (sample .squeezing 2 0x06 0) ∧ (sample .squeezing 2 0x06 0).mode = .squeezing ∧
      (sample .squeezing 2 0x06 0).offset = 0 ∧ AllSqueeze [.squeeze3, .squeeze1] ∧ AllSqueeze [.squeeze2, .squeeze3] ∧
      streamLength [.squeeze3, .squeeze1] ≤ streamLength [.squeeze2, .squeeze3] := by decide +kernel

/-- Also with nothing absorbed and nothing squeezed (R151). -/
theorem witness_whole_computations :
    BetweenCommands State.reset ∧ State.reset.mode ≠ .fault ∧ 1 ≤ (1 : Byte).toNat ∧ (199 : Byte).toNat ≤ 199 ∧
      AllAbsorb [.absorb3 0x61 0x62 0x63] ∧ AllSqueeze [.squeeze3, .squeeze2] ∧ AllAbsorb [] ∧ AllSqueeze [] := by
  decide +kernel

theorem witness_AssemblerWordsAndRefusals :
    ([] : List Nat).length = 0 ∧ 3 < [1, 2, 3, 4].length ∧ (255 ≤ 255 ∧ ¬256 ≤ 255) ∧ (1 ≤ 3 ∧ 3 ≤ 3) ∧
      (0xFFFFFFFF < 2 ^ 32 ∧ ¬0x100000000 < 2 ^ 32) := by decide

end Sys2Proof.Tests
end

/-! ## O46: the clock edges compute what the command level computes (R7, R109, R218)

What is left of a command after an edge (`Work`) has a meaning at the command level, `finishWork`, and a number of
permutations still to run, `Work.permsLeft`. Beginning a word keeps both (`finish_beginWord`, `beginWord_underway`), one
permutation of the round pipeline keeps the meaning and uses up one permutation (`clockEdges_permutation`), so the edges
end in that meaning after `latency` of them (`clockEdges_underway`). -/

namespace Sys2Proof.Machine

/-! ### What is left of a command, in one step -/

/-- The answer of an ABSORB whose loop gave this. -/
def absorbAnswer : Except Fault State → Host.Outcome State Fault Refusal
  | .ok t => .next (respond 0 t)
  | .error f => .fault f

/-- The answer of a SQUEEZE that had read `out` and whose loop then gave this. -/
def squeezeAnswer (out : List Byte) : Except Fault (State × List Byte) → Host.Outcome State Fault Refusal
  | .ok (t, bs) => .next (respond (packBytes (out ++ bs)) t)
  | .error f => .fault f

/-- What is left of a command, run to its response at once; `s` is the state in which its permutation starts. -/
def finishWork : Work → State → Host.Outcome State Fault Refusal
  | .respond data, s => .next (respond data s)
  | .fault c, s => .next (raiseFault c s)
  | .absorb rest, s => absorbAnswer (absorbBytes rest (permuteBlock s))
  | .finalize, s => .next (respond 0 (setMode .squeezing (permuteBlock s)))
  | .squeeze left out, s => squeezeAnswer out (squeezeBytes left (permuteBlock s))

/-- `finishWork` of what an edge has left, or the stop it has come to. -/
def finish : Except Fault (State × Work) → Host.Outcome State Fault Refusal
  | .ok (t, w) => finishWork w t
  | .error f => .fault f

/-- The permutations still to run, the one in progress included (R146). -/
def Work.permsLeft (rate : Byte) : Work → Nat
  | .respond _ | .fault _ => 0
  | .absorb rest => absorbPerms rate rest.length 0 + 1
  | .finalize => 1
  | .squeeze left _ => squeezePerms rate left 0 + 1

@[simp] theorem finish_ok (t : State) (w : Work) : finish (.ok (t, w)) = finishWork w t := rfl

@[simp] theorem finish_error (f : Fault) : finish (.error f) = .fault f := rfl

theorem absorbCommand_eq (bs : List Byte) {s : State} (h : s.mode ≠ .fault) :
    absorbCommand bs s = checked (absorbCheck s.mode) s (absorbAnswer (absorbBytes bs s)) := by
  rw [absorbCommand, faultGate_other h]
  cases absorbBytes bs s <;> rfl

theorem squeezeCommand_eq (n : Nat) {s : State} (h : s.mode ≠ .fault) :
    squeezeCommand n s = checked (squeezeCheck s.mode) s (squeezeAnswer [] (squeezeBytes n s)) := by
  rw [squeezeCommand, faultGate_other h]
  cases squeezeBytes n s <;> rfl

/-! ### Starting and ending a permutation -/

/-- Starting a permutation on a pipeline at rest changes nothing that the permutation does not overwrite. -/
theorem permuteBlock_startPermutation {s : State} (h : s.rcIdx = 0) : permuteBlock (startPermutation s) = permuteBlock s := by
  apply State.ext_fields <;> simp [h]

/-- What the pipeline stores at the end of its rounds is what `Permute` and `OFFSET <- 0` give in one step (R109, R146). -/
theorem storePermuted_keccakF {s : State} {ir : BitVec 5} {a : Lanes} (h : s.rcIdx = 0) :
    storePermuted (Memory.ofLanes (keccakF s.mem.lanes)) (keccakF s.mem.lanes) (setPipeline a ir s) = permuteBlock s := by
  apply State.ext_fields <;> simp [h]

/-- At the block boundary a turn of R145's loop permutes first, so it may as well start in the permuted block. -/
theorem squeezeByte_permuteBlock {s : State} (hb : atBoundary s = true) (hr : s.rate ≠ 0) :
    squeezeByte (permuteBlock s) = squeezeByte s := by
  have hne : atBoundary (permuteBlock s) = false := by simpa [atBoundary] using hr.symm
  simp [squeezeByte, hb, hne]

theorem squeezeBytes_permuteBlock {s : State} (n : Nat) (hb : atBoundary s = true) (hr : s.rate ≠ 0) :
    squeezeBytes (n + 1) (permuteBlock s) = squeezeBytes (n + 1) s := by
  simp only [squeezeBytes, squeezeByte_permuteBlock hb hr]

/-! ### The runs between permutations -/

/-- ABSORB up to its next permutation, and then the rest of it, is R143's whole loop. -/
theorem finish_absorbRun : ∀ (bs : List Byte) {s : State}, s.rcIdx = 0 →
    finish (absorbRun bs s) = absorbAnswer (absorbBytes bs s)
  | [], _, _ => rfl
  | b :: bs, s, h => by
    simp only [absorbRun, absorbBytes, absorbByte]
    cases hc : absorbCursor b s with
    | error f => rfl
    | ok t =>
      have ht : t.rcIdx = 0 := by
        obtain ⟨-, rfl⟩ := absorbCursor_cases hc
        exact h
      cases hb : atBoundary t with
      | true => simp [hb, finishWork, permuteBlock_startPermutation ht]
      | false => simpa [hb] using finish_absorbRun bs ht

/-- SQUEEZE up to its next permutation, and then the rest of it, is R145's whole loop. -/
theorem finish_squeezeRun : ∀ (n : Nat) (out : List Byte) {s : State}, s.rcIdx = 0 → s.rate ≠ 0 →
    finish (squeezeRun n out s) = squeezeAnswer out (squeezeBytes n s)
  | 0, out, s, _, _ => by simp [squeezeRun, squeezeBytes, squeezeAnswer, finishWork]
  | n + 1, out, s, h, hr => by
    cases hb : atBoundary s with
    | true => simp [squeezeRun, hb, finishWork, permuteBlock_startPermutation h, squeezeBytes_permuteBlock n hb hr]
    | false =>
      simp only [squeezeRun, squeezeBytes, squeezeByte, hb, Bool.false_eq_true, if_false]
      cases hc : readCursor s with
      | error f => rfl
      | ok r =>
        obtain ⟨-, rfl⟩ := readCursor_cases hc
        simp only
        rw [finish_squeezeRun n _ (by exact h) (by exact hr)]
        cases squeezeBytes n (setOffset (s.offset + 1) s) <;> simp [squeezeAnswer]

/-- After its permutation a command goes on as `finishWork` says. -/
theorem finish_resume {w : Work} {s : State} (h : s.rcIdx = 0) (hr : s.rate ≠ 0) (hw : w.permsLeft s.rate ≠ 0) :
    finish (resume w (permuteBlock s)) = finishWork w s := by
  cases w with
  | respond data => exact absurd rfl hw
  | fault c => exact absurd rfl hw
  | absorb rest => exact finish_absorbRun rest (by simpa using h)
  | finalize => rfl
  | squeeze left out => exact finish_squeezeRun left out (by simpa using h) (by simpa using hr)

/-! ### A command under way with `n` permutations to go -/

/-- The pipeline is where a permutation starts or rests, and neither a reset nor an offer is waiting for an edge. -/
structure Quiescent (s : State) : Prop where
  pipeline : PipelineAtRest s
  sampled : s.rstSampled = false
  offer : s.offer = .none

/-- `w` is left of a command in `s`, with `n` permutations to go. -/
structure Underway (n : Nat) (w : Work) (s : State) : Prop where
  quiescent : Quiescent s
  perms : w.permsLeft s.rate = n
  rate : n ≠ 0 → s.rate ≠ 0

theorem Quiescent.startPermutation {s : State} (h : Quiescent s) : Quiescent (startPermutation s) :=
  ⟨⟨rfl, rfl⟩, h.sampled, h.offer⟩

theorem Quiescent.setOffset {s : State} (o : Byte) (h : Quiescent s) : Quiescent (setOffset o s) :=
  ⟨h.pipeline, h.sampled, h.offer⟩

theorem Quiescent.setMode {s : State} (m : Mode) (h : Quiescent s) : Quiescent (setMode m s) :=
  ⟨h.pipeline, h.sampled, h.offer⟩

theorem Quiescent.setMem {s : State} (m : Memory) (h : Quiescent s) : Quiescent (setMem m s) :=
  ⟨⟨h.pipeline.1, rfl⟩, h.sampled, h.offer⟩

theorem Quiescent.permuteBlock {s : State} (h : Quiescent s) : Quiescent (permuteBlock s) :=
  (h.setMem _).setOffset 0

theorem Quiescent.underway_respond {s : State} (data : BitVec 24) (h : Quiescent s) : Underway 0 (.respond data) s :=
  ⟨h, rfl, fun h0 => absurd rfl h0⟩

theorem Quiescent.underway_fault {s : State} (c : Cause) (h : Quiescent s) : Underway 0 (.fault c) s :=
  ⟨h, rfl, fun h0 => absurd rfl h0⟩

/-- An ABSORB runs the permutations of R146, condition 1. -/
theorem absorbRun_underway : ∀ {bs : List Byte} {s t : State} {w : Work}, Quiescent s → s.rate ≠ 0 →
    absorbRun bs s = .ok (t, w) → Underway (absorbPerms s.rate bs.length s.offset) w t
  | [], s, t, w, hs, _, h => by
    cases h
    exact hs.underway_respond 0
  | b :: bs, s, t, w, hs, hr, h => by
    simp only [absorbRun] at h
    cases hc : absorbCursor b s with
    | error f => simp [hc] at h
    | ok u =>
      obtain ⟨-, rfl⟩ := absorbCursor_cases hc
      simp only [hc, atBoundary_iff, setOffset_offset, setOffset_rate, setMem_rate] at h
      simp only [List.length_cons, absorbPerms]
      have hu := (hs.setMem (s.mem.write s.offset.toNat (s.mem.read s.offset.toNat ^^^ b))).setOffset (s.offset + 1)
      by_cases hb : s.offset + 1 = s.rate
      · rw [if_pos hb] at h ⊢
        cases h
        exact ⟨hu.startPermutation, rfl, fun _ => hr⟩
      · rw [if_neg hb] at h ⊢
        exact absorbRun_underway hu hr h

/-- A SQUEEZE runs the permutations of R146, condition 3. -/
theorem squeezeRun_underway : ∀ {n : Nat} {out : List Byte} {s t : State} {w : Work}, Quiescent s → s.rate ≠ 0 →
    squeezeRun n out s = .ok (t, w) → Underway (squeezePerms s.rate n s.offset) w t
  | 0, out, s, t, w, hs, _, h => by
    cases h
    exact hs.underway_respond _
  | n + 1, out, s, t, w, hs, hr, h => by
    simp only [squeezeRun, atBoundary_iff] at h
    simp only [squeezePerms]
    by_cases hb : s.offset = s.rate
    · rw [if_pos hb] at h ⊢
      cases h
      exact ⟨hs.startPermutation, congrArg (· + 1) (if_neg hr.symm), fun _ => hr⟩
    · rw [if_neg hb] at h ⊢
      cases hc : readCursor s with
      | error f => simp [hc] at h
      | ok r =>
        obtain ⟨-, rfl⟩ := readCursor_cases hc
        simp only [hc] at h
        exact squeezeRun_underway (hs.setOffset (s.offset + 1)) hr h

/-- A permutation done, there is one less to go. -/
theorem resume_underway {n : Nat} {w v : Work} {s t : State} (h : Underway (n + 1) w s)
    (hv : resume w (permuteBlock s) = .ok (t, v)) : Underway n v t := by
  obtain ⟨hs, hn, hr⟩ := h
  have hq := hs.permuteBlock
  have hrate : (permuteBlock s).rate ≠ 0 := by simpa using hr n.succ_ne_zero
  cases w with
  | respond data => cases hn
  | fault c => cases hn
  | absorb rest =>
    have := absorbRun_underway hq hrate hv
    rwa [permuteBlock_rate, permuteBlock_offset, Nat.succ.inj hn] at this
  | finalize =>
    cases hv
    cases hn
    exact (hq.setMode _).underway_respond 0
  | squeeze left out =>
    have := squeezeRun_underway hq hrate hv
    rwa [permuteBlock_rate, permuteBlock_offset, Nat.succ.inj hn] at this

/-! ### The beginning of a command -/

@[simp] theorem finish_beginChecked (check : Option Cause) (s : State) (go : Except Fault (State × Work)) :
    finish (beginChecked check s go) = checked check s (finish go) := by
  cases check <;> rfl

/-- STATUS is the zero word (R75). -/
theorem decode_eq_status_iff {w : Word} : decode w = .ok .status ↔ w = 0 := by
  constructor
  · intro h
    unfold decode decodeAbsorb decodeSqueeze at h
    repeat' split at h
    all_goals cases h
    rename_i hop hlow
    have hop : w.toNat / 2 ^ 28 % 2 ^ 4 = 0 := by rw [← toNat_opField, hop]; rfl
    have hlow : w.toNat / 2 ^ 0 % 2 ^ 28 = 0 := by rw [← toNat_extract, hlow]; rfl
    have hw : w.toNat = 0 := by omega
    exact BitVec.eq_of_toNat_eq hw
  · rintro rfl
    decide

/-- In FAULT every command but STATUS is answered with DATA 0 (R182). -/
theorem exec_of_fault {i : Instr} {s : State} (h : s.mode = .fault) (hi : i ≠ .status) : exec i s = .next (respond 0 s) := by
  cases i with
  | status => exact absurd rfl hi
  | _ => exact faultGate_fault h

/-- In FAULT a word is answered with STATUS's DATA if it is STATUS, with 0 if it is any other (R182). -/
theorem execWord_of_fault {w : Word} {s : State} (h : s.mode = .fault) :
    execWord w s = .next (respond (if w = 0 then statusData s else 0) s) := by
  by_cases hw : w = 0
  · rw [if_pos hw, execWord, decode_eq_status_iff.mpr hw]
    rfl
  · rw [if_neg hw, execWord]
    cases hd : decode w with
    | error e => exact faultGate_fault h
    | ok i => exact exec_of_fault h fun hi => hw (decode_eq_status_iff.mp (hi ▸ hd))

/-- The RATE is not 0 in the modes in which a permutation can run (R32, 2 and 3). -/
theorem rate_ne_zero {s : State} (h : BetweenCommands s) (hm : s.mode = .absorbing ∨ s.mode = .squeezing) : s.rate ≠ 0 := by
  obtain ⟨-, -, ha, hq, -⟩ := h
  intro h0
  rcases hm with hm | hm
  · simpa [h0] using (ha hm).1
  · simpa [h0] using (hq hm).1

theorem finish_beginAbsorb (bs : List Byte) {s : State} (hm : s.mode ≠ .fault) (h : s.rcIdx = 0) :
    finish (beginChecked (absorbCheck s.mode) s (absorbRun bs s)) = absorbCommand bs s := by
  rw [finish_beginChecked, finish_absorbRun bs h, absorbCommand_eq bs hm]

theorem finish_beginSqueeze (n : Nat) {s : State} (hm : s.mode ≠ .fault) (h : BetweenCommands s) (hq : Quiescent s) :
    finish (beginChecked (squeezeCheck s.mode) s (squeezeRun n [] s)) = squeezeCommand n s := by
  rw [finish_beginChecked, squeezeCommand_eq n hm]
  cases hmode : s.mode with
  | squeezing => rw [finish_squeezeRun n [] hq.pipeline.1 (rate_ne_zero h (.inr hmode))]
  | fault => exact absurd hmode hm
  | idle | absorbing => rfl

theorem finish_beginFinalize {s : State} (hm : s.mode ≠ .fault) (h : s.rcIdx = 0) :
    finish (beginInstr .finalize s) = execFinalize s := by
  rw [beginInstr, finish_beginChecked, execFinalize, faultGate_other hm]
  cases hp : padBlock s with
  | error f => rfl
  | ok t =>
    obtain ⟨m, rfl, -⟩ := padBlock_cases hp
    simp only [finish_ok, finishWork]
    rw [permuteBlock_startPermutation (by exact h)]

/-- Outside FAULT, what a command begins and has left is the command (R140). -/
theorem finish_beginInstr {i : Instr} {s : State} (hm : s.mode ≠ .fault) (h : BetweenCommands s) (hq : Quiescent s) :
    finish (beginInstr i s) = exec i s := by
  cases i with
  | status => rfl
  | init rate delim =>
    rw [beginInstr, finish_beginChecked]
    exact (faultGate_other hm).symm
  | absorb1 | absorb2 | absorb3 => exact finish_beginAbsorb _ hm hq.pipeline.1
  | finalize => exact finish_beginFinalize hm hq.pipeline.1
  | squeeze1 | squeeze2 | squeeze3 => exact finish_beginSqueeze _ hm h hq

/-- What an accepted word begins and has left is the word at the command level (R7, R140). -/
theorem finish_beginWord {w : Word} {s : State} (h : BetweenCommands s) (hq : Quiescent s) :
    finish (beginWord w s) = execWord w s := by
  unfold beginWord
  by_cases hm : s.mode = .fault
  · rw [if_pos hm, execWord_of_fault hm]
    rfl
  · rw [if_neg hm, execWord]
    cases decode w with
    | ok i => exact finish_beginInstr hm h hq
    | error e => exact (faultGate_other hm).symm

theorem beginAbsorb_underway {bs : List Byte} {s t : State} {w : Work} (hm : s.mode ≠ .fault) (h : BetweenCommands s)
    (hq : Quiescent s) (hb : beginChecked (absorbCheck s.mode) s (absorbRun bs s) = .ok (t, w)) :
    Underway (if s.mode = .absorbing then absorbPerms s.rate bs.length s.offset else 0) w t := by
  cases hmode : s.mode with
  | absorbing =>
    rw [hmode] at hb
    exact absorbRun_underway hq (rate_ne_zero h (.inl hmode)) hb
  | fault => exact absurd hmode hm
  | idle | squeezing =>
    rw [hmode] at hb
    cases hb
    exact hq.underway_fault _

theorem beginSqueeze_underway {n : Nat} {s t : State} {w : Work} (hm : s.mode ≠ .fault) (h : BetweenCommands s)
    (hq : Quiescent s) (hb : beginChecked (squeezeCheck s.mode) s (squeezeRun n [] s) = .ok (t, w)) :
    Underway (if s.mode = .squeezing then squeezePerms s.rate n s.offset else 0) w t := by
  cases hmode : s.mode with
  | squeezing =>
    rw [hmode] at hb
    exact squeezeRun_underway hq (rate_ne_zero h (.inr hmode)) hb
  | fault => exact absurd hmode hm
  | idle | absorbing =>
    rw [hmode] at hb
    cases hb
    exact hq.underway_fault _

theorem beginFinalize_underway {s t : State} {w : Work} (hm : s.mode ≠ .fault) (h : BetweenCommands s)
    (hq : Quiescent s) (hb : beginInstr .finalize s = .ok (t, w)) : Underway (if s.mode = .absorbing then 1 else 0) w t := by
  rw [beginInstr] at hb
  cases hmode : s.mode with
  | absorbing =>
    rw [hmode] at hb
    cases hp : padBlock s with
    | error f => simp [hp, beginChecked, finalizeCheck] at hb
    | ok u =>
      obtain ⟨m, rfl, -⟩ := padBlock_cases hp
      rw [hp] at hb
      cases hb
      exact ⟨(hq.setMem m).startPermutation, rfl, fun _ => rate_ne_zero (s := s) h (.inl hmode)⟩
  | fault => exact absurd hmode hm
  | idle | squeezing =>
    rw [hmode] at hb
    cases hb
    exact hq.underway_fault _

theorem beginInit_underway {rate delim : Byte} {s t : State} {w : Work} (hq : Quiescent s)
    (hb : beginInstr (.init rate delim) s = .ok (t, w)) : Underway 0 w t := by
  rw [beginInstr] at hb
  cases hr : legalRate rate with
  | true =>
    rw [hr] at hb
    cases hb
    exact Quiescent.underway_respond 0 ⟨⟨hq.pipeline.1, rfl⟩, hq.sampled, hq.offer⟩
  | false =>
    rw [hr] at hb
    cases hb
    exact hq.underway_fault _

/-- Outside FAULT a command begins with the permutations of R218 to go. -/
theorem beginInstr_underway {i : Instr} {s t : State} {w : Work} (hm : s.mode ≠ .fault) (h : BetweenCommands s)
    (hq : Quiescent s) (hb : beginInstr i s = .ok (t, w)) : Underway (permsOf i s.mode s.rate s.offset) w t := by
  cases i with
  | status =>
    cases hb
    exact hq.underway_respond _
  | init => exact beginInit_underway hq hb
  | absorb1 | absorb2 | absorb3 => exact beginAbsorb_underway hm h hq hb
  | finalize => exact beginFinalize_underway hm h hq hb
  | squeeze1 | squeeze2 | squeeze3 => exact beginSqueeze_underway hm h hq hb

/-- In FAULT no word runs a permutation (R182). -/
theorem permsOfWord_of_fault {w : Word} {s : State} (hm : s.mode = .fault) : permsOfWord w s = 0 := by
  unfold permsOfWord
  cases decode w with
  | error e => rfl
  | ok i => cases i <;> simp [permsOf, hm]

/-- An accepted word begins with the permutations of R218 to go. -/
theorem beginWord_underway {w : Word} {s t : State} {v : Work} (h : BetweenCommands s) (hq : Quiescent s)
    (hb : beginWord w s = .ok (t, v)) : Underway (permsOfWord w s) v t := by
  unfold beginWord at hb
  by_cases hm : s.mode = .fault
  · rw [if_pos hm] at hb
    cases hb
    rw [permsOfWord_of_fault hm]
    exact hq.underway_respond _
  · rw [if_neg hm] at hb
    unfold permsOfWord
    cases hd : decode w with
    | ok i =>
      rw [hd] at hb
      exact beginInstr_underway hm h hq hb
    | error e =>
      rw [hd] at hb
      cases hb
      exact hq.underway_fault _

/-! ### Edges at which the host only waits -/

/-- The cursor, and so each run up to the next permutation, does not look at what was left of the command before (R29). -/
theorem absorbCursor_setFlight (w : Work) (b : Byte) (s : State) :
    absorbCursor b (setFlight w s) = (absorbCursor b s).map (setFlight w) := by
  by_cases h : s.offset.toNat < 200
  · rw [absorbCursor_ok h, absorbCursor_ok (by exact h)]
    rfl
  · simp [absorbCursor, xorByte, h, Except.map]

theorem readCursor_setFlight (w : Work) (s : State) :
    readCursor (setFlight w s) = (readCursor s).map fun r => (setFlight w r.1, r.2) := by
  by_cases h : s.offset.toNat < 200
  · rw [readCursor_ok h, readCursor_ok (by exact h)]
    rfl
  · simp [readCursor, readByte, h, Except.map]

theorem keepFlight_absorbRun_setFlight (w : Work) : ∀ (bs : List Byte) (s : State),
    keepFlight (absorbRun bs (setFlight w s)) = keepFlight (absorbRun bs s)
  | [], _ => rfl
  | b :: bs, s => by
    simp only [absorbRun, absorbCursor_setFlight]
    cases absorbCursor b s with
    | error f => rfl
    | ok t =>
      cases hb : atBoundary t with
      | true =>
        have hb' : atBoundary (setFlight w t) = true := hb
        simp only [Except.map, hb, hb']
        rfl
      | false =>
        have hb' : atBoundary (setFlight w t) = false := hb
        simpa [Except.map, hb, hb'] using keepFlight_absorbRun_setFlight w bs t

theorem keepFlight_squeezeRun_setFlight (w : Work) : ∀ (n : Nat) (out : List Byte) (s : State),
    keepFlight (squeezeRun n out (setFlight w s)) = keepFlight (squeezeRun n out s)
  | 0, _, _ => rfl
  | n + 1, out, s => by
    simp only [squeezeRun, readCursor_setFlight]
    cases hb : atBoundary s with
    | true =>
      have hb' : atBoundary (setFlight w s) = true := hb
      simp only [hb']
      rfl
    | false =>
      have hb' : atBoundary (setFlight w s) = false := hb
      simp only [hb', Bool.false_eq_true, if_false]
      cases readCursor s with
      | error f => rfl
      | ok r => exact keepFlight_squeezeRun_setFlight w n _ r.1

theorem keepFlight_resume_setFlight (w v : Work) (s : State) :
    keepFlight (resume v (setFlight w s)) = keepFlight (resume v s) := by
  cases v with
  | absorb rest => exact keepFlight_absorbRun_setFlight w rest s
  | squeeze left out => exact keepFlight_squeezeRun_setFlight w left out s
  | respond | fault | finalize => rfl

/-- An edge at which the host only waits advances the command in progress (R71, R109). -/
theorem clockEdge_quiet {rpc : RoundsPerCycle} {p : Ports} {w : Work} {s : State} (hp : Quiet p)
    (hr : s.rstSampled = false) (ho : s.offer = .none) : clockEdge rpc p (setFlight w s) = advance rpc w (setFlight w s) := by
  obtain ⟨hrst, hvalid⟩ := hp
  have hb : ∀ t : State, t.offer = .none → breaksOffer p t = false := fun t ht => by simp [breaksOffer, ht]
  have hh : holdOffer p (releaseReset (setFlight w s)) = setFlight w s := by
    rw [holdOffer_kept (hb _ (by exact ho)), hvalid]
    apply State.ext_fields <;> simp [hr, ho]
  rw [clockEdge_eq hrst (hb _ (by exact ho)), hvalid, if_neg (by simp)]
  simp only [setFlight_flight, hh]

/-- The edges `ps` after what came before them, unless that stopped. -/
def edgesFrom (rpc : RoundsPerCycle) (ps : List Ports) : Host.Outcome State Fault Refusal → Host.Outcome State Fault Refusal
  | .next t => clockEdges rpc ps t
  | .fault f => .fault f
  | .refused r => .refused r

theorem edgesFrom_nil (rpc : RoundsPerCycle) (o : Host.Outcome State Fault Refusal) : edgesFrom rpc [] o = o := by
  cases o <;> rfl

theorem clockEdges_cons (rpc : RoundsPerCycle) (p : Ports) (ps : List Ports) (s : State) :
    clockEdges rpc (p :: ps) s = edgesFrom rpc ps (clockEdge rpc p s) := by
  simp only [clockEdges]
  cases clockEdge rpc p s <;> rfl

theorem clockEdges_append (rpc : RoundsPerCycle) (qs : List Ports) : ∀ (ps : List Ports) (s : State),
    clockEdges rpc (ps ++ qs) s = edgesFrom rpc qs (clockEdges rpc ps s)
  | [], _ => rfl
  | p :: ps, s => by
    rw [List.cons_append, clockEdges_cons, clockEdges_cons]
    cases clockEdge rpc p s with
    | next t => exact clockEdges_append rpc qs ps t
    | fault f => rfl
    | refused r => rfl

/-! ### One permutation in the round pipeline (R109) -/

theorem RoundsPerCycle.pos (rpc : RoundsPerCycle) : 1 ≤ RoundsPerCycle.toNat rpc := by cases rpc <;> decide

/-- PERM_CYCLES cycles are 24 rounds. -/
theorem permCycles_mul (rpc : RoundsPerCycle) : permCycles rpc * RoundsPerCycle.toNat rpc = 24 := by cases rpc <;> rfl

theorem advance_of_permsLeft {rpc : RoundsPerCycle} {w : Work} {rate : Byte} (s : State) (hw : w.permsLeft rate ≠ 0) :
    advance rpc w s = pipelineEdge rpc w s := by
  cases w with
  | respond | fault => exact absurd rfl hw
  | absorb | finalize | squeeze => rfl

/-- An edge of the pipeline before the last one, with `ir` rounds done. -/
theorem pipelineEdge_rounds {rpc : RoundsPerCycle} {w : Work} {s : State} {ir : BitVec 5}
    (h : ir.toNat + RoundsPerCycle.toNat rpc < 24) :
    pipelineEdge rpc w (setFlight w (setPipeline (roundsFrom 0 ir.toNat s.mem.lanes) ir s)) =
      .next (setFlight w (setPipeline (roundsFrom 0 (ir.toNat + RoundsPerCycle.toNat rpc) s.mem.lanes)
        (ir + BitVec.ofNat 5 (RoundsPerCycle.toNat rpc)) s)) := by
  rw [roundsFrom_add, Nat.zero_add]
  exact if_neg (Nat.not_le.mpr h)

/-- The last edge of the pipeline: the permutation is done and the command goes on. -/
theorem pipelineEdge_last {rpc : RoundsPerCycle} {w : Work} {s : State} {ir : BitVec 5} (hs : s.rcIdx = 0)
    (h : ir.toNat + RoundsPerCycle.toNat rpc = 24) :
    pipelineEdge rpc w (setFlight w (setPipeline (roundsFrom 0 ir.toNat s.mem.lanes) ir s)) =
      keepFlight (resume w (permuteBlock s)) := by
  have hk : roundsFrom ir.toNat (RoundsPerCycle.toNat rpc) (roundsFrom 0 ir.toNat s.mem.lanes) = keccakF s.mem.lanes := by
    rw [keccakF_eq, ← h, roundsFrom_add, Nat.zero_add]
  rw [← keepFlight_resume_setFlight w, ← storePermuted_keccakF hs, ← hk]
  exact if_pos h.ge

/-- From `ir` rounds done, the edges that are left of the permutation. -/
theorem clockEdges_rounds {rpc : RoundsPerCycle} {w : Work} {s : State} (hs : Quiescent s) (hw : w.permsLeft s.rate ≠ 0) :
    ∀ {ps : List Ports} {ir : BitVec 5}, (∀ p ∈ ps, Quiet p) → ps ≠ [] →
      ir.toNat + ps.length * RoundsPerCycle.toNat rpc = 24 →
      clockEdges rpc ps (setFlight w (setPipeline (roundsFrom 0 ir.toNat s.mem.lanes) ir s)) =
        keepFlight (resume w (permuteBlock s))
  | [], _, _, hne, _ => absurd rfl hne
  | p :: ps, ir, hq, _, hlen => by
    obtain ⟨hp, hps⟩ := List.forall_mem_cons.mp hq
    rw [clockEdges_cons, clockEdge_quiet (s := setPipeline (roundsFrom 0 ir.toNat s.mem.lanes) ir s) hp hs.sampled hs.offer,
      advance_of_permsLeft _ hw]
    rw [List.length_cons, Nat.succ_mul] at hlen
    cases ps with
    | nil => rw [pipelineEdge_last hs.pipeline.1 (by simpa using hlen), edgesFrom_nil]
    | cons q qs =>
      have hpos := RoundsPerCycle.pos rpc
      have hlt : ir.toNat + RoundsPerCycle.toNat rpc < 24 := by
        rw [List.length_cons, Nat.succ_mul] at hlen
        omega
      have hir : (ir + BitVec.ofNat 5 (RoundsPerCycle.toNat rpc)).toNat = ir.toNat + RoundsPerCycle.toNat rpc := by
        rw [BitVec.toNat_add, BitVec.toNat_ofNat]
        omega
      rw [pipelineEdge_rounds hlt, ← hir]
      exact clockEdges_rounds hs hw hps (by simp) (by omega)

/-- PERM_CYCLES edges run one permutation and what the command does right after it. -/
theorem clockEdges_permutation {rpc : RoundsPerCycle} {w : Work} {s : State} {ps : List Ports} (hs : Quiescent s)
    (hw : w.permsLeft s.rate ≠ 0) (hq : ∀ p ∈ ps, Quiet p) (hlen : ps.length = permCycles rpc) :
    clockEdges rpc ps (setFlight w s) = keepFlight (resume w (permuteBlock s)) := by
  have hcycles := permCycles_mul rpc
  have hne : ps ≠ [] := by
    rintro rfl
    simp [← hlen] at hcycles
  have hstart : setPipeline (roundsFrom 0 (0 : BitVec 5).toNat s.mem.lanes) 0 s = s := by
    apply State.ext_fields <;> simp [roundsFrom, hs.pipeline.1, hs.pipeline.2]
  have h := clockEdges_rounds (rpc := rpc) (ir := 0) hs hw hq hne (by simpa [hlen] using hcycles)
  rwa [hstart] at h

/-- With `n` permutations to go, the edges of R218's latency do what is left of the command. -/
theorem clockEdges_underway {rpc : RoundsPerCycle} : ∀ {n : Nat} {w : Work} {s : State} {ps : List Ports},
    Underway n w s → (∀ p ∈ ps, Quiet p) → ps.length = 1 + n * permCycles rpc →
      clockEdges rpc ps (setFlight w s) = finishWork w s
  | 0, w, s, ps, h, hq, hlen => by
    obtain ⟨p, rfl⟩ := List.length_eq_one_iff.mp (by simpa using hlen)
    rw [clockEdges_cons, edgesFrom_nil, clockEdge_quiet (hq p (by simp)) h.quiescent.sampled h.quiescent.offer]
    cases w with
    | respond | fault => rfl
    | absorb | finalize | squeeze => cases h.perms
  | n + 1, w, s, ps, h, hq, hlen => by
    have hw : w.permsLeft s.rate ≠ 0 := by simp [h.perms]
    have hpipe := h.quiescent.pipeline.1
    have hfinish := finish_resume hpipe (h.rate n.succ_ne_zero) hw
    rw [Nat.succ_mul] at hlen
    rw [← List.take_append_drop (permCycles rpc) ps, clockEdges_append,
      clockEdges_permutation h.quiescent hw (fun p hp => hq p (List.mem_of_mem_take hp)) (by simp; omega), ← hfinish]
    cases hv : resume w (permuteBlock s) with
    | error f => rfl
    | ok r =>
      obtain ⟨t, v⟩ := r
      exact clockEdges_underway (resume_underway h hv) (fun p hp => hq p (List.mem_of_mem_drop hp)) (by simp; omega)

/-! ### The whole command -/

/-- An idle core accepts the word on offer at the next edge with `rst` = 0 (R71). -/
theorem clockEdge_accepts {rpc : RoundsPerCycle} {w : Word} {s : State} (h : CoreIdle s) :
    clockEdge rpc (offerPorts w) s = keepFlight (beginWord w (releaseReset s)) := by
  obtain ⟨hf, hp, ho⟩ := h
  have hready : canAccept false s = true := canAccept_eq.trans (cmdReady_iff.mpr ⟨hf, hp, rfl⟩)
  have hclear : { releaseReset s with offer := .none } = releaseReset s := by
    apply State.ext_fields <;> simp [ho]
  rw [clockEdge_eq rfl (by simp [breaksOffer, ho]), if_pos ⟨rfl, hready⟩, hclear]
  rfl

/-- The edge that accepts a word and the edges of its latency give what the command level gives, a stop included. -/
theorem clockEdges_eq_execWord {rpc : RoundsPerCycle} {w : Word} {s : State} {ps : List Ports} (h : BetweenCommands s)
    (hi : CoreIdle s) (hq : ∀ p ∈ ps, Quiet p) (hlen : ps.length = latency rpc w s) :
    clockEdges rpc (offerPorts w :: ps) s = execWord w (releaseReset s) := by
  have hs : Quiescent (releaseReset s) := by
    obtain ⟨-, -, -, -, -, -, hpipe⟩ := h
    exact ⟨hpipe, rfl, hi.2.2⟩
  rw [clockEdges_cons, clockEdge_accepts hi, ← finish_beginWord (by exact h) hs]
  cases hb : beginWord w (releaseReset s) with
  | error f => rfl
  | ok r =>
    obtain ⟨t, v⟩ := r
    exact clockEdges_underway (beginWord_underway (by exact h) hs hb) hq hlen

theorem checked_answers {check : Option Cause} {s : State} {go : Host.Outcome State Fault Refusal}
    (h : check = none → ∃ t, go = .next t) : ∃ t, checked check s go = .next t := by
  cases check with
  | none => exact h rfl
  | some c => exact ⟨_, rfl⟩

theorem execInit_answers (rate delim : Byte) {s : State} (hm : s.mode ≠ .fault) :
    ∃ t, execInit rate delim s = .next t := by
  rw [execInit, faultGate_other hm]
  exact checked_answers fun _ => ⟨_, rfl⟩

theorem absorbCommand_answers (bs : List Byte) {s : State} (h : BetweenCommands s) (hm : s.mode ≠ .fault) :
    ∃ t, absorbCommand bs s = .next t := by
  rw [absorbCommand_eq bs hm]
  refine checked_answers fun hc => ?_
  have hmode : s.mode = .absorbing := by cases hs : s.mode <;> simp_all [absorbCheck]
  obtain ⟨t, ht, -⟩ := absorbBytes_ready (bs := bs) (betweenCommands_absorbReady h hmode)
  exact ⟨_, congrArg absorbAnswer ht⟩

theorem squeezeCommand_answers (n : Nat) {s : State} (h : BetweenCommands s) (hm : s.mode ≠ .fault) :
    ∃ t, squeezeCommand n s = .next t := by
  rw [squeezeCommand_eq n hm]
  refine checked_answers fun hc => ?_
  have hmode : s.mode = .squeezing := by cases hs : s.mode <;> simp_all [squeezeCheck]
  obtain ⟨t, out, ht, -⟩ := squeezeBytes_ready (n := n) (betweenCommands_squeezeReady h hmode)
  exact ⟨_, congrArg (squeezeAnswer []) ht⟩

theorem execFinalize_answers {s : State} (h : BetweenCommands s) (hm : s.mode ≠ .fault) :
    ∃ t, execFinalize s = .next t := by
  rw [execFinalize, faultGate_other hm]
  refine checked_answers fun hc => ?_
  have hmode : s.mode = .absorbing := by cases hs : s.mode <;> simp_all [finalizeCheck]
  obtain ⟨t, ht, -⟩ := padBlock_ready (betweenCommands_absorbReady h hmode)
  exact ⟨_, by rw [ht]⟩

/-- In a state that meets R32 every word is run to its response. -/
theorem execWord_answers (w : Word) {s : State} (h : BetweenCommands s) : ∃ t, execWord w s = .next t := by
  by_cases hm : s.mode = .fault
  · exact ⟨_, execWord_of_fault hm⟩
  · unfold execWord
    cases decode w with
    | error e => exact ⟨_, faultGate_other hm⟩
    | ok i =>
      cases i with
      | status => exact ⟨_, rfl⟩
      | init rate delim => exact execInit_answers rate delim hm
      | absorb1 | absorb2 | absorb3 => exact absorbCommand_answers _ h hm
      | finalize => exact execFinalize_answers h hm
      | squeeze1 | squeeze2 | squeeze3 => exact squeezeCommand_answers _ h hm

/-- Settles O46: the edges and the command level agree (`clockEdges_eq_execWord`), and the command level answers. -/
theorem clockEdgesComputeTheCommand : Obligations.ClockEdgesComputeTheCommand := by
  intro rpc w s ps h hi hq hlen
  obtain ⟨t, ht⟩ := execWord_answers w (s := releaseReset s) (by exact h)
  exact ⟨t, ht, (clockEdges_eq_execWord h hi hq hlen).trans ht⟩

end Sys2Proof.Machine

/-! ## What each command does to the registers and to S (R140 to R145)

`Executed s i t` lists the next states a command can answer; the frames and the invariants of commands are read off it. -/

namespace Sys2Proof.Machine

/-! ### The check of each command -/

/-- The check a command makes outside FAULT, and the cause it raises when it fails (R183). -/
def commandCheck (i : Instr) (s : State) : Option Cause :=
  match i with
  | .status => none
  | .init rate _ => if legalRate rate then none else some .invalidRate
  | .absorb1 _ | .absorb2 _ _ | .absorb3 _ _ _ => absorbCheck s.mode
  | .finalize => finalizeCheck s.mode
  | .squeeze1 | .squeeze2 | .squeeze3 => squeezeCheck s.mode

theorem commandCheck_absorb {i : Instr} (hi : absorbOperands i ≠ []) (s : State) :
    commandCheck i s = absorbCheck s.mode := by
  cases i with
  | absorb1 | absorb2 | absorb3 => rfl
  | _ => exact absurd rfl hi

theorem commandCheck_squeeze {i : Instr} (hi : squeezeCount i ≠ 0) (s : State) :
    commandCheck i s = squeezeCheck s.mode := by
  cases i with
  | squeeze1 | squeeze2 | squeeze3 => rfl
  | _ => exact absurd rfl hi

theorem mode_of_absorbCheck {m : Mode} (hm : m ≠ .fault) (hc : absorbCheck m = none) : m = .absorbing := by
  cases m with
  | absorbing => rfl
  | fault => exact absurd rfl hm
  | idle | squeezing => cases hc

theorem mode_of_finalizeCheck {m : Mode} (hm : m ≠ .fault) (hc : finalizeCheck m = none) : m = .absorbing := by
  cases m with
  | absorbing => rfl
  | fault => exact absurd rfl hm
  | idle | squeezing => cases hc

theorem mode_of_squeezeCheck {m : Mode} (hm : m ≠ .fault) (hc : squeezeCheck m = none) : m = .squeezing := by
  cases m with
  | squeezing => rfl
  | fault => exact absurd rfl hm
  | idle | absorbing => cases hc

/-! ### The next states of a command -/

/-- From `s` the command answers this next state. -/
inductive Executed (s : State) : Instr → State → Prop
  /-- STATUS (R141). -/
  | status : Executed s .status (respond (statusData s) s)
  /-- Any other command in FAULT (R182). -/
  | inFault {i : Instr} : s.mode = .fault → Executed s i (respond 0 s)
  /-- A check failed (R183). -/
  | raised {i : Instr} {c : Cause} : s.mode ≠ .fault → commandCheck i s = some c → Executed s i (raiseFault c s)
  /-- INIT (R142). -/
  | init {rate delim : Byte} : s.mode ≠ .fault → legalRate rate = true →
      Executed s (.init rate delim) (respond 0 (initialise rate delim s))
  /-- ABSORB (R143). -/
  | absorb {i : Instr} {u : State} : absorbOperands i ≠ [] → s.mode = .absorbing →
      absorbBytes (absorbOperands i) s = .ok u → Executed s i (respond 0 u)
  /-- FINALIZE (R144). -/
  | finalize {u : State} : s.mode = .absorbing → padBlock s = .ok u →
      Executed s .finalize (respond 0 (setMode .squeezing (permuteBlock u)))
  /-- SQUEEZE (R145). -/
  | squeeze {i : Instr} {u : State} {out : List Byte} : squeezeCount i ≠ 0 → s.mode = .squeezing →
      squeezeBytes (squeezeCount i) s = .ok (u, out) → Executed s i (respond (packBytes out) u)

theorem executed_of_absorb {i : Instr} {s t : State} (hi : absorbOperands i ≠ []) (h : exec i s = .next t) :
    Executed s i t := by
  rw [exec_absorb hi] at h
  rcases absorbCommand_cases h with ⟨hm, rfl⟩ | ⟨c, hc, hm, -, rfl⟩ | ⟨hm, u, hu, rfl⟩
  · exact .inFault hm
  · exact .raised hm ((commandCheck_absorb hi s).trans hc)
  · exact .absorb hi hm hu

theorem executed_of_squeeze {i : Instr} {s t : State} (hi : squeezeCount i ≠ 0) (h : exec i s = .next t) :
    Executed s i t := by
  rw [exec_squeeze hi] at h
  rcases squeezeCommand_cases h with ⟨hm, rfl⟩ | ⟨c, hc, hm, -, rfl⟩ | ⟨hm, u, out, hu, rfl⟩
  · exact .inFault hm
  · exact .raised hm ((commandCheck_squeeze hi s).trans hc)
  · exact .squeeze hi hm hu

theorem executed_of_finalize {s t : State} (h : exec .finalize s = .next t) : Executed s .finalize t := by
  rcases execFinalize_cases h with ⟨hm, rfl⟩ | ⟨c, hc, hm, -, rfl⟩ | ⟨hm, u, hu, rfl⟩
  · exact .inFault hm
  · exact .raised hm hc
  · exact .finalize hm hu

theorem executed_of_init {rate delim : Byte} {s t : State} (h : exec (.init rate delim) s = .next t) :
    Executed s (.init rate delim) t := by
  rcases execInit_cases h with ⟨hm, rfl⟩ | ⟨hm, hr, rfl⟩ | ⟨hm, hr, rfl⟩
  · exact .inFault hm
  · exact .raised hm (by simp [commandCheck, hr])
  · exact .init hm hr

/-- If a command answers a next state, it is one of those listed. -/
theorem executed_of_exec {i : Instr} {s t : State} (h : exec i s = .next t) : Executed s i t := by
  cases i with
  | status =>
    cases h
    exact .status
  | init => exact executed_of_init h
  | absorb1 | absorb2 | absorb3 => exact executed_of_absorb (by simp [absorbOperands]) h
  | finalize => exact executed_of_finalize h
  | squeeze1 | squeeze2 | squeeze3 => exact executed_of_squeeze (by simp [squeezeCount]) h

/-- If a word answers a next state, it is that of its command or, for a word that is no command, the fault entry or the
answer in FAULT. -/
theorem execWord_cases {w : Word} {s t : State} (h : execWord w s = .next t) :
    (∃ i, decode w = .ok i ∧ Executed s i t) ∨ (s.mode = .fault ∧ t = respond 0 s) ∨
      (s.mode ≠ .fault ∧ t = raiseFault .illegalCommand s) := by
  unfold execWord at h
  cases hd : decode w with
  | ok i =>
    rw [hd] at h
    exact .inl ⟨i, rfl, executed_of_exec h⟩
  | error e =>
    rw [hd] at h
    by_cases hm : s.mode = .fault
    · cases (faultGate_fault hm).symm.trans h
      exact .inr (.inl ⟨hm, rfl⟩)
    · cases (faultGate_other hm).symm.trans h
      exact .inr (.inr ⟨hm, rfl⟩)

/-! ### The frame of the registers -/

theorem permuteBlock_spongeOnly (s : State) : SpongeOnly s (permuteBlock s) := by simp [SpongeOnly]

/-- But for the data: a response after work on S alone, a fault entry, an INIT or a FINALIZE. -/
theorem Executed.outline {i : Instr} {s t : State} (h : Executed s i t) :
    (∃ data u, SpongeOnly s u ∧ t = respond data u) ∨
    (s.mode ≠ .fault ∧ ∃ c, t = raiseFault c s) ∨
    (s.mode ≠ .fault ∧ ∃ rate delim, i = .init rate delim ∧ t = respond 0 (initialise rate delim s)) ∨
    (s.mode = .absorbing ∧ i = .finalize ∧ ∃ u, SpongeOnly s u ∧ t = respond 0 (setMode .squeezing u)) := by
  cases h with
  | status => exact .inl ⟨_, s, .refl s, rfl⟩
  | inFault => exact .inl ⟨_, s, .refl s, rfl⟩
  | raised hm => exact .inr (.inl ⟨hm, _, rfl⟩)
  | init hm => exact .inr (.inr (.inl ⟨hm, _, _, rfl, rfl⟩))
  | absorb _ _ hu => exact .inl ⟨_, _, absorbBytes_spongeOnly hu, rfl⟩
  | finalize hm hu =>
    exact .inr (.inr (.inr ⟨hm, rfl, _, (padBlock_spongeOnly hu).1.trans (permuteBlock_spongeOnly _), rfl⟩))
  | squeeze _ _ hu => exact .inl ⟨_, _, squeezeBytes_spongeOnly hu, rfl⟩

/-- Settles O21, by the outline of what a command can answer. -/
theorem registerFrameOfEveryCommand : Obligations.RegisterFrameOfEveryCommand := by
  intro i s t h
  rcases (executed_of_exec h).outline with ⟨data, u, hs, rfl⟩ | ⟨hm, c, rfl⟩ | ⟨hm, rate, delim, rfl, rfl⟩ |
    ⟨hm, rfl, u, hs, rfl⟩
  · obtain ⟨hrate, hdelim, hmode, hfcode, hrcIdx, -, -, -, hrst, hoffer, hinputs⟩ := hs
    simp [*]
  · simp [hm]
  · simp [hm]
  · obtain ⟨hrate, hdelim, -, hfcode, hrcIdx, -, -, -, hrst, hoffer, hinputs⟩ := hs
    simp [*]

/-! ### The frame of S -/

theorem permsOf_absorb {i : Instr} (hi : absorbOperands i ≠ []) (s : State) :
    permsOf i s.mode s.rate s.offset =
      if s.mode = .absorbing then absorbPerms s.rate (absorbOperands i).length s.offset else 0 := by
  cases i with
  | absorb1 | absorb2 | absorb3 => rfl
  | _ => exact absurd rfl hi

theorem permsOf_squeeze {i : Instr} (hi : squeezeCount i ≠ 0) (s : State) :
    permsOf i s.mode s.rate s.offset =
      if s.mode = .squeezing then squeezePerms s.rate (squeezeCount i) s.offset else 0 := by
  cases i with
  | squeeze1 | squeeze2 | squeeze3 => rfl
  | _ => exact absurd rfl hi

/-- A command that absorbs does not squeeze. -/
theorem squeezeCount_of_absorb {i : Instr} (hi : absorbOperands i ≠ []) : squeezeCount i = 0 := by
  cases i with
  | absorb1 | absorb2 | absorb3 => rfl
  | _ => exact absurd rfl hi

/-- STATUS and any command in FAULT only answer (R141, R182). -/
theorem exec_status_or_fault {i : Instr} {s t : State} (h : exec i s = .next t) (hq : i = .status ∨ s.mode = .fault) :
    ∃ data, t = respond data s := by
  by_cases hi : i = .status
  · subst hi
    cases h
    exact ⟨_, rfl⟩
  · cases (exec_of_fault (hq.resolve_left hi) hi).symm.trans h
    exact ⟨_, rfl⟩

/-- A SQUEEZE that does not permute leaves S (R145). -/
theorem Executed.squeeze_frame {i : Instr} {s t : State} (h : Executed s i t) (hi : squeezeCount i ≠ 0)
    (hp : permsOf i s.mode s.rate s.offset = 0) : t.mem = s.mem ∧ t.work = s.work := by
  rw [permsOf_squeeze hi] at hp
  cases h with
  | status => exact absurd rfl hi
  | inFault => exact ⟨rfl, rfl⟩
  | raised => exact ⟨rfl, rfl⟩
  | init => exact absurd rfl hi
  | absorb ha => exact absurd (squeezeCount_of_absorb ha) hi
  | finalize => exact absurd rfl hi
  | squeeze _ hm hu =>
    rw [if_pos hm] at hp
    have hkept := squeezeBytes_frame hu hp
    exact hkept

/-- An ABSORB that does not permute writes only where its cursor passes (R143). -/
theorem Executed.absorb_frame {i : Instr} {s t : State} (h : Executed s i t) (hi : absorbOperands i ≠ [])
    (hp : permsOf i s.mode s.rate s.offset = 0) :
    (∀ a, (∀ k < (absorbOperands i).length, a ≠ s.offset.toNat + k) → t.mem.read a = s.mem.read a) ∧
      (s.mode = .absorbing → t.offset.toNat = s.offset.toNat + (absorbOperands i).length) := by
  rw [permsOf_absorb hi] at hp
  cases h with
  | status => exact absurd rfl hi
  | inFault hm => exact ⟨fun _ _ => rfl, fun hm' => by rw [hm] at hm'; cases hm'⟩
  | raised _ hc => exact ⟨fun _ _ => rfl, fun hm => by simp [commandCheck_absorb hi, hm, absorbCheck] at hc⟩
  | init => exact absurd rfl hi
  | absorb _ hm hu =>
    rw [if_pos hm] at hp
    obtain ⟨hread, hoffset⟩ := absorbBytes_frame hu hp
    exact ⟨hread, fun _ => hoffset⟩
  | finalize => exact absurd rfl hi
  | squeeze hq => exact absurd (squeezeCount_of_absorb hi) hq

/-- Settles O22, by the frames of the two loops. -/
theorem memoryFrameOfEveryCommand : Obligations.MemoryFrameOfEveryCommand := by
  intro i s t h
  have he := executed_of_exec h
  refine ⟨fun hq => ?_, he.squeeze_frame, fun hi hp => (he.absorb_frame hi hp).1, fun hi hp => (he.absorb_frame hi hp).2⟩
  obtain ⟨data, rfl⟩ := exec_status_or_fault h hq
  exact ⟨rfl, rfl, rfl⟩

end Sys2Proof.Machine

/-! ## The invariant of every edge (R32, R28, R109)

A command under way is kept good piece by piece: what a run between two permutations leaves (`GoesOn`), what the round
pipeline leaves (`pipelineEdge_good`), and then one edge (`clockEdge_good`). -/

namespace Sys2Proof.Machine

/-! ### Good states between commands -/

/-- The lane view of the cleared state array. -/
theorem zeros_lanes : Memory.zeros.lanes = Vector.replicate 25 0 := by
  apply Vector.ext
  intro i hi
  rw [getElem_lanes _ hi, Vector.getElem_replicate]
  simp [Memory.lane]

/-- Reset establishes R32's invariants (R211). -/
theorem betweenCommands_reset : BetweenCommands State.reset :=
  ⟨rfl, fun _ => ⟨rfl, rfl, rfl, rfl⟩, by simp [AbsorbingInv, State.reset], by simp [SqueezingInv, State.reset],
    by simp [FcodeInv, State.reset], by simp [WindowInv, State.reset], rfl, zeros_lanes.symm⟩

/-- A block just begun, in a mode that has a rate, meets R32. -/
theorem betweenCommands_blockStart {s : State} (hw : s.mem.wf = true) (hm : s.mode = .absorbing ∨ s.mode = .squeezing)
    (hr : 1 ≤ s.rate.toNat) (hr' : s.rate.toNat ≤ 199) (ho : s.offset = 0) (hf : s.fcode = 0) (hp : PipelineAtRest s) :
    BetweenCommands s := by
  have ho' : s.offset.toNat = 0 := by rw [ho]; rfl
  refine ⟨hw, fun hi => ?_, fun _ => ⟨hr, hr', by omega⟩, fun _ => ⟨hr, hr', by omega⟩, ⟨fun _ => hf, fun hi => ?_⟩,
    ⟨hr', by omega⟩, hp⟩ <;> rcases hm with hm | hm <;> rw [hm] at hi <;> cases hi

theorem BetweenCommands.fcodeInv {s : State} (h : BetweenCommands s) : FcodeInv s := by
  obtain ⟨-, -, -, -, hf, -⟩ := h
  exact hf

theorem BetweenCommands.pipelineAtRest {s : State} (h : BetweenCommands s) : PipelineAtRest s := by
  obtain ⟨-, -, -, -, -, -, hp⟩ := h
  exact hp

theorem SpongeOnly.fcodeInv {s t : State} (h : SpongeOnly s t) (hf : FcodeInv s) : FcodeInv t := by
  obtain ⟨-, -, hmode, hfcode, -⟩ := h
  rw [FcodeInv, hmode, hfcode]
  exact hf

theorem SpongeOnly.rate {s t : State} (h : SpongeOnly s t) : t.rate = s.rate := h.1

theorem SpongeOnly.mode {s t : State} (h : SpongeOnly s t) : t.mode = s.mode := by
  obtain ⟨-, -, hmode, -⟩ := h
  exact hmode

theorem SpongeOnly.rcIdx {s t : State} (h : SpongeOnly s t) : t.rcIdx = s.rcIdx := by
  obtain ⟨-, -, -, -, hrcIdx, -⟩ := h
  exact hrcIdx

theorem SpongeOnly.handshake {s t : State} (h : SpongeOnly s t) :
    t.rspPending = s.rspPending ∧ t.rstSampled = s.rstSampled := by
  obtain ⟨-, -, -, -, -, -, hrspPending, -, hrstSampled, -⟩ := h
  exact ⟨hrspPending, hrstSampled⟩

/-! ### The runs between permutations -/

/-- A run begun in `s` does not stop, leaves what its remaining work needs, and answers nothing yet. -/
def GoesOn (rpc : RoundsPerCycle) (s : State) (r : Except Fault (State × Work)) : Prop :=
  ∃ t w, r = .ok (t, w) ∧ FlightInv rpc w t ∧ t.rspPending = s.rspPending ∧ t.rstSampled = s.rstSampled

/-- What a run begun after some changes to S and the cursor leaves, it leaves of the whole run. -/
theorem GoesOn.of_spongeOnly {rpc : RoundsPerCycle} {s u : State} {r : Except Fault (State × Work)} (h : SpongeOnly s u)
    (hr : GoesOn rpc u r) : GoesOn rpc s r := by
  obtain ⟨t, w, hrun, hw, hp, hs⟩ := hr
  exact ⟨t, w, hrun, hw, hp.trans h.handshake.1, hs.trans h.handshake.2⟩

/-- A permutation just started. -/
theorem inPermutation_startPermutation {rpc : RoundsPerCycle} {m : Mode} {s : State} (hw : s.mem.wf = true)
    (hm : s.mode = m) (hr : 1 ≤ s.rate.toNat) (hf : FcodeInv s) (hwin : WindowInv s) :
    InPermutation rpc m (startPermutation s) :=
  ⟨hw, hm, hr, hf, hwin, Nat.zero_lt_succ _, Nat.dvd_zero _, rfl⟩

/-- XOR at a cursor inside the rate window (R143). -/
theorem absorbCursor_ready {b : Byte} {s : State} (h : AbsorbReady s) :
    ∃ u, absorbCursor b s = .ok u ∧ SpongeOnly s u ∧ u.mem.wf = true ∧ u.work = u.mem.lanes ∧
      u.offset.toNat = s.offset.toNat + 1 := by
  obtain ⟨hw, hr, ho⟩ := h
  have ho' : s.offset.toNat < 200 := by omega
  exact ⟨_, absorbCursor_ok ho', by simp [SpongeOnly], Memory.write_wf ho' hw, rfl, toNat_advance ho'⟩

/-- ABSORB goes on to its next permutation or its end (R143). -/
theorem absorbRun_goesOn (rpc : RoundsPerCycle) : ∀ {bs : List Byte} {s : State}, BetweenCommands s →
    s.mode = .absorbing → bs.length ≤ 3 → GoesOn rpc s (absorbRun bs s)
  | [], s, h, _, _ => ⟨s, .respond 0, rfl, h, rfl, rfl⟩
  | b :: bs, s, h, hm, hlen => by
    have hready := betweenCommands_absorbReady h hm
    obtain ⟨u, hu, hs, hw, hwork, ho⟩ := absorbCursor_ready (b := b) hready
    obtain ⟨-, hr, hos⟩ := hready
    rw [← hs.rate] at hr hos
    simp only [absorbRun, hu]
    refine .of_spongeOnly hs ?_
    cases hb : atBoundary u with
    | true =>
      have hperm := inPermutation_startPermutation (rpc := rpc) hw (hs.mode.trans hm) (by omega)
        (hs.fcodeInv h.fcodeInv) ⟨hr, by omega⟩
      exact ⟨_, _, rfl, ⟨hperm, atBoundary_iff.mp hb, Nat.le_of_succ_le_succ hlen⟩, rfl, rfl⟩
    | false =>
      have hne : u.offset.toNat ≠ u.rate.toNat := fun he => by
        simpa [hb] using atBoundary_iff.mpr (BitVec.eq_of_toNat_eq he)
      have hu' := betweenCommands_of_absorb h hm hs ⟨hw, hr, by omega⟩ hwork
      exact absorbRun_goesOn rpc hu' (hs.mode.trans hm) (Nat.le_of_succ_le hlen)

/-- SQUEEZE goes on to its next permutation or its end (R145). -/
theorem squeezeRun_goesOn (rpc : RoundsPerCycle) : ∀ {n : Nat} {out : List Byte} {s : State}, BetweenCommands s →
    s.mode = .squeezing → n + out.length ≤ 3 → GoesOn rpc s (squeezeRun n out s)
  | 0, out, s, h, _, _ => ⟨s, _, rfl, h, rfl, rfl⟩
  | n + 1, out, s, h, hm, hlen => by
    obtain ⟨hw, hr, hr', ho⟩ := betweenCommands_squeezeReady h hm
    simp only [squeezeRun]
    cases hb : atBoundary s with
    | true =>
      have hperm := inPermutation_startPermutation (rpc := rpc) hw hm hr h.fcodeInv ⟨hr', ho⟩
      exact ⟨_, _, rfl, ⟨hperm, atBoundary_iff.mp hb, by omega, hlen⟩, rfl, rfl⟩
    | false =>
      have hne : s.offset.toNat ≠ s.rate.toNat := fun he => by
        simpa [hb] using atBoundary_iff.mpr (BitVec.eq_of_toNat_eq he)
      have ho' : s.offset.toNat < 200 := by omega
      have hs : SpongeOnly s (setOffset (s.offset + 1) s) := by simp [SpongeOnly]
      have hu := betweenCommands_of_squeeze h hm hs
        ⟨hw, hr, hr', by simp only [setOffset_offset, setOffset_rate, toNat_advance ho']; omega⟩ h.pipelineAtRest.2
      rw [readCursor_ok ho']
      exact .of_spongeOnly hs (squeezeRun_goesOn rpc hu hm (by simp; omega))

/-! ### The beginning of a word -/

/-- A command whose check fails has the fault entry left; one whose check passes goes on as it does. -/
theorem beginChecked_goesOn {rpc : RoundsPerCycle} {check : Option Cause} {s : State} {go : Except Fault (State × Work)}
    (h : BetweenCommands s) (hm : s.mode ≠ .fault) (hgo : check = none → GoesOn rpc s go) :
    GoesOn rpc s (beginChecked check s go) := by
  cases check with
  | none => exact hgo rfl
  | some c => exact ⟨s, .fault c, rfl, ⟨h, hm⟩, rfl, rfl⟩

theorem beginInit_goesOn {rpc : RoundsPerCycle} {rate delim : Byte} {s : State} (h : BetweenCommands s)
    (hm : s.mode ≠ .fault) : GoesOn rpc s (beginInstr (.init rate delim) s) := by
  refine beginChecked_goesOn h hm fun hc => ?_
  have hr : legalRate rate = true := by simpa using hc
  exact ⟨_, _, rfl, betweenCommands_initialise h hm (legalRate_iff.mp hr), rfl, rfl⟩

theorem beginAbsorb_goesOn {rpc : RoundsPerCycle} {bs : List Byte} {s : State} (h : BetweenCommands s)
    (hm : s.mode ≠ .fault) (hlen : bs.length ≤ 3) :
    GoesOn rpc s (beginChecked (absorbCheck s.mode) s (absorbRun bs s)) := by
  exact beginChecked_goesOn h hm fun hc => absorbRun_goesOn rpc h (mode_of_absorbCheck hm hc) hlen

theorem beginSqueeze_goesOn {rpc : RoundsPerCycle} {n : Nat} {s : State} (h : BetweenCommands s)
    (hm : s.mode ≠ .fault) (hn : n ≤ 3) :
    GoesOn rpc s (beginChecked (squeezeCheck s.mode) s (squeezeRun n [] s)) := by
  exact beginChecked_goesOn h hm fun hc => squeezeRun_goesOn rpc h (mode_of_squeezeCheck hm hc) hn

theorem beginFinalize_goesOn {rpc : RoundsPerCycle} {s : State} (h : BetweenCommands s) (hm : s.mode ≠ .fault) :
    GoesOn rpc s (beginInstr .finalize s) := by
  refine beginChecked_goesOn h hm fun hc => ?_
  have hmode := mode_of_finalizeCheck hm hc
  have hready := betweenCommands_absorbReady h hmode
  obtain ⟨u, hu, hw, -⟩ := padBlock_ready hready
  obtain ⟨hs, ho⟩ := padBlock_spongeOnly hu
  obtain ⟨-, hr, hos⟩ := hready
  have hperm := inPermutation_startPermutation (rpc := rpc) hw (hs.mode.trans hmode) (by rw [hs.rate]; omega)
    (hs.fcodeInv h.fcodeInv) (by rw [WindowInv, hs.rate, ho]; omega)
  rw [hu]
  exact .of_spongeOnly hs ⟨_, _, rfl, hperm, rfl, rfl⟩

/-- An accepted word goes on to its first permutation, its fault entry or its response (R71, R140). -/
theorem beginWord_goesOn (rpc : RoundsPerCycle) (w : Word) {s : State} (h : BetweenCommands s) :
    GoesOn rpc s (beginWord w s) := by
  unfold beginWord
  by_cases hm : s.mode = .fault
  · rw [if_pos hm]
    exact ⟨s, _, rfl, h, rfl, rfl⟩
  · rw [if_neg hm]
    cases decode w with
    | error e => exact ⟨s, _, rfl, ⟨h, hm⟩, rfl, rfl⟩
    | ok i =>
      cases i with
      | status => exact ⟨s, _, rfl, h, rfl, rfl⟩
      | init => exact beginInit_goesOn h hm
      | absorb1 | absorb2 | absorb3 => exact beginAbsorb_goesOn h hm (by simp [absorbOperands])
      | finalize => exact beginFinalize_goesOn h hm
      | squeeze1 | squeeze2 | squeeze3 => exact beginSqueeze_goesOn h hm (by simp [squeezeCount])

/-! ### The round pipeline (R109) -/

/-- The mode in which this work waits for a permutation. -/
def Work.permutesIn : Work → Option Mode
  | .respond _ | .fault _ => none
  | .absorb _ | .finalize => some .absorbing
  | .squeeze _ _ => some .squeezing

theorem FlightInv.inPermutation {rpc : RoundsPerCycle} {w : Work} {m : Mode} {s : State} (h : FlightInv rpc w s)
    (hw : w.permutesIn = some m) : InPermutation rpc m s := by
  cases w with
  | respond | fault => cases hw
  | finalize =>
    cases hw
    exact h
  | absorb | squeeze =>
    cases hw
    exact h.1

/-- A permutation runs in ABSORBING or in SQUEEZING. -/
theorem Work.permutesIn_mode {w : Work} {m : Mode} (hw : w.permutesIn = some m) : m = .absorbing ∨ m = .squeezing := by
  cases w <;> cases hw <;> simp

/-- The rounds of one edge before the last (R109). -/
theorem PipelineRunning.next {rpc : RoundsPerCycle} {s : State} (h : PipelineRunning rpc s)
    (hlt : s.rcIdx.toNat + RoundsPerCycle.toNat rpc < 24) :
    PipelineRunning rpc (setPipeline (roundsFrom s.rcIdx.toNat (RoundsPerCycle.toNat rpc) s.work)
      (s.rcIdx + BitVec.ofNat 5 (RoundsPerCycle.toNat rpc)) s) := by
  obtain ⟨-, hdvd, hwork⟩ := h
  have hir : (s.rcIdx + BitVec.ofNat 5 (RoundsPerCycle.toNat rpc)).toNat = s.rcIdx.toNat + RoundsPerCycle.toNat rpc := by
    rw [BitVec.toNat_add, BitVec.toNat_ofNat]
    omega
  refine ⟨by rw [setPipeline_rcIdx, hir]; exact hlt, ?_, ?_⟩
  · rw [setPipeline_rcIdx, hir]
    exact hdvd.add (Nat.dvd_refl _)
  · rw [setPipeline_rcIdx, setPipeline_work, setPipeline_mem, hir, roundsFrom_add, Nat.zero_add, hwork]

/-- Rounds that leave a permutation running leave what the command's remaining work needs. -/
theorem FlightInv.setPipeline {rpc : RoundsPerCycle} {w : Work} {m : Mode} {s : State} {a : Lanes} {ir : BitVec 5}
    (h : FlightInv rpc w s) (hw : w.permutesIn = some m) (hrun : PipelineRunning rpc (setPipeline a ir s)) :
    FlightInv rpc w (setPipeline a ir s) := by
  obtain ⟨hwf, hmode, hrate, hfcode, hwin, -⟩ := h.inPermutation hw
  have hperm : InPermutation rpc m (Machine.setPipeline a ir s) := ⟨hwf, hmode, hrate, hfcode, hwin, hrun⟩
  cases w with
  | respond | fault => cases hw
  | finalize =>
    cases hw
    exact hperm
  | absorb | squeeze =>
    cases hw
    exact ⟨hperm, h.2⟩

/-- A command whose permutation is done goes on to its next permutation or its end. -/
theorem resume_goesOn {rpc : RoundsPerCycle} {w : Work} {m : Mode} {s : State} (a : Lanes) (h : FlightInv rpc w s)
    (hw : w.permutesIn = some m) : GoesOn rpc s (resume w (storePermuted (Memory.ofLanes a) a s)) := by
  obtain ⟨-, hmode, hr, hfcode, hwin, -⟩ := h.inPermutation hw
  have hm := Work.permutesIn_mode hw
  have hf : s.fcode = 0 := hfcode.1 (by rcases hm with rfl | rfl <;> simp [hmode])
  have hrest : PipelineAtRest (storePermuted (Memory.ofLanes a) a s) := ⟨rfl, (Memory.lanes_ofLanes a).symm⟩
  have hblock : BetweenCommands (storePermuted (Memory.ofLanes a) a s) :=
    betweenCommands_blockStart (Memory.ofLanes_wf a) (by rw [← hmode] at hm; exact hm) hr hwin.1 rfl hf hrest
  cases w with
  | respond | fault => cases hw
  | absorb rest =>
    cases hw
    obtain ⟨-, -, hlen⟩ := h
    exact absorbRun_goesOn rpc hblock hmode (Nat.le_succ_of_le hlen)
  | finalize =>
    have hdone : BetweenCommands (setMode .squeezing (storePermuted (Memory.ofLanes a) a s)) :=
      betweenCommands_blockStart (Memory.ofLanes_wf a) (.inr rfl) hr hwin.1 rfl hf hrest
    exact ⟨_, _, rfl, hdone, rfl, rfl⟩
  | squeeze left out =>
    cases hw
    obtain ⟨-, -, -, hlen⟩ := h
    exact squeezeRun_goesOn rpc hblock hmode hlen

/-! ### One edge -/

theorem stepInv_of_idle {rpc : RoundsPerCycle} {s : State} (hf : s.flight = none) :
    StepInv rpc s ↔ BetweenCommands s ∧ ResetInv s := by
  simp only [StepInv, hf]

theorem stepInv_of_busy {rpc : RoundsPerCycle} {s : State} {w : Work} (hf : s.flight = some w) :
    StepInv rpc s ↔ FlightInv rpc w s ∧ s.rspPending = false ∧ s.rstSampled = false := by
  simp only [StepInv, hf]

/-- Between commands, with the reset released, the invariant is R32. -/
theorem stepInv_of_betweenCommands {rpc : RoundsPerCycle} {s : State} (hf : s.flight = none) (h : BetweenCommands s)
    (hr : s.rstSampled = false) : StepInv rpc s :=
  (stepInv_of_idle hf).mpr ⟨h, fun hr' => by simp [hr] at hr'⟩

/-- What a run leaves of a command meets the invariant. -/
theorem keepFlight_good {rpc : RoundsPerCycle} {s : State} {r : Except Fault (State × Work)} (h : GoesOn rpc s r)
    (hp : s.rspPending = false) (hr : s.rstSampled = false) : ∃ t, keepFlight r = .next t ∧ StepInv rpc t := by
  obtain ⟨t, w, rfl, hw, hp', hr'⟩ := h
  exact ⟨_, rfl, (stepInv_of_busy (setFlight_flight w t)).mpr ⟨hw, hp'.trans hp, hr'.trans hr⟩⟩

/-- An edge of the round pipeline keeps the invariant. -/
theorem pipelineEdge_good {rpc : RoundsPerCycle} {w : Work} {m : Mode} {s : State} (h : StepInv rpc s)
    (hf : s.flight = some w) (hw : w.permutesIn = some m) : ∃ t, pipelineEdge rpc w s = .next t ∧ StepInv rpc t := by
  obtain ⟨hflight, hp, hr⟩ := (stepInv_of_busy hf).mp h
  unfold pipelineEdge
  by_cases hlast : Config.rounds ≤ s.rcIdx.toNat + RoundsPerCycle.toNat rpc
  · rw [if_pos hlast]
    exact keepFlight_good (resume_goesOn _ hflight hw) hp hr
  · rw [if_neg hlast]
    obtain ⟨-, -, -, -, -, hrun⟩ := hflight.inPermutation hw
    have hnext := hflight.setPipeline hw (hrun.next (Nat.lt_of_not_le hlast))
    refine ⟨_, rfl, (stepInv_of_busy (w := w) ?_).mpr ⟨hnext, hp, hr⟩⟩
    exact hf

/-- An edge with BUSY = 1 does not stop and keeps the invariant. -/
theorem advance_good {rpc : RoundsPerCycle} {w : Work} {s : State} (h : StepInv rpc s) (hf : s.flight = some w) :
    ∃ t, advance rpc w s = .next t ∧ StepInv rpc t := by
  obtain ⟨hflight, hp, hr⟩ := (stepInv_of_busy hf).mp h
  cases w with
  | respond data => exact ⟨_, rfl, stepInv_of_betweenCommands rfl hflight hr⟩
  | fault c => exact ⟨_, rfl, stepInv_of_betweenCommands rfl (betweenCommands_raiseFault hflight.1) hr⟩
  | absorb | finalize | squeeze => exact pipelineEdge_good h hf rfl

/-- Sampling `rst` = 0 and remembering the host's offer keep the invariant. -/
theorem StepInv.holdOffer_releaseReset {rpc : RoundsPerCycle} {s : State} (p : Ports) (h : StepInv rpc s) :
    StepInv rpc (holdOffer p (releaseReset s)) := by
  cases hf : s.flight with
  | none =>
    obtain ⟨hs, -⟩ := (stepInv_of_idle hf).mp h
    exact stepInv_of_betweenCommands hf hs rfl
  | some w =>
    obtain ⟨hflight, hp, -⟩ := (stepInv_of_busy hf).mp h
    exact (stepInv_of_busy (s := holdOffer p (releaseReset s)) hf).mpr ⟨hflight, hp, rfl⟩

/-- A clock edge from a good state leads to a good state, or is refused because the host breaks its offer. -/
theorem clockEdge_good {rpc : RoundsPerCycle} {p : Ports} {s : State} (h : StepInv rpc s) :
    (∃ t, clockEdge rpc p s = .next t ∧ StepInv rpc t) ∨
      (clockEdge rpc p s = .refused .hostDroppedOffer ∧ breaksOffer p s = true) := by
  cases hr : p.rst with
  | true => exact .inl ⟨_, clockEdge_reset hr, (stepInv_of_idle rfl).mpr ⟨betweenCommands_reset, fun _ => ⟨rfl, rfl, rfl⟩⟩⟩
  | false =>
    cases hb : breaksOffer p s with
    | true => exact .inr ⟨clockEdge_refused hr hb, rfl⟩
    | false =>
      refine .inl ?_
      rw [clockEdge_eq hr hb]
      by_cases ha : p.cmdValid = true ∧ canAccept false s = true
      · rw [if_pos ha]
        obtain ⟨hf, hp, -⟩ := cmdReady_iff.mp (canAccept_eq.symm.trans ha.2)
        obtain ⟨hs, -⟩ := (stepInv_of_idle hf).mp h
        exact keepFlight_good (beginWord_goesOn rpc p.cmdWord (by exact hs)) hp rfl
      · rw [if_neg ha]
        cases hf : s.flight with
        | some w => exact advance_good (h.holdOffer_releaseReset p) hf
        | none =>
          obtain ⟨hs, -⟩ := (stepInv_of_idle hf).mp h
          exact ⟨_, rfl, stepInv_of_betweenCommands hf hs rfl⟩

end Sys2Proof.Machine

/-! ## One step keeps what one edge and one command keep (O30, then O29, O31 and O28) -/

namespace Sys2Proof.Machine

/-! ### Every command keeps R32 -/

/-- R32 does not speak of the response. -/
theorem betweenCommands_respond {data : BitVec 24} {s : State} (h : BetweenCommands s) :
    BetweenCommands (respond data s) := h

/-- FINALIZE leaves a block just begun in SQUEEZING (R144). -/
theorem betweenCommands_finalize {s u : State} (h : BetweenCommands s) (hm : s.mode = .absorbing)
    (hu : padBlock s = .ok u) : BetweenCommands (setMode .squeezing (permuteBlock u)) := by
  obtain ⟨-, hr, ho⟩ := betweenCommands_absorbReady h hm
  obtain ⟨hs, -⟩ := padBlock_spongeOnly hu
  have hfcode : u.fcode = 0 := (hs.fcodeInv h.fcodeInv).1 (by rw [hs.mode, hm]; simp)
  rw [← hs.rate] at hr ho
  exact betweenCommands_blockStart (Memory.ofLanes_wf _) (.inr rfl) (Nat.one_le_of_lt ho) hr rfl hfcode
    ⟨hs.rcIdx.trans h.pipelineAtRest.1, rfl⟩

theorem Executed.betweenCommands {i : Instr} {s t : State} (h : Executed s i t) (hs : BetweenCommands s) :
    BetweenCommands t := by
  cases h with
  | status => exact hs
  | inFault => exact hs
  | raised => exact betweenCommands_raiseFault hs
  | init hm hr => exact betweenCommands_respond (betweenCommands_initialise hs hm (legalRate_iff.mp hr))
  | absorb _ hm hu =>
    obtain ⟨u, hu', hready, -, hwork, -⟩ := absorbBytes_ready (bs := absorbOperands i) (betweenCommands_absorbReady hs hm)
    cases hu.symm.trans hu'
    exact betweenCommands_respond
      (betweenCommands_of_absorb hs hm (absorbBytes_spongeOnly hu) hready (hwork hs.pipelineAtRest.2))
  | finalize hm hu => exact betweenCommands_respond (betweenCommands_finalize hs hm hu)
  | squeeze _ hm hu =>
    obtain ⟨u, out, hu', hready, hwork, -⟩ :=
      squeezeBytes_ready (n := squeezeCount i) (betweenCommands_squeezeReady hs hm)
    cases hu.symm.trans hu'
    exact betweenCommands_respond
      (betweenCommands_of_squeeze hs hm (squeezeBytes_spongeOnly hu) hready (hwork hs.pipelineAtRest.2))

theorem betweenCommands_execWord {w : Word} {s t : State} (h : execWord w s = .next t) (hs : BetweenCommands s) :
    BetweenCommands t := by
  rcases execWord_cases h with ⟨i, -, he⟩ | ⟨-, rfl⟩ | ⟨-, rfl⟩
  · exact he.betweenCommands hs
  · exact hs
  · exact betweenCommands_raiseFault hs

/-- An answered word is no longer in progress, and says nothing of the last sample of `rst`. -/
theorem execWord_handshake {w : Word} {s t : State} (h : execWord w s = .next t) :
    t.flight = none ∧ t.rstSampled = s.rstSampled := by
  rcases execWord_cases h with ⟨i, -, he⟩ | ⟨-, rfl⟩ | ⟨-, rfl⟩
  · rcases he.outline with ⟨data, u, hs, rfl⟩ | ⟨-, c, rfl⟩ | ⟨-, rate, delim, -, rfl⟩ | ⟨-, -, u, hs, rfl⟩
    · exact ⟨rfl, hs.handshake.2⟩
    · exact ⟨rfl, rfl⟩
    · exact ⟨rfl, rfl⟩
    · exact ⟨rfl, hs.handshake.2⟩
  · exact ⟨rfl, rfl⟩
  · exact ⟨rfl, rfl⟩

/-- A word that ends in FAULT leaves the configuration, the cursor and S (R32, 5, R184). -/
theorem execWord_to_fault {w : Word} {s t : State} (h : execWord w s = .next t) (hm : t.mode = .fault) :
    t.rate = s.rate ∧ t.delim = s.delim ∧ t.offset = s.offset ∧ t.mem = s.mem := by
  rcases execWord_cases h with ⟨i, -, he⟩ | ⟨-, rfl⟩ | ⟨-, rfl⟩
  · cases he with
    | status => exact ⟨rfl, rfl, rfl, rfl⟩
    | inFault => exact ⟨rfl, rfl, rfl, rfl⟩
    | raised => exact ⟨rfl, rfl, rfl, rfl⟩
    | init => cases hm
    | absorb _ hm' hu => simp [(absorbBytes_spongeOnly hu).mode, hm'] at hm
    | finalize => cases hm
    | squeeze _ hm' hu => simp [(squeezeBytes_spongeOnly hu).mode, hm'] at hm
  · exact ⟨rfl, rfl, rfl, rfl⟩
  · exact ⟨rfl, rfl, rfl, rfl⟩

/-- Settles O30, by the cases of what a word can answer. -/
theorem commandsPreserveTheStateInvariants : Obligations.CommandsPreserveTheStateInvariants :=
  ⟨betweenCommands_reset, fun _ _ _ hs h => ⟨betweenCommands_execWord h hs, execWord_to_fault h⟩⟩

/-! ### One step -/

/-- The step is a clock edge with the ports `p`, the actions `rest` still to come. -/
structure IsEdge (rpc : RoundsPerCycle) (s : State) (p : Ports) (rest : List HostAct) : Prop where
  step : hostStep rpc s = clockEdge rpc p { s with inputs := rest }
  reset : ResetNext s ↔ p.rst = true
  offered : offeredWord s = if p.cmdValid then some p.cmdWord else none

/-- The step runs the word `w` to its response, unless the host had offered another one. -/
structure IsCommand (rpc : RoundsPerCycle) (s : State) (w : Word) (rest : List HostAct) : Prop where
  step : hostStep rpc s =
    if breaksOffer (offerPorts w) s then .refused .hostDroppedOffer
    else execWord w { releaseReset s with inputs := rest, offer := .none }
  idle : s.flight = none
  reset : ¬ResetNext s
  offered : offeredWord s = some w

theorem hostStep_of_nil {rpc : RoundsPerCycle} {s : State} (h : s.inputs = []) :
    hostStep rpc s = clockEdge rpc (quietPorts s) s := by
  simp only [hostStep, h]

theorem hostStep_of_edge {rpc : RoundsPerCycle} {s : State} {p : Ports} {rest : List HostAct}
    (h : s.inputs = .edge p :: rest) : hostStep rpc s = clockEdge rpc p { s with inputs := rest } := by
  simp only [hostStep, h]

theorem hostStep_of_command {rpc : RoundsPerCycle} {s : State} {w : Word} {rest : List HostAct}
    (h : s.inputs = .command w :: rest) : hostStep rpc s = takeCommand rpc w rest s := by
  simp only [hostStep, h]

/-- With no action left, a step is an edge at which the host keeps up its offer (log entry 12). -/
theorem isEdge_of_nil {rpc : RoundsPerCycle} {s : State} (h : s.inputs = []) : IsEdge rpc s (quietPorts s) s.inputs where
  step := hostStep_of_nil h
  reset := by simp [ResetNext, h, quietPorts]
  offered := by
    rw [offeredWord, h]
    cases hw : waitingWord s <;> simp [quietPorts, hw]

/-- A command offered to a core that cannot accept it is an edge with the word on offer (log entry 13). -/
theorem isEdge_of_waiting {rpc : RoundsPerCycle} {s : State} {w : Word} {rest : List HostAct}
    (h : s.inputs = .command w :: rest) (ha : ¬canAccept false s = true) : IsEdge rpc s (offerPorts w) s.inputs where
  step := (hostStep_of_command h).trans (if_neg ha)
  reset := by simp [ResetNext, h, offerPorts]
  offered := by
    rw [offeredWord, h]
    rfl

/-- A step is a clock edge, or runs a whole command (log entry 1). -/
theorem hostStep_cases (rpc : RoundsPerCycle) (s : State) :
    (∃ p rest, IsEdge rpc s p rest) ∨ ∃ w rest, IsCommand rpc s w rest := by
  cases hi : s.inputs with
  | nil => exact .inl ⟨_, _, isEdge_of_nil hi⟩
  | cons act rest =>
    cases act with
    | edge p => exact .inl ⟨p, rest, hostStep_of_edge hi, by simp [ResetNext, hi], by rw [offeredWord, hi]⟩
    | command w =>
      by_cases ha : canAccept false s = true
      · obtain ⟨hf, -, -⟩ := cmdReady_iff.mp (canAccept_eq.symm.trans ha)
        exact .inr ⟨w, rest, (hostStep_of_command hi).trans (if_pos ha), hf, by simp [ResetNext, hi],
          by rw [offeredWord, hi]⟩
      · exact .inl ⟨_, _, isEdge_of_waiting hi ha⟩

/-- The host no longer offers what it must. -/
def OfferDropped (s : State) : Prop := s.offer = .broken ∨ ∃ w, s.offer = .waiting w ∧ offeredWord s ≠ some w

/-- Ports that break the offer are a host that dropped it (R216). -/
theorem offerDropped_of_breaksOffer {p : Ports} {s : State} (h : breaksOffer p s = true)
    (hp : offeredWord s = if p.cmdValid then some p.cmdWord else none) : OfferDropped s := by
  cases ho : s.offer with
  | none => simp [breaksOffer, ho] at h
  | broken => exact .inl ho
  | waiting w =>
    refine .inr ⟨w, ho, ?_⟩
    rw [hp]
    rcases (breaksOffer_waiting ho).mp h with hv | hw
    · simp [hv]
    · simp [hw]

/-- A step from a good state leads to a good state, or is refused because the host dropped its offer. -/
theorem hostStep_good {rpc : RoundsPerCycle} {s : State} (h : StepInv rpc s) :
    (∃ t, hostStep rpc s = .next t ∧ StepInv rpc t) ∨
      (hostStep rpc s = .refused .hostDroppedOffer ∧ OfferDropped s) := by
  rcases hostStep_cases rpc s with ⟨p, rest, he⟩ | ⟨w, rest, hc⟩
  · rw [he.step]
    exact (clockEdge_good (s := { s with inputs := rest }) h).imp id
      fun ⟨hr, hb⟩ => ⟨hr, offerDropped_of_breaksOffer (by exact hb) he.offered⟩
  · rw [hc.step]
    cases hb : breaksOffer (offerPorts w) s with
    | true => exact .inr ⟨rfl, offerDropped_of_breaksOffer hb hc.offered⟩
    | false =>
      obtain ⟨hs, -⟩ := (stepInv_of_idle hc.idle).mp h
      have hs' : BetweenCommands { releaseReset s with inputs := rest, offer := .none } := hs
      obtain ⟨t, ht⟩ := execWord_answers w hs'
      obtain ⟨hf, hr⟩ := execWord_handshake ht
      exact .inl ⟨t, ht, stepInv_of_betweenCommands hf (betweenCommands_execWord ht hs') hr⟩

/-- Settles O29: a step from a good state answers a good state (`hostStep_good`). -/
theorem everyStepKeepsTheInvariant : Obligations.EveryStepKeepsTheInvariant := by
  intro s t h ht
  rcases hostStep_good h with ⟨u, hu, hu'⟩ | ⟨hr, -⟩
  · cases hu.symm.trans ht
    exact hu'
  · cases hr.symm.trans ht

/-- Settles O31: a step from a good state is refused for a dropped offer only (`hostStep_good`). -/
theorem goodStatesNeverStop : Obligations.GoodStatesNeverStop := by
  intro s h
  rcases hostStep_good h with ⟨u, hu, -⟩ | ⟨hr, hd⟩
  · exact ⟨fun f hf => (by cases hu.symm.trans hf), fun r hr => (by cases hu.symm.trans hr)⟩
  · exact ⟨fun f hf => (by cases hr.symm.trans hf), fun _ _ => hd⟩

/-- Settles O28: reset establishes R32 (`betweenCommands_reset`), with nothing pending. -/
theorem resetStateMeetsTheInvariant : Obligations.ResetStateMeetsTheInvariant :=
  fun _ => ⟨betweenCommands_reset, fun _ => ⟨rfl, rfl, rfl⟩⟩

end Sys2Proof.Machine

/-! ## O25 and O26: who writes RATE, DELIM and MODE (R26, R34)

What a run, an edge and a step do to the control registers, in any state (`hostStep_controls`). -/

namespace Sys2Proof.Machine

/-! ### The control registers inside a command -/

/-- From `s` to `t`, RATE, DELIM, MODE and FCODE are kept. -/
def ControlsKept (s t : State) : Prop := t.rate = s.rate ∧ t.delim = s.delim ∧ t.mode = s.mode ∧ t.fcode = s.fcode

theorem ControlsKept.refl (s : State) : ControlsKept s s := ⟨rfl, rfl, rfl, rfl⟩

theorem ControlsKept.trans {s t u : State} (h : ControlsKept s t) (k : ControlsKept t u) : ControlsKept s u := by
  obtain ⟨h1, h2, h3, h4⟩ := h
  obtain ⟨k1, k2, k3, k4⟩ := k
  exact ⟨k1.trans h1, k2.trans h2, k3.trans h3, k4.trans h4⟩

theorem SpongeOnly.controlsKept {s t : State} (h : SpongeOnly s t) : ControlsKept s t := by
  obtain ⟨hrate, hdelim, hmode, hfcode, -⟩ := h
  exact ⟨hrate, hdelim, hmode, hfcode⟩

theorem absorbRun_controlsKept : ∀ {bs : List Byte} {s t : State} {w : Work}, absorbRun bs s = .ok (t, w) →
    ControlsKept s t
  | [], s, t, w, h => by
    cases h
    exact .refl s
  | b :: bs, s, t, w, h => by
    simp only [absorbRun] at h
    cases hc : absorbCursor b s with
    | error f => simp [hc] at h
    | ok u =>
      have hu : ControlsKept s u := by
        obtain ⟨-, rfl⟩ := absorbCursor_cases hc
        exact ⟨rfl, rfl, rfl, rfl⟩
      simp only [hc] at h
      cases hb : atBoundary u with
      | true =>
        rw [hb] at h
        cases h
        exact hu
      | false =>
        rw [hb] at h
        exact hu.trans (absorbRun_controlsKept h)

theorem squeezeRun_controlsKept : ∀ {n : Nat} {out : List Byte} {s t : State} {w : Work},
    squeezeRun n out s = .ok (t, w) → ControlsKept s t
  | 0, out, s, t, w, h => by
    cases h
    exact .refl s
  | n + 1, out, s, t, w, h => by
    simp only [squeezeRun] at h
    cases hb : atBoundary s with
    | true =>
      rw [hb] at h
      cases h
      exact ⟨rfl, rfl, rfl, rfl⟩
    | false =>
      rw [hb] at h
      cases hc : readCursor s with
      | error f => simp [hc] at h
      | ok r =>
        obtain ⟨-, rfl⟩ := readCursor_cases hc
        simp only [hc] at h
        have hkept := squeezeRun_controlsKept h
        exact hkept

/-- What follows a permutation writes no control register, but that FINALIZE goes to SQUEEZING (R144). -/
theorem resume_controls {w v : Work} {s t : State} (h : resume w s = .ok (t, v)) :
    ControlsKept s t ∨ (w = .finalize ∧ ControlsKept (setMode .squeezing s) t) := by
  cases w with
  | respond | fault =>
    cases h
    exact .inl (.refl s)
  | absorb rest => exact .inl (absorbRun_controlsKept h)
  | finalize =>
    cases h
    exact .inr ⟨rfl, .refl _⟩
  | squeeze left out => exact .inl (squeezeRun_controlsKept h)

theorem keepFlight_cases {r : Except Fault (State × Work)} {t : State} (h : keepFlight r = .next t) :
    ∃ u w, r = .ok (u, w) ∧ t = setFlight w u := by
  cases r with
  | error f => cases h
  | ok r =>
    cases h
    exact ⟨_, _, rfl, rfl⟩

theorem pipelineEdge_controls {rpc : RoundsPerCycle} {w : Work} {s t : State} (h : pipelineEdge rpc w s = .next t) :
    ControlsKept s t ∨ (w = .finalize ∧ ControlsKept (setMode .squeezing s) t) := by
  unfold pipelineEdge at h
  by_cases hlast : Config.rounds ≤ s.rcIdx.toNat + RoundsPerCycle.toNat rpc
  · rw [if_pos hlast] at h
    obtain ⟨u, v, hu, rfl⟩ := keepFlight_cases h
    have hstep := resume_controls hu
    exact hstep
  · rw [if_neg hlast] at h
    cases h
    exact .inl ⟨rfl, rfl, rfl, rfl⟩

/-- An edge with BUSY = 1 writes a control register only to end FINALIZE or to enter FAULT. -/
theorem advance_controls {rpc : RoundsPerCycle} {w : Work} {s t : State} (h : advance rpc w s = .next t) :
    ControlsKept s t ∨ (w = .finalize ∧ ControlsKept (setMode .squeezing s) t) ∨
      ∃ c, w = .fault c ∧ ControlsKept (raiseFault c s) t := by
  cases w with
  | respond data =>
    cases h
    exact .inl ⟨rfl, rfl, rfl, rfl⟩
  | fault c =>
    cases h
    exact .inr (.inr ⟨c, rfl, .refl _⟩)
  | absorb | finalize | squeeze => exact (pipelineEdge_controls h).imp id .inl

/-! ### The control registers at the beginning of a command -/

/-- The word of an INIT has OP 1 (R75). -/
theorem opField_of_decode_init {w : Word} {rate delim : Byte} (h : decode w = .ok (.init rate delim)) :
    w.extractLsb' 28 4 = 1 := by
  unfold decode decodeAbsorb decodeSqueeze at h
  repeat' split at h
  all_goals cases h
  assumption

/-- The word of a FINALIZE (R75). -/
theorem eq_of_decode_finalize {w : Word} (h : decode w = .ok .finalize) : w = 0x30000000 := by
  unfold decode decodeAbsorb decodeSqueeze at h
  repeat' split at h
  all_goals cases h
  rename_i hop hlow
  have hop : w.toNat / 2 ^ 28 % 2 ^ 4 = 3 := by rw [← toNat_opField, hop]; rfl
  have hlow : w.toNat / 2 ^ 0 % 2 ^ 28 = 0 := by rw [← toNat_extract, hlow]; rfl
  have hw : w.toNat = 0x30000000 := by omega
  exact BitVec.eq_of_toNat_eq hw

/-- A check leaves the state as it is; what was begun after it is what was begun. -/
theorem beginChecked_cases {check : Option Cause} {s t : State} {go : Except Fault (State × Work)} {v : Work}
    (h : beginChecked check s go = .ok (t, v)) : t = s ∨ go = .ok (t, v) := by
  cases check with
  | none => exact .inr h
  | some c =>
    cases h
    exact .inl rfl

/-- The beginning of a command other than INIT writes no control register. -/
theorem beginInstr_controls {i : Instr} {s t : State} {v : Work} (hm : s.mode ≠ .fault)
    (h : beginInstr i s = .ok (t, v)) :
    ControlsKept s t ∨ (t.mode = .absorbing ∧ ∃ rate delim, i = .init rate delim) := by
  cases i with
  | status =>
    cases h
    exact .inl (.refl s)
  | init rate delim =>
    rcases beginChecked_cases h with rfl | h
    · exact .inl (.refl t)
    · cases h
      exact .inr ⟨rfl, rate, delim, rfl⟩
  | absorb1 | absorb2 | absorb3 =>
    rcases beginChecked_cases h with rfl | h
    · exact .inl (.refl t)
    · exact .inl (absorbRun_controlsKept h)
  | finalize =>
    rcases beginChecked_cases h with rfl | h
    · exact .inl (.refl t)
    · cases hp : padBlock s with
      | error f => simp [hp] at h
      | ok u =>
        rw [hp] at h
        cases h
        have hkept := (padBlock_spongeOnly hp).1.controlsKept
        exact .inl hkept
  | squeeze1 | squeeze2 | squeeze3 =>
    rcases beginChecked_cases h with rfl | h
    · exact .inl (.refl t)
    · exact .inl (squeezeRun_controlsKept h)

/-- The edge that accepts a word writes a control register only for an INIT word, outside FAULT (log entry 7). -/
theorem beginWord_controls {w : Word} {s t : State} {v : Work} (h : beginWord w s = .ok (t, v)) :
    ControlsKept s t ∨ (s.mode ≠ .fault ∧ t.mode = .absorbing ∧ w.extractLsb' 28 4 = 1) := by
  unfold beginWord at h
  by_cases hm : s.mode = .fault
  · rw [if_pos hm] at h
    cases h
    exact .inl (.refl s)
  · rw [if_neg hm] at h
    cases hd : decode w with
    | error e =>
      rw [hd] at h
      cases h
      exact .inl (.refl s)
    | ok i =>
      rw [hd] at h
      rcases beginInstr_controls hm h with hk | ⟨hmode, rate, delim, rfl⟩
      · exact .inl hk
      · exact .inr ⟨hm, hmode, opField_of_decode_init hd⟩

/-! ### The control registers at a step -/

/-- What a step without a reset, at which this word is on offer, can do to RATE, DELIM, MODE and FCODE. -/
def ControlsStep (s : State) (offered : Option Word) (t : State) : Prop :=
  ControlsKept s t ∨
  (s.mode ≠ .fault ∧ t.mode = .absorbing ∧ ∃ w, offered = some w ∧ w.extractLsb' 28 4 = 1) ∨
  ((offered = some 0x30000000 ∧ s.mode = .absorbing ∨ s.flight = some .finalize) ∧
    ControlsKept (setMode .squeezing s) t) ∨
  ∃ c, (s.mode ≠ .fault ∨ s.flight = some (.fault c)) ∧ ControlsKept (raiseFault c s) t

theorem clockEdge_controls {rpc : RoundsPerCycle} {p : Ports} {s t : State} (h : clockEdge rpc p s = .next t)
    (hr : p.rst = false) : ControlsStep s (if p.cmdValid then some p.cmdWord else none) t := by
  rcases clockEdge_cases h with ⟨hr', -⟩ | ⟨-, -, hv, -, hk⟩ | ⟨-, -, w, hf, ha⟩ | ⟨-, -, -, -, rfl⟩
  · rw [hr] at hr'
    cases hr'
  · obtain ⟨u, w, hu, rfl⟩ := keepFlight_cases hk
    rcases beginWord_controls hu with hkept | ⟨hm, hmode, hop⟩
    · exact .inl hkept
    · exact .inr (.inl ⟨hm, hmode, p.cmdWord, if_pos hv, hop⟩)
  · rcases advance_controls ha with hkept | ⟨rfl, hkept⟩ | ⟨c, rfl, hkept⟩
    · exact .inl hkept
    · exact .inr (.inr (.inl ⟨.inr hf, hkept⟩))
    · exact .inr (.inr (.inr ⟨c, .inr hf, hkept⟩))
  · exact .inl ⟨rfl, rfl, rfl, rfl⟩

theorem execWord_controls {w : Word} {s t : State} (h : execWord w s = .next t) : ControlsStep s (some w) t := by
  rcases execWord_cases h with ⟨i, hd, he⟩ | ⟨-, rfl⟩ | ⟨hm, rfl⟩
  · rcases he.outline with ⟨data, u, hs, rfl⟩ | ⟨hm, c, rfl⟩ | ⟨hm, rate, delim, rfl, rfl⟩ | ⟨hm, rfl, u, hs, rfl⟩
    · exact .inl hs.controlsKept
    · exact .inr (.inr (.inr ⟨c, .inl hm, .refl _⟩))
    · exact .inr (.inl ⟨hm, rfl, w, rfl, opField_of_decode_init hd⟩)
    · obtain ⟨hrate, hdelim, -, hfcode⟩ := hs.controlsKept
      exact .inr (.inr (.inl ⟨.inl ⟨congrArg some (eq_of_decode_finalize hd), hm⟩, hrate, hdelim, rfl, hfcode⟩))
  · exact .inl ⟨rfl, rfl, rfl, rfl⟩
  · exact .inr (.inr (.inr ⟨_, .inl hm, .refl _⟩))

theorem hostStep_controls {rpc : RoundsPerCycle} {s t : State} (h : hostStep rpc s = .next t) (hr : ¬ResetNext s) :
    ControlsStep s (offeredWord s) t := by
  rcases hostStep_cases rpc s with ⟨p, rest, he⟩ | ⟨w, rest, hc⟩
  · rw [he.offered]
    have hrst : p.rst = false := by simpa [he.reset] using hr
    have hstep := clockEdge_controls (he.step.symm.trans h) hrst
    exact hstep
  · rw [hc.offered]
    rw [hc.step] at h
    cases hb : breaksOffer (offerPorts w) s with
    | true => simp [hb] at h
    | false =>
      rw [hb] at h
      have hstep := execWord_controls h
      exact hstep

/-- Settles O25: of the four things a step can do to the control registers, only INIT's writes RATE or DELIM. -/
theorem configurationIsFixedBetweenInits : Obligations.ConfigurationIsFixedBetweenInits := by
  intro s t h hr hw
  rcases hostStep_controls h hr with hk | ⟨-, -, w, hoff, hop⟩ | ⟨-, hk⟩ | ⟨c, -, hk⟩
  · exact ⟨hk.1, hk.2.1⟩
  · exact absurd hop (hw w hoff)
  · exact ⟨hk.1, hk.2.1⟩
  · exact ⟨hk.1, hk.2.1⟩

/-- A reset step leads to IDLE. -/
theorem hostStep_reset {rpc : RoundsPerCycle} {s t : State} (h : hostStep rpc s = .next t) (hr : ResetNext s) :
    t.mode = .idle := by
  rcases hostStep_cases rpc s with ⟨p, rest, he⟩ | ⟨w, rest, hc⟩
  · cases (clockEdge_reset (he.reset.mp hr)).symm.trans (he.step.symm.trans h)
    rfl
  · exact absurd hr hc.reset

theorem StepInv.mode_of_finalize {rpc : RoundsPerCycle} {s : State} (h : StepInv rpc s)
    (hf : s.flight = some .finalize) : s.mode = .absorbing := by
  obtain ⟨⟨-, hm, -⟩, -⟩ := (stepInv_of_busy hf).mp h
  exact hm

theorem StepInv.mode_of_fault {rpc : RoundsPerCycle} {s : State} {c : Cause} (h : StepInv rpc s)
    (hf : s.flight = some (.fault c)) : s.mode ≠ .fault := by
  obtain ⟨⟨-, hm⟩, -⟩ := (stepInv_of_busy hf).mp h
  exact hm

theorem Cause.code_ne_zero (c : Cause) : c.code ≠ 0 := by cases c <;> decide

/-- Settles O26: each change of MODE among what a step can do to the control registers is a legal one. -/
theorem modeChangesOnlyByTheLegalTransitions : Obligations.ModeChangesOnlyByTheLegalTransitions := by
  intro s t hinv h
  refine ⟨hostStep_reset h, fun hr => ?_⟩
  rcases hostStep_controls h hr with ⟨-, -, hmode, -⟩ | ⟨hm, hmode, hw⟩ | ⟨hcause, -, -, hmode, -⟩ |
    ⟨c, hcause, -, -, hmode, hfcode⟩
  · exact .inl hmode
  · exact .inr (.inl ⟨hm, hmode, hw⟩)
  · have hm : s.mode = .absorbing := hcause.elim And.right hinv.mode_of_finalize
    exact .inr (.inr (.inl ⟨hm, hmode, hcause.imp And.left id⟩))
  · have hm : s.mode ≠ .fault := hcause.elim id hinv.mode_of_fault
    exact .inr (.inr (.inr ⟨hm, hmode, fun h0 => c.code_ne_zero (hfcode.symm.trans h0)⟩))

end Sys2Proof.Machine

/-! ## O39 and O40: the lanes and the bits of S (R21, R22, R108) -/

namespace Sys2Proof.Machine

/-- Settles O39: SetLane then Lane gives KECCAK-F's lanes back (`Memory.lanes_ofLanes`). -/
theorem permuteIsKeccakFOnTheLanes : Obligations.PermuteIsKeccakFOnTheLanes := by
  intro s
  refine ⟨?_, fun x _ y _ => ?_, rfl, rfl⟩
  · rw [permute_mem]
    exact Memory.ofLanes_wf _
  · rw [permute_mem, Memory.lanes_ofLanes]

/-- Bit z of a lane is bit z mod 8 of its byte z div 8 (R22). -/
theorem Memory.getLsbD_lane (m : Memory) (i : Nat) {z : Nat} (hz : z < 64) :
    (m.lane i).getLsbD z = (m.read (8 * i + z / 8)).getLsbD (z % 8) := by
  have hmod : z % 8 < 8 := Nat.mod_lt _ (by decide)
  rw [← m.lane_byte i (k := z / 8) (by omega), BitVec.getLsbD_extractLsb', Nat.div_add_mod]
  simp [hmod]

/-- Settles O40: both clauses are `Memory.getLsbD_lane`. -/
theorem bitsOfLanesAreBitsOfBytes : Obligations.BitsOfLanesAreBitsOfBytes := by
  constructor
  · intro m x y z hx hy hz
    have hlane : laneAt m.lanes x y = m.lane (x + 5 * y) := by
      rw [laneAt, getElem_lanes m (by omega), Nat.mod_eq_of_lt hx, Nat.mod_eq_of_lt hy]
    rw [hlane, m.getLsbD_lane _ hz]
  · intro m rate _ _
    rw [m.getLsbD_lane _ (by omega), show (8 * ((rate - 1) % 8) + 7) / 8 = (rate - 1) % 8 by omega,
      show (8 * ((rate - 1) % 8) + 7) % 8 = 7 by omega, Nat.div_add_mod]

end Sys2Proof.Machine

/-! ## O43: acceptance at the handshake (R71, R73)

The remembered offer has no influence on what an edge does to a command in progress (`advance_dropOffer`). -/

namespace Sys2Proof.Machine

/-! ### The remembered offer decides nothing inside a command -/

/-- The state with no offer remembered. -/
def dropOffer (s : State) : State := { s with offer := .none }

theorem absorbRun_dropOffer : ∀ {bs : List Byte} {s t : State} {v : Work}, absorbRun bs s = .ok (t, v) →
    absorbRun bs (dropOffer s) = .ok (dropOffer t, v)
  | [], s, t, v, h => by
    cases h
    rfl
  | b :: bs, s, t, v, h => by
    simp only [absorbRun] at h ⊢
    cases hc : absorbCursor b s with
    | error f => simp [hc] at h
    | ok u =>
      have hc' : absorbCursor b (dropOffer s) = .ok (dropOffer u) := by
        obtain ⟨ho, rfl⟩ := absorbCursor_cases hc
        exact absorbCursor_ok ho
      have hb' : atBoundary (dropOffer u) = atBoundary u := rfl
      simp only [hc, hc', hb'] at h ⊢
      cases hb : atBoundary u with
      | true =>
        rw [hb] at h
        cases h
        rfl
      | false =>
        rw [hb] at h
        exact absorbRun_dropOffer h

theorem squeezeRun_dropOffer : ∀ {n : Nat} {out : List Byte} {s t : State} {v : Work},
    squeezeRun n out s = .ok (t, v) → squeezeRun n out (dropOffer s) = .ok (dropOffer t, v)
  | 0, out, s, t, v, h => by
    cases h
    rfl
  | n + 1, out, s, t, v, h => by
    have hb' : atBoundary (dropOffer s) = atBoundary s := rfl
    simp only [squeezeRun, hb'] at h ⊢
    cases hb : atBoundary s with
    | true =>
      rw [hb] at h
      cases h
      rfl
    | false =>
      rw [hb] at h
      cases hc : readCursor s with
      | error f => simp [hc] at h
      | ok r =>
        obtain ⟨ho, rfl⟩ := readCursor_cases hc
        rw [readCursor_ok (s := dropOffer s) ho]
        simp only [hc] at h
        exact squeezeRun_dropOffer (s := setOffset (s.offset + 1) s) h

theorem resume_dropOffer {w v : Work} {s t : State} (h : resume w s = .ok (t, v)) :
    resume w (dropOffer s) = .ok (dropOffer t, v) := by
  cases w with
  | respond | fault | finalize =>
    cases h
    rfl
  | absorb rest => exact absorbRun_dropOffer h
  | squeeze left out => exact squeezeRun_dropOffer h

theorem pipelineEdge_dropOffer {rpc : RoundsPerCycle} {w : Work} {s t : State} (h : pipelineEdge rpc w s = .next t) :
    pipelineEdge rpc w (dropOffer s) = .next (dropOffer t) := by
  unfold pipelineEdge at h ⊢
  by_cases hlast : Config.rounds ≤ s.rcIdx.toNat + RoundsPerCycle.toNat rpc
  · rw [if_pos hlast] at h
    obtain ⟨u, v, hu, rfl⟩ := keepFlight_cases h
    exact (if_pos hlast).trans (congrArg keepFlight (resume_dropOffer hu))
  · rw [if_neg hlast] at h
    cases h
    exact if_neg hlast

/-- An edge with BUSY = 1 does not look at the remembered offer (log entry 11). -/
theorem advance_dropOffer {rpc : RoundsPerCycle} {w : Work} {s t : State} (h : advance rpc w s = .next t) :
    advance rpc w (dropOffer s) = .next (dropOffer t) := by
  cases w with
  | respond | fault =>
    cases h
    rfl
  | absorb | finalize | squeeze => exact pipelineEdge_dropOffer h

/-! ### The handshake -/

theorem cmdReady_iff_busy {rst : Bool} {s : State} :
    cmdReady rst s = true ↔ s.busy = false ∧ s.rspPending = false ∧ rst = false := by
  rw [cmdReady_iff, State.busy, Option.isSome_eq_false_iff, Option.isNone_iff_eq_none]

/-- BUSY rises at an edge exactly when it accepts a word (R71). -/
theorem busy_rises_iff {rpc : RoundsPerCycle} {p : Ports} {s t : State} (h : clockEdge rpc p s = .next t) :
    (s.busy = false ∧ t.busy = true) ↔ (p.rst = false ∧ p.cmdValid = true ∧ cmdReady p.rst s = true) := by
  rcases clockEdge_cases h with ⟨hr, rfl⟩ | ⟨hr, -, hv, ha, hk⟩ | ⟨hr, -, w, hf, -⟩ | ⟨hr, -, hf, hna, rfl⟩
  · simp [hr, State.busy]
  · obtain ⟨u, w, -, rfl⟩ := keepFlight_cases hk
    rw [canAccept_eq] at ha
    obtain ⟨hf, -, -⟩ := cmdReady_iff.mp ha
    simp [hr, hv, ha, State.busy, hf]
  · simp [cmdReady_iff, State.busy, hf]
  · rw [canAccept_eq] at hna
    rw [hr]
    exact ⟨fun ⟨_, hb⟩ => by simp [State.busy, hf] at hb, fun ⟨_, ha⟩ => absurd ha hna⟩

/-- An edge with `rst` = 0 that can accept nothing advances the command in progress, or lets a response be taken. -/
theorem clockEdge_not_ready {rpc : RoundsPerCycle} {p : Ports} {s t : State} (h : clockEdge rpc p s = .next t)
    (hr : p.rst = false) (hc : cmdReady false s = false) :
    (∃ w, s.flight = some w ∧ advance rpc w (dropOffer (releaseReset s)) = .next (dropOffer t)) ∨
      (s.flight = none ∧ dropOffer t = { dropOffer (releaseReset s) with rspPending := s.rspPending && !p.rspReady }) := by
  rcases clockEdge_cases h with ⟨hr', -⟩ | ⟨-, -, -, ha, -⟩ | ⟨-, -, w, hf, ha⟩ | ⟨-, -, hf, -, rfl⟩
  · rw [hr] at hr'
    cases hr'
  · rw [canAccept_eq, hc] at ha
    cases ha
  · have hdropped := advance_dropOffer ha
    exact .inl ⟨w, hf, hdropped⟩
  · exact .inr ⟨hf, rfl⟩

/-- Settles O43: BUSY rises at the handshake (`busy_rises_iff`), and an edge that can accept nothing does not look at the
word on offer (`clockEdge_not_ready`). -/
theorem commandsAreAcceptedByTheHandshake : Obligations.CommandsAreAcceptedByTheHandshake := by
  refine ⟨fun rst s => cmdReady_iff_busy, fun rpc p s t h => ⟨busy_rises_iff h, fun hr hc q hq hready u hu => ?_⟩⟩
  rw [hr] at hc
  rcases clockEdge_not_ready h hr hc with ⟨w, hf, ht⟩ | ⟨hf, ht⟩ <;>
    rcases clockEdge_not_ready hu hq hc with ⟨v, hf', hu'⟩ | ⟨hf', hu'⟩
  · cases hf.symm.trans hf'
    have hsame := hu'.symm.trans ht
    injection hsame
  · cases hf.symm.trans hf'
  · cases hf.symm.trans hf'
  · rw [hready] at hu'
    exact hu'.trans ht.symm

end Sys2Proof.Machine

/-! ## O47: no response before the latency (R218) -/

namespace Sys2Proof.Machine

/-- Edges that do not end the permutation leave the command in progress. -/
theorem clockEdges_inside_rounds {rpc : RoundsPerCycle} {w : Work} {s : State} (hs : Quiescent s)
    (hw : w.permsLeft s.rate ≠ 0) : ∀ {ps : List Ports} {ir : BitVec 5}, (∀ p ∈ ps, Quiet p) →
      ir.toNat + ps.length * RoundsPerCycle.toNat rpc < 24 →
      ∃ t, clockEdges rpc ps (setFlight w (setPipeline (roundsFrom 0 ir.toNat s.mem.lanes) ir s)) = .next t ∧
        t.busy = true
  | [], _, _, _ => ⟨_, rfl, rfl⟩
  | p :: ps, ir, hq, hlen => by
    obtain ⟨hp, hps⟩ := List.forall_mem_cons.mp hq
    rw [List.length_cons, Nat.succ_mul] at hlen
    have hir : (ir + BitVec.ofNat 5 (RoundsPerCycle.toNat rpc)).toNat = ir.toNat + RoundsPerCycle.toNat rpc := by
      rw [BitVec.toNat_add, BitVec.toNat_ofNat]
      omega
    rw [clockEdges_cons, clockEdge_quiet (s := setPipeline (roundsFrom 0 ir.toNat s.mem.lanes) ir s) hp hs.sampled hs.offer,
      advance_of_permsLeft _ hw, pipelineEdge_rounds (by omega), ← hir]
    exact clockEdges_inside_rounds hs hw hps (by omega)

/-- Fewer edges than a permutation takes leave the command in progress. -/
theorem clockEdges_inside_permutation {rpc : RoundsPerCycle} {w : Work} {s : State} {ps : List Ports} (hs : Quiescent s)
    (hw : w.permsLeft s.rate ≠ 0) (hq : ∀ p ∈ ps, Quiet p) (hlen : ps.length < permCycles rpc) :
    ∃ t, clockEdges rpc ps (setFlight w s) = .next t ∧ t.busy = true := by
  have hrounds : (0 : BitVec 5).toNat + ps.length * RoundsPerCycle.toNat rpc < 24 := by
    have hlt := Nat.mul_lt_mul_of_pos_right hlen (RoundsPerCycle.pos rpc)
    rw [permCycles_mul] at hlt
    simpa using hlt
  have hstart : setPipeline (roundsFrom 0 (0 : BitVec 5).toNat s.mem.lanes) 0 s = s := by
    apply State.ext_fields <;> simp [roundsFrom, hs.pipeline.1, hs.pipeline.2]
  have h := clockEdges_inside_rounds (rpc := rpc) hs hw hq hrounds
  rwa [hstart] at h

/-- Before the last edge of R218's latency a command under way is still in progress. -/
theorem clockEdges_busy {rpc : RoundsPerCycle} : ∀ {n : Nat} {w : Work} {s t : State} {ps : List Ports},
    Underway n w s → (∀ p ∈ ps, Quiet p) → ps.length ≤ n * permCycles rpc →
      clockEdges rpc ps (setFlight w s) = .next t → t.busy = true
  | 0, w, s, t, ps, _, _, hlen, ht => by
    have hnil : ps = [] := List.length_eq_zero_iff.mp (by simpa using hlen)
    subst hnil
    cases ht
    rfl
  | n + 1, w, s, t, ps, h, hq, hlen, ht => by
    have hw : w.permsLeft s.rate ≠ 0 := by simp [h.perms]
    rw [Nat.succ_mul] at hlen
    by_cases hps : ps.length < permCycles rpc
    · obtain ⟨u, hu, hbusy⟩ := clockEdges_inside_permutation h.quiescent hw hq hps
      cases hu.symm.trans ht
      exact hbusy
    · rw [← List.take_append_drop (permCycles rpc) ps, clockEdges_append,
        clockEdges_permutation h.quiescent hw (fun p hp => hq p (List.mem_of_mem_take hp)) (by simp; omega)] at ht
      cases hv : resume w (permuteBlock s) with
      | error f => simp [hv, keepFlight, edgesFrom] at ht
      | ok r =>
        obtain ⟨u, v⟩ := r
        rw [hv] at ht
        exact clockEdges_busy (resume_underway h hv) (fun p hp => hq p (List.mem_of_mem_drop hp)) (by simp; omega) ht

/-- A run of edges that comes to an end passes through good states. -/
theorem clockEdges_good {rpc : RoundsPerCycle} : ∀ {ps : List Ports} {s t : State}, StepInv rpc s →
    clockEdges rpc ps s = .next t → StepInv rpc t
  | [], s, t, h, ht => by
    cases ht
    exact h
  | p :: ps, s, t, h, ht => by
    rw [clockEdges_cons] at ht
    rcases clockEdge_good (p := p) h with ⟨u, hu, hgood⟩ | ⟨hu, -⟩
    · rw [hu] at ht
      exact clockEdges_good hgood ht
    · rw [hu] at ht
      cases ht

/-- A run of edges that comes to an end has come to the end of its beginning. -/
theorem clockEdges_answers_of_append {rpc : RoundsPerCycle} {ps qs : List Ports} {s u : State}
    (h : clockEdges rpc (ps ++ qs) s = .next u) : ∃ t, clockEdges rpc ps s = .next t := by
  rw [clockEdges_append] at h
  cases ht : clockEdges rpc ps s with
  | next t => exact ⟨t, rfl⟩
  | fault f | refused r =>
    rw [ht] at h
    cases h

/-- A host with no offer to keep up does nothing at its own edges (log entry 12). -/
theorem quiet_quietPorts {s : State} (h : s.offer = .none) : Quiet (quietPorts s) := by
  simp [Quiet, quietPorts, waitingWord, h]

/-- An accepted word has not stopped before its latency is over, since it does not stop in the end (O46). -/
theorem clockEdges_answers {rpc : RoundsPerCycle} {w : Word} {s : State} {ps : List Ports} (h : BetweenCommands s)
    (hi : CoreIdle s) (hq : ∀ p ∈ ps, Quiet p) (hlen : ps.length ≤ latency rpc w s) :
    ∃ t, clockEdges rpc (offerPorts w :: ps) s = .next t := by
  obtain ⟨t, ht⟩ := execWord_answers w (s := releaseReset s) (by exact h)
  have hquiet : ∀ p ∈ ps ++ List.replicate (latency rpc w s - ps.length) (quietPorts s), Quiet p := by
    intro p hp
    rcases List.mem_append.mp hp with hp | hp
    · exact hq p hp
    · rw [List.eq_of_mem_replicate hp]
      exact quiet_quietPorts hi.2.2
  have hall := clockEdges_eq_execWord (rpc := rpc) (w := w) h hi hquiet (by simp; omega)
  exact clockEdges_answers_of_append (ps := offerPorts w :: ps) (hall.trans ht)

/-- A good state with a command in progress has no response pending (R29, R72). -/
theorem StepInv.silent_of_busy {rpc : RoundsPerCycle} {s : State} (h : StepInv rpc s) (hb : s.busy = true) :
    s.rspPending = false := by
  obtain ⟨w, hf⟩ := Option.isSome_iff_exists.mp hb
  obtain ⟨-, hp, -⟩ := (stepInv_of_busy hf).mp h
  exact hp

/-- From the edge that accepts a word to the last one before its response the core is good and busy. -/
theorem clockEdges_good_and_busy {rpc : RoundsPerCycle} {w : Word} {s t : State} {ps : List Ports}
    (h : BetweenCommands s) (hi : CoreIdle s) (hq : ∀ p ∈ ps, Quiet p) (hlen : ps.length < latency rpc w s)
    (ht : clockEdges rpc (offerPorts w :: ps) s = .next t) : StepInv rpc t ∧ t.busy = true := by
  have hs : BetweenCommands (releaseReset s) := h
  have hquiescent : Quiescent (releaseReset s) := ⟨h.pipelineAtRest, rfl, hi.2.2⟩
  obtain ⟨u, v, hu, hgoes⟩ := beginWord_goesOn rpc w hs
  have hgood : StepInv rpc (setFlight v u) := by
    obtain ⟨x, hx, hgood⟩ := keepFlight_good ⟨u, v, hu, hgoes⟩ hi.2.1 rfl
    rw [hu] at hx
    cases hx
    exact hgood
  rw [clockEdges_cons, clockEdge_accepts hi, hu] at ht
  have hunder := beginWord_underway hs hquiescent hu
  exact ⟨clockEdges_good hgood ht, clockEdges_busy hunder hq (Nat.le_of_lt_add_one (by rwa [Nat.add_comm])) ht⟩

/-- Settles O47: the run has not stopped (`clockEdges_answers`) and is still busy (`clockEdges_good_and_busy`). -/
theorem noResponseBeforeTheLatency : Obligations.NoResponseBeforeTheLatency := by
  intro rpc w s ps h hi hq hlen
  obtain ⟨t, ht⟩ := clockEdges_answers h hi hq hlen.le
  obtain ⟨hgood, hbusy⟩ := clockEdges_good_and_busy h hi hq hlen ht
  have hsilent := hgood.silent_of_busy hbusy
  exact ⟨t, ht, hbusy, hsilent, by simp [cmdReady, hbusy], by simp [rspValid, hsilent]⟩

end Sys2Proof.Machine

/-! ## O24: responses hide S (R35, R51) -/

namespace Sys2Proof.Machine

/-- Both outcomes are next states, with the same response word and the same control registers. -/
def AnswerAlike (o o' : Host.Outcome State Fault Refusal) : Prop :=
  ∃ t u, o = .next t ∧ o' = .next u ∧ u.rspReg = t.rspReg ∧ u.offset = t.offset ∧ u.mode = t.mode ∧ u.fcode = t.fcode ∧
    u.rate = t.rate ∧ u.delim = t.delim

/-- The same DATA from states that differ in S, the working register or RC_IDX alone. -/
theorem answerAlike_respond {data : BitVec 24} {t u : State} (hk : ControlsKept t u) (ho : u.offset = t.offset) :
    AnswerAlike (.next (respond data t)) (.next (respond data u)) := by
  obtain ⟨hrate, hdelim, hmode, hfcode⟩ := hk
  exact ⟨_, _, rfl, rfl, by rw [respond_rspReg, respond_rspReg, hfcode, hmode], ho, hmode, hfcode, hrate, hdelim⟩

/-- The check of a command reads no S, and neither does the fault entry. -/
theorem checked_alike {check : Option Cause} {s : State} {m : Memory} {go go' : Host.Outcome State Fault Refusal}
    (h : check = none → AnswerAlike go go') : AnswerAlike (checked check s go) (checked check (setMem m s) go') := by
  cases check with
  | none => exact h rfl
  | some c => exact ⟨_, _, rfl, rfl, rfl, rfl, rfl, rfl, rfl, rfl⟩

/-- Work on S in two states that differed in S alone leaves the control registers alike. -/
theorem controlsKept_of_setMem {s t u : State} {m : Memory} (ht : SpongeOnly s t) (hu : SpongeOnly (setMem m s) u) :
    ControlsKept t u := by
  obtain ⟨h1, h2, h3, h4⟩ := ht.controlsKept
  obtain ⟨k1, k2, k3, k4⟩ := hu.controlsKept
  exact ⟨k1.trans h1.symm, k2.trans h2.symm, k3.trans h3.symm, k4.trans h4.symm⟩

theorem ControlsKept.setMode {t u : State} (h : ControlsKept t u) (m : Mode) :
    ControlsKept (setMode m t) (setMode m u) := by
  obtain ⟨hrate, hdelim, -, hfcode⟩ := h
  exact ⟨hrate, hdelim, rfl, hfcode⟩

/-! ### ABSORB -/

/-- The cursor moves in the same way whatever the lanes are (R143). -/
theorem foldl_absorbReference_cursor (r : Nat) : ∀ (bs : List Byte) (a b : Lanes) (o : Nat),
    (bs.foldl (absorbReference r) (a, o)).2 = (bs.foldl (absorbReference r) (b, o)).2
  | [], _, _, _ => rfl
  | x :: bs, a, b, o => by
    simp only [List.foldl_cons, absorbReference]
    by_cases hb : o + 1 = r
    · rw [if_pos hb, if_pos hb]
      exact foldl_absorbReference_cursor r bs _ _ 0
    · rw [if_neg hb, if_neg hb]
      exact foldl_absorbReference_cursor r bs _ _ (o + 1)

theorem absorbAnswer_alike {bs : List Byte} {s : State} {m : Memory} (hs : AbsorbReady s)
    (hs' : AbsorbReady (setMem m s)) :
    AnswerAlike (absorbAnswer (absorbBytes bs s)) (absorbAnswer (absorbBytes bs (setMem m s))) := by
  obtain ⟨t, ht, -, -, -, he⟩ := absorbBytes_ready (bs := bs) hs
  obtain ⟨u, hu, -, -, -, he'⟩ := absorbBytes_ready (bs := bs) hs'
  have hcursor : u.offset.toNat = t.offset.toNat := by
    calc u.offset.toNat = _ := congrArg Prod.snd he'
      _ = _ := foldl_absorbReference_cursor _ bs _ _ _
      _ = t.offset.toNat := (congrArg Prod.snd he).symm
  rw [ht, hu]
  exact answerAlike_respond (controlsKept_of_setMem (absorbBytes_spongeOnly ht) (absorbBytes_spongeOnly hu))
    (BitVec.eq_of_toNat_eq hcursor)

/-! ### SQUEEZE -/

/-- A SQUEEZE that does not permute reads inside the rate window (R145, R146). -/
theorem squeezePerms_eq_zero {rate : Byte} (hr : rate.toNat ≤ 199) : ∀ {n : Nat} {o : Byte},
    squeezePerms rate n o = 0 → o.toNat ≤ rate.toNat → o.toNat + n ≤ rate.toNat
  | 0, _, _, ho => ho
  | n + 1, o, h, ho => by
    simp only [squeezePerms] at h
    by_cases hb : o = rate
    · rw [if_pos hb] at h
      cases h
    · rw [if_neg hb] at h
      have hne : o.toNat ≠ rate.toNat := fun he => hb (BitVec.eq_of_toNat_eq he)
      have hadv := toNat_advance (o := o) (by omega)
      have hrest := squeezePerms_eq_zero hr h (by omega)
      omega

/-- The first block of the output stream is the rate window of S (R147). -/
theorem squeezedByte_first_block {m : Memory} (hm : m.wf = true) {r j : Nat} (hj : j < r) (hr : r ≤ 199) :
    squeezedByte r m.lanes j = m.read j := by
  have hread : (Memory.ofLanes m.lanes).read j = lanesByte m.lanes j := by
    rw [Memory.read_ofLanes, if_pos (show j < Config.stateBytes by simp only [Config.stateBytes]; omega)]
  rw [squeezedByte, Nat.div_eq_of_lt hj, Nat.mod_eq_of_lt hj, keccakPower, ← hread, Memory.ofLanes_lanes hm]

/-- A SQUEEZE that does not permute outputs the bytes of S at its cursor (R145). -/
theorem squeezeBytes_window {n : Nat} {s : State} (hs : SqueezeReady s) (hn : n ≠ 0)
    (hp : squeezePerms s.rate n s.offset = 0) :
    ∃ t, squeezeBytes n s = .ok (t, (List.range n).map fun k => s.mem.read (s.offset.toNat + k)) ∧ SpongeOnly s t ∧
      t.offset.toNat = s.offset.toNat + n - s.rate.toNat * ((s.offset.toNat + n - 1) / s.rate.toNat) := by
  obtain ⟨t, out, ht, -, -, hout, hend⟩ := squeezeBytes_ready (n := n) hs
  obtain ⟨hw, -, hr, ho⟩ := hs
  have hwindow := squeezePerms_eq_zero hr hp ho
  have hbytes : out = (List.range n).map fun k => s.mem.read (s.offset.toNat + k) := by
    rw [hout]
    refine List.map_congr_left fun k hk => squeezedByte_first_block hw ?_ hr
    have hk := List.mem_range.mp hk
    omega
  exact ⟨t, hbytes ▸ ht, squeezeBytes_spongeOnly ht, (hend hn).2⟩

theorem squeezeAnswer_alike {n : Nat} {s : State} {m : Memory} (hs : SqueezeReady s) (hs' : SqueezeReady (setMem m s))
    (hn : n ≠ 0) (hp : squeezePerms s.rate n s.offset = 0) (hread : ∀ a, a < s.rate.toNat → m.read a = s.mem.read a) :
    AnswerAlike (squeezeAnswer [] (squeezeBytes n s)) (squeezeAnswer [] (squeezeBytes n (setMem m s))) := by
  obtain ⟨t, ht, hst, hot⟩ := squeezeBytes_window hs hn hp
  obtain ⟨u, hu, hsu, hou⟩ := squeezeBytes_window hs' hn hp
  obtain ⟨-, -, hr, ho⟩ := hs
  have hwindow := squeezePerms_eq_zero hr hp ho
  have hout : (List.range n).map (fun k => m.read (s.offset.toNat + k)) =
      (List.range n).map fun k => s.mem.read (s.offset.toNat + k) := by
    refine List.map_congr_left fun k hk => hread _ ?_
    have hk := List.mem_range.mp hk
    omega
  simp only [setMem_mem, setMem_offset] at hu
  rw [ht, hu, hout]
  exact answerAlike_respond (controlsKept_of_setMem hst hsu) (BitVec.eq_of_toNat_eq (hou.trans hot.symm))

/-! ### The commands -/

theorem execInit_alike (rate delim : Byte) {s : State} (m : Memory) (hm : s.mode ≠ .fault) :
    AnswerAlike (execInit rate delim s) (execInit rate delim (setMem m s)) := by
  rw [execInit, execInit, faultGate_other hm, faultGate_other (by exact hm)]
  exact checked_alike fun _ => ⟨_, _, rfl, rfl, rfl, rfl, rfl, rfl, rfl, rfl⟩

theorem absorbCommand_alike (bs : List Byte) {s : State} {m : Memory} (hm : s.mode ≠ .fault) (hs : BetweenCommands s)
    (hs' : BetweenCommands (setMem m s)) : AnswerAlike (absorbCommand bs s) (absorbCommand bs (setMem m s)) := by
  rw [absorbCommand_eq bs hm, absorbCommand_eq bs (by exact hm)]
  refine checked_alike fun hc => ?_
  have hmode := mode_of_absorbCheck hm hc
  exact absorbAnswer_alike (betweenCommands_absorbReady hs hmode) (betweenCommands_absorbReady hs' hmode)

theorem execFinalize_alike {s : State} {m : Memory} (hm : s.mode ≠ .fault) (hs : BetweenCommands s)
    (hs' : BetweenCommands (setMem m s)) : AnswerAlike (execFinalize s) (execFinalize (setMem m s)) := by
  rw [execFinalize, execFinalize, faultGate_other hm, faultGate_other (by exact hm)]
  refine checked_alike fun hc => ?_
  have hmode := mode_of_finalizeCheck hm hc
  obtain ⟨t, ht, -⟩ := padBlock_ready (betweenCommands_absorbReady hs hmode)
  obtain ⟨u, hu, -⟩ := padBlock_ready (betweenCommands_absorbReady hs' hmode)
  have hkept := controlsKept_of_setMem ((padBlock_spongeOnly ht).1.trans (permuteBlock_spongeOnly t))
    ((padBlock_spongeOnly hu).1.trans (permuteBlock_spongeOnly u))
  rw [ht, hu]
  exact answerAlike_respond (hkept.setMode .squeezing) (by simp only [setMode_offset, permuteBlock_offset])

theorem squeezeCommand_alike {n : Nat} {s : State} {m : Memory} (hm : s.mode ≠ .fault) (hs : BetweenCommands s)
    (hs' : BetweenCommands (setMem m s)) (hn : n ≠ 0)
    (hp : s.mode = .squeezing → squeezePerms s.rate n s.offset = 0)
    (hread : ∀ a, a < s.rate.toNat → m.read a = s.mem.read a) :
    AnswerAlike (squeezeCommand n s) (squeezeCommand n (setMem m s)) := by
  rw [squeezeCommand_eq n hm, squeezeCommand_eq n (by exact hm)]
  refine checked_alike fun hc => ?_
  have hmode := mode_of_squeezeCheck hm hc
  exact squeezeAnswer_alike (betweenCommands_squeezeReady hs hmode) (betweenCommands_squeezeReady hs' hmode) hn
    (hp hmode) hread

theorem exec_squeeze_alike {i : Instr} {s : State} {m : Memory} (hi : squeezeCount i ≠ 0) (hm : s.mode ≠ .fault)
    (hs : BetweenCommands s) (hs' : BetweenCommands (setMem m s)) (hp : permsOf i s.mode s.rate s.offset = 0)
    (hread : ∀ a, a < s.rate.toNat → m.read a = s.mem.read a) : AnswerAlike (exec i s) (exec i (setMem m s)) := by
  rw [exec_squeeze hi, exec_squeeze hi]
  rw [permsOf_squeeze hi] at hp
  exact squeezeCommand_alike hm hs hs' hi (fun hmode => by rwa [if_pos hmode] at hp) hread

/-- Settles O24: in FAULT, and command by command outside it. -/
theorem responsesHideTheState : Obligations.ResponsesHideTheState := by
  intro i s m hs hs' hsqueeze
  change AnswerAlike (exec i s) (exec i (setMem m s))
  by_cases hst : i = .status
  · rw [hst]
    exact answerAlike_respond (.refl s) rfl
  by_cases hm : s.mode = .fault
  · rw [exec_of_fault hm hst, exec_of_fault (by exact hm) hst]
    exact answerAlike_respond (.refl s) rfl
  cases i with
  | status => exact absurd rfl hst
  | init rate delim => exact execInit_alike rate delim m hm
  | absorb1 | absorb2 | absorb3 => exact absorbCommand_alike _ hm hs hs'
  | finalize => exact execFinalize_alike hm hs hs'
  | squeeze1 | squeeze2 | squeeze3 =>
    obtain ⟨hp, hread⟩ := hsqueeze (Nat.succ_ne_zero _)
    exact exec_squeeze_alike (Nat.succ_ne_zero _) hm hs hs' hp hread

end Sys2Proof.Machine

/-! ## O23: the capacity changes only by a permutation (R51, R146) -/

namespace Sys2Proof.Machine

/-- An ABSORB that does not permute stays inside the rate window (R143, R146). -/
theorem absorbPerms_eq_zero {rate : Byte} (hr : rate.toNat ≤ 199) : ∀ {n : Nat} {o : Byte},
    absorbPerms rate n o = 0 → o.toNat < rate.toNat → o.toNat + n < rate.toNat
  | 0, _, _, ho => ho
  | n + 1, o, h, ho => by
    simp only [absorbPerms] at h
    by_cases hb : o + 1 = rate
    · rw [if_pos hb] at h
      cases h
    · rw [if_neg hb] at h
      have ho' : o.toNat < 200 := by omega
      have hadv := toNat_advance ho'
      have hne : o.toNat + 1 ≠ rate.toNat := fun he => hb ((eq_rate_iff ho').mpr he)
      have hrest := absorbPerms_eq_zero hr h (by omega)
      omega

/-- An ABSORB that does not permute writes below RATE only (R51, R143). -/
theorem Executed.absorb_capacity {i : Instr} {s t : State} (h : Executed s i t) (hs : BetweenCommands s)
    (hi : absorbOperands i ≠ []) (hm : s.mode = .absorbing) (hp : permsOf i s.mode s.rate s.offset = 0) {a : Nat}
    (ha : s.rate.toNat ≤ a) : t.mem.read a = s.mem.read a := by
  refine (h.absorb_frame hi hp).1 a fun k hk => ?_
  obtain ⟨-, hr, ho⟩ := betweenCommands_absorbReady hs hm
  rw [permsOf_absorb hi, if_pos hm] at hp
  have hwindow := absorbPerms_eq_zero hr hp ho
  omega

/-- Settles O23: of the commands that do not permute, only INIT and ABSORB write S, ABSORB below RATE
(`Executed.absorb_capacity`). -/
theorem capacityChangesOnlyByPermute : Obligations.CapacityChangesOnlyByPermute := by
  intro i s t hs h hinit hp a ha
  have he := executed_of_exec h
  have habsorb := fun hi hm => he.absorb_capacity hs hi hm hp ha
  have hsqueeze := fun hi => he.squeeze_frame hi hp
  cases he with
  | status | inFault | raised => rfl
  | init => exact absurd rfl (hinit _ _)
  | absorb hi hm => exact habsorb hi hm
  | finalize hm => simp [permsOf, hm] at hp
  | squeeze hi => rw [(hsqueeze hi).1]

end Sys2Proof.Machine

/-! ## O50: the responses are a function of the accepted words (R153)

A command works on `commandView` of a state alone, and answers with it and a response word (`seen_execWord`). The edges
keep in step with the command level (`InStep`): what has been answered there is what has been taken here and what is
still owed, at most one response. One edge keeps this (`InStep.clockEdge`), and so does a run (`InStep.transcript`). -/

namespace Sys2Proof.Machine

/-! ### What a command works on -/

/-- The registers a command works on, with the pipeline at rest and all else as after a reset. -/
def commandView (s : State) : State :=
  { State.reset with
    mem := s.mem, rate := s.rate, delim := s.delim, offset := s.offset, mode := s.mode, fcode := s.fcode
    work := s.mem.lanes }

/-- What is seen of an answer: the registers a command works on, and the response word (R7). -/
def seen : Host.Outcome State Fault Refusal → Host.Outcome (State × Word) Fault Refusal
  | .next t => .next (commandView t, t.rspReg)
  | .fault f => .fault f
  | .refused r => .refused r

theorem seen_eq_next {o : Host.Outcome State Fault Refusal} {v : State} {r : Word} (h : seen o = .next (v, r)) :
    ∃ t, o = .next t ∧ commandView t = v ∧ t.rspReg = r := by
  cases o with
  | next t =>
    cases h
    exact ⟨t, rfl, rfl, rfl⟩
  | fault | refused => cases h

/-! ### The loops -/

theorem xorByte_commandView (a : Nat) (v : Byte) (s : State) :
    xorByte a v (commandView s) = (xorByte a v s).map commandView := by
  unfold xorByte
  split <;> rfl

theorem absorbByte_commandView (b : Byte) (s : State) :
    absorbByte b (commandView s) = (absorbByte b s).map commandView := by
  by_cases h : s.offset.toNat < 200
  · rw [absorbByte_ok h, absorbByte_ok (by exact h)]
    refine congrArg Except.ok (Eq.trans ?_ (apply_ite commandView _ _ _).symm)
    rfl
  · simp [absorbByte, absorbCursor, xorByte, h, Except.map, commandView]

theorem absorbBytes_commandView : ∀ (bs : List Byte) (s : State),
    absorbBytes bs (commandView s) = (absorbBytes bs s).map commandView
  | [], _ => rfl
  | b :: bs, s => by
    simp only [absorbBytes, absorbByte_commandView]
    cases absorbByte b s with
    | ok t => exact absorbBytes_commandView bs t
    | error f => rfl

theorem readCursor_commandView (s : State) :
    readCursor (commandView s) = (readCursor s).map (Prod.map commandView id) := by
  by_cases h : s.offset.toNat < 200
  · rw [readCursor_ok h, readCursor_ok (by exact h)]
    rfl
  · simp [readCursor, readByte, h, Except.map, commandView]

theorem squeezeByte_commandView (s : State) :
    squeezeByte (commandView s) = (squeezeByte s).map (Prod.map commandView id) := by
  unfold squeezeByte
  rw [← readCursor_commandView, apply_ite commandView]
  rfl

theorem squeezeBytes_commandView : ∀ (n : Nat) (s : State),
    squeezeBytes n (commandView s) = (squeezeBytes n s).map (Prod.map commandView id)
  | 0, _ => rfl
  | n + 1, s => by
    simp only [squeezeBytes, squeezeByte_commandView]
    cases squeezeByte s with
    | error f => rfl
    | ok r =>
      simp only [Except.map, Prod.map, squeezeBytes_commandView n r.1]
      cases squeezeBytes n r.1 <;> rfl

theorem padBlock_commandView (s : State) : padBlock (commandView s) = (padBlock s).map commandView := by
  have hfirst : xorByte (commandView s).offset.toNat (commandView s).delim (commandView s) =
      (xorByte s.offset.toNat s.delim s).map commandView := xorByte_commandView _ _ s
  unfold padBlock
  rw [hfirst]
  cases xorByte s.offset.toNat s.delim s with
  | ok t => exact xorByte_commandView (lastRateByte t) 0x80 t
  | error f => rfl

/-! ### The commands -/

theorem seen_absorbAnswer (r : Except Fault State) :
    seen (absorbAnswer (r.map commandView)) = seen (absorbAnswer r) := by
  cases r <;> rfl

theorem seen_squeezeAnswer (out : List Byte) (r : Except Fault (State × List Byte)) :
    seen (squeezeAnswer out (r.map (Prod.map commandView id))) = seen (squeezeAnswer out r) := by
  cases r <;> rfl

/-- What is left of a command works on `commandView` alone; inside a permutation that is the state in which it
started. -/
theorem seen_finishWork (w : Work) (s : State) : seen (finishWork w (commandView s)) = seen (finishWork w s) := by
  have hpermute : permuteBlock (commandView s) = commandView (permuteBlock s) := rfl
  cases w with
  | respond | fault | finalize => rfl
  | absorb rest => rw [finishWork, hpermute, absorbBytes_commandView, seen_absorbAnswer, finishWork]
  | squeeze left out => rw [finishWork, hpermute, squeezeBytes_commandView, seen_squeezeAnswer, finishWork]

theorem finishWork_alike {w : Work} {s t : State} (h : commandView s = commandView t) :
    seen (finishWork w s) = seen (finishWork w t) := by
  rw [← seen_finishWork w s, h, seen_finishWork]

theorem seen_checked {check : Option Cause} {s : State} {go go' : Host.Outcome State Fault Refusal}
    (h : seen go' = seen go) : seen (checked check (commandView s) go') = seen (checked check s go) := by
  cases check with
  | none => exact h
  | some c => rfl

theorem seen_absorbCommand (bs : List Byte) {s : State} (hm : s.mode ≠ .fault) :
    seen (absorbCommand bs (commandView s)) = seen (absorbCommand bs s) := by
  rw [absorbCommand_eq bs hm, absorbCommand_eq bs (by exact hm), absorbBytes_commandView]
  exact seen_checked (seen_absorbAnswer _)

theorem seen_squeezeCommand (n : Nat) {s : State} (hm : s.mode ≠ .fault) :
    seen (squeezeCommand n (commandView s)) = seen (squeezeCommand n s) := by
  rw [squeezeCommand_eq n hm, squeezeCommand_eq n (by exact hm), squeezeBytes_commandView]
  exact seen_checked (seen_squeezeAnswer [] _)

theorem seen_execInit (rate delim : Byte) {s : State} (hm : s.mode ≠ .fault) :
    seen (execInit rate delim (commandView s)) = seen (execInit rate delim s) := by
  rw [execInit, execInit, faultGate_other hm, faultGate_other (by exact hm)]
  exact seen_checked rfl

theorem seen_execFinalize {s : State} (hm : s.mode ≠ .fault) :
    seen (execFinalize (commandView s)) = seen (execFinalize s) := by
  rw [execFinalize, execFinalize, faultGate_other hm, faultGate_other (by exact hm), padBlock_commandView]
  refine seen_checked ?_
  cases padBlock s <;> rfl

/-- A word at the command level works on `commandView` alone. -/
theorem seen_execWord (w : Word) (s : State) : seen (execWord w (commandView s)) = seen (execWord w s) := by
  by_cases hm : s.mode = .fault
  · rw [execWord_of_fault hm, execWord_of_fault (by exact hm)]
    rfl
  · unfold execWord
    cases decode w with
    | error e =>
      simp only [illegalCommand, faultGate_other hm]
      rw [faultGate_other (by exact hm)]
      rfl
    | ok i =>
      cases i with
      | status => rfl
      | init rate delim => exact seen_execInit rate delim hm
      | absorb1 | absorb2 | absorb3 => exact seen_absorbCommand _ hm
      | finalize => exact seen_execFinalize hm
      | squeeze1 | squeeze2 | squeeze3 => exact seen_squeezeCommand _ hm

theorem execWord_alike {w : Word} {s t : State} (h : commandView s = commandView t) :
    seen (execWord w s) = seen (execWord w t) := by
  rw [← seen_execWord w s, h, seen_execWord]

/-! ### Edges inside a command -/

/-- The last edge of a permutation completes KECCAK-F of the lanes in which it started (R109). -/
theorem PipelineRunning.last {rpc : RoundsPerCycle} {s : State} (h : PipelineRunning rpc s)
    (hlast : 24 ≤ s.rcIdx.toNat + RoundsPerCycle.toNat rpc) :
    roundsFrom s.rcIdx.toNat (RoundsPerCycle.toNat rpc) s.work = keccakF s.mem.lanes := by
  obtain ⟨hlt, hdvd, hwork⟩ := h
  have hle : s.rcIdx.toNat + RoundsPerCycle.toNat rpc ≤ 24 :=
    Nat.le_of_lt_add_of_dvd (Nat.add_lt_add_right hlt _) (hdvd.add (Nat.dvd_refl _))
      (Dvd.intro_left _ (permCycles_mul rpc))
  rw [keccakF_eq, hlast.antisymm hle, roundsFrom_add, Nat.zero_add, ← hwork]

/-- The state that the end of a permutation stores is what `Permute` and `OFFSET <- 0` give in one step (R109, R146). -/
theorem storePermuted_eq_permuteBlock (s : State) :
    storePermuted (Memory.ofLanes (keccakF s.mem.lanes)) (keccakF s.mem.lanes) s =
      permuteBlock (setPipeline s.work 0 s) := by
  apply State.ext_fields <;> simp

theorem Work.permsLeft_ne_zero {w : Work} {m : Mode} (rate : Byte) (h : w.permutesIn = some m) :
    w.permsLeft rate ≠ 0 := by
  cases w with
  | respond | fault => cases h
  | absorb | finalize | squeeze => exact Nat.succ_ne_zero _

/-- An edge of the round pipeline leaves of a command what was left of it. -/
theorem pipelineEdge_seen {rpc : RoundsPerCycle} {w : Work} {m : Mode} {s t : State} (h : FlightInv rpc w s)
    (hf : s.flight = some w) (hw : w.permutesIn = some m) (ht : pipelineEdge rpc w s = .next t) :
    ∃ v, t.flight = some v ∧ seen (finishWork v t) = seen (finishWork w s) := by
  obtain ⟨-, -, hrate, -, -, hrun⟩ := h.inPermutation hw
  unfold pipelineEdge at ht
  by_cases hlast : Config.rounds ≤ s.rcIdx.toNat + RoundsPerCycle.toNat rpc
  · simp only [if_pos hlast, hrun.last hlast, storePermuted_eq_permuteBlock] at ht
    obtain ⟨u, v, hu, rfl⟩ := keepFlight_cases ht
    have hr : s.rate ≠ 0 := by
      rintro h0
      simp [h0] at hrate
    have hfinish := finish_resume (s := setPipeline s.work 0 s) rfl hr (w.permsLeft_ne_zero _ hw)
    rw [hu, finish_ok] at hfinish
    refine ⟨v, rfl, ?_⟩
    calc seen (finishWork v (setFlight v u)) = seen (finishWork v u) := finishWork_alike rfl
      _ = seen (finishWork w (setPipeline s.work 0 s)) := congrArg seen hfinish
      _ = seen (finishWork w s) := finishWork_alike rfl
  · rw [if_neg hlast] at ht
    cases ht
    exact ⟨w, hf, finishWork_alike rfl⟩

/-- An edge with BUSY = 1 finishes the command, or leaves of it what was left of it. -/
theorem advance_seen {rpc : RoundsPerCycle} {w : Work} {s t : State} (h : StepInv rpc s) (hf : s.flight = some w)
    (ht : advance rpc w s = .next t) :
    (t.flight = none ∧ t.rspPending = true ∧ finishWork w s = .next t) ∨
      ∃ v, t.flight = some v ∧ seen (finishWork v t) = seen (finishWork w s) := by
  cases w with
  | respond | fault =>
    cases ht
    exact .inl ⟨rfl, rfl, rfl⟩
  | absorb | finalize | squeeze =>
    obtain ⟨hflight, -⟩ := (stepInv_of_busy hf).mp h
    exact .inr (pipelineEdge_seen hflight hf rfl ht)

/-! ### The edges and the command level in step -/

/-- The edges have come to `e` and the command level, with the same words, to `c`; the responses `owed` are given there
and not yet taken here. -/
inductive InStep (rpc : RoundsPerCycle) (e c : State) : List Word → Prop
  /-- Between commands the response that waits, if one does, is owed (R72). -/
  | between : BetweenCommands e → e.flight = none → commandView e = commandView c →
      InStep rpc e c (rspWord false e).toList
  /-- Inside a command its response is owed. -/
  | inside {w : Work} {r : Word} : StepInv rpc e → e.flight = some w →
      seen (finishWork w e) = .next (commandView c, r) → InStep rpc e c [r]

theorem InStep.owed_length {rpc : RoundsPerCycle} {e c : State} {owed : List Word} (h : InStep rpc e c owed) :
    owed.length ≤ 1 := by
  cases h with
  | between => cases rspWord false e <;> simp
  | inside => exact Nat.le_refl 1

theorem rspWord_eq_none {s : State} (h : s.rspPending = false) : rspWord false s = none := by
  simp [rspWord, rspValid, h]

theorem takenAt_eq_none {p : Ports} {s : State} (h : s.rspPending = false) : takenAt p s = none := by
  simp [takenAt, rspValid, h]

/-- With no response waiting, nothing is owed between commands. -/
theorem InStep.idle {rpc : RoundsPerCycle} {e c : State} (hs : BetweenCommands e) (hf : e.flight = none)
    (hp : e.rspPending = false) (hview : commandView e = commandView c) : InStep rpc e c [] := by
  have hin := InStep.between (rpc := rpc) hs hf hview
  rwa [rspWord_eq_none hp] at hin

/-- A response just given is owed. -/
theorem InStep.answered {rpc : RoundsPerCycle} {e c : State} (hs : BetweenCommands e) (hf : e.flight = none)
    (hp : e.rspPending = true) (hview : commandView e = commandView c) : InStep rpc e c [e.rspReg] := by
  have hsome : rspWord false e = some e.rspReg := by simp [rspWord, rspValid, hp]
  have hin := InStep.between (rpc := rpc) hs hf hview
  rwa [hsome] at hin

/-- The command level runs the words `ws` and comes in step with the edges again: the responses owed before and the new
ones are those `taken` here and those owed after. -/
def CatchesUp (rpc : RoundsPerCycle) (e' c : State) (ws owed taken : List Word) : Prop :=
  ∃ c' new owed', stream ws c = .next (c', new) ∧ InStep rpc e' c' owed' ∧ owed ++ new = taken ++ owed'

/-- A response that waits is taken or goes on waiting (R72). -/
theorem InStep.wait {rpc : RoundsPerCycle} {p : Ports} {e c : State} {owed : List Word} (h : InStep rpc e c owed)
    (hr : p.rst = false) (hf : e.flight = none) :
    CatchesUp rpc { holdOffer p (releaseReset e) with rspPending := e.rspPending && !p.rspReady } c [] owed
      (takenAt p e).toList := by
  cases h with
  | inside _ hf' => cases hf.symm.trans hf'
  | between hs _ hview =>
    refine ⟨c, [], _, rfl, .between (by exact hs) hf hview, ?_⟩
    cases hp : e.rspPending <;> cases hready : p.rspReady <;> simp [takenAt, rspWord, rspValid, hr, hp, hready]

/-- A command in progress goes on, or gives the response that is owed (R109, R218). -/
theorem InStep.advance {rpc : RoundsPerCycle} {p : Ports} {w : Work} {e e' c : State} {owed : List Word}
    (h : InStep rpc e c owed) (hf : e.flight = some w)
    (ha : Machine.advance rpc w (holdOffer p (releaseReset e)) = .next e') :
    CatchesUp rpc e' c [] owed (takenAt p e).toList := by
  cases h with
  | between _ hf' => cases hf.symm.trans hf'
  | @inside w' r hs hf' hseen =>
    cases hf.symm.trans hf'
    have hs' := hs.holdOffer_releaseReset p
    obtain ⟨t, ht, hgood⟩ := advance_good hs' hf
    cases ht.symm.trans ha
    have hheld : seen (finishWork w (holdOffer p (releaseReset e))) = .next (commandView c, r) := by
      rw [← hseen]
      exact finishWork_alike rfl
    have hin : InStep rpc e' c [r] := by
      rcases advance_seen hs' hf ha with ⟨hfree, hpending, hfinish⟩ | ⟨v, hbusy, hv⟩
      · rw [hfinish] at hheld
        obtain ⟨_, ⟨⟩, hview, rfl⟩ := seen_eq_next hheld
        exact .answered ((stepInv_of_idle hfree).mp hgood).1 hfree hpending hview
      · exact .inside hgood hbusy (hv.trans hheld)
    exact ⟨c, [], [r], rfl, hin, by rw [takenAt_eq_none (hs.silent_of_busy (by simp [State.busy, hf]))]; rfl⟩

/-- An accepted word is owed its response (R71). -/
theorem InStep.accept {rpc : RoundsPerCycle} {p : Ports} {e e' c : State} {owed : List Word}
    (h : InStep rpc e c owed) (hf : e.flight = none) (hp : e.rspPending = false)
    (hk : keepFlight (beginWord p.cmdWord (dropOffer (releaseReset e))) = .next e') :
    CatchesUp rpc e' c [p.cmdWord] owed (takenAt p e).toList := by
  cases h with
  | inside _ hf' => cases hf.symm.trans hf'
  | between hs _ hview =>
    have hs' : BetweenCommands (dropOffer (releaseReset e)) := hs
    obtain ⟨t, ht, hgood⟩ := keepFlight_good (beginWord_goesOn rpc p.cmdWord hs') hp rfl
    cases ht.symm.trans hk
    obtain ⟨u, v, hu, rfl⟩ := keepFlight_cases hk
    have hfinish := finish_beginWord (w := p.cmdWord) hs' ⟨hs.pipelineAtRest, rfl, rfl⟩
    rw [hu, finish_ok] at hfinish
    have hword : seen (execWord p.cmdWord (dropOffer (releaseReset e))) = seen (execWord p.cmdWord c) :=
      execWord_alike hview
    obtain ⟨x, hx⟩ := execWord_answers p.cmdWord hs'
    obtain ⟨y, hy, -⟩ := seen_eq_next (hword.symm.trans (congrArg seen hx))
    have hrest : seen (finishWork v (setFlight v u)) = .next (commandView y, y.rspReg) := by
      calc seen (finishWork v (setFlight v u)) = seen (finishWork v u) := finishWork_alike rfl
        _ = seen (execWord p.cmdWord c) := by rw [hfinish, hword]
        _ = .next (commandView y, y.rspReg) := congrArg seen hy
    exact ⟨takeResponse y, [y.rspReg], [y.rspReg], by simp [stream, transact, hy], .inside hgood rfl hrest,
      by rw [takenAt_eq_none hp, rspWord_eq_none hp]⟩

/-- An edge without reset and the word that it accepts keep the edges and the command level in step. -/
theorem InStep.clockEdge {rpc : RoundsPerCycle} {p : Ports} {e e' c : State} {owed : List Word}
    (h : InStep rpc e c owed) (hr : p.rst = false) (he : Machine.clockEdge rpc p e = .next e') :
    CatchesUp rpc e' c (acceptedAt p e).toList owed (takenAt p e).toList := by
  rcases clockEdge_cases he with ⟨hr', -⟩ | ⟨-, -, hv, ha, hk⟩ | ⟨-, -, w, hf, ha⟩ | ⟨-, -, hf, hna, rfl⟩
  · cases hr.symm.trans hr'
  · obtain ⟨hf, hp, -⟩ := cmdReady_iff.mp (canAccept_eq.symm.trans ha)
    have hword : acceptedAt p e = some p.cmdWord := by simp [acceptedAt, hr, hv, ha]
    rw [hword]
    exact h.accept hf hp hk
  · have hword : acceptedAt p e = none := by simp [acceptedAt, canAccept, cmdReady, State.busy, hf]
    rw [hword]
    exact h.advance hf ha
  · have hword : acceptedAt p e = none := by simpa [acceptedAt, hr] using hna
    rw [hword]
    exact h.wait hr hf

/-! ### Runs -/

theorem stream_cons {w : Word} {ws : List Word} {s t u : State} {r : Word} {rs : List Word}
    (h : transact w s = .next (t, r)) (h' : stream ws t = .next (u, rs)) : stream (w :: ws) s = .next (u, r :: rs) := by
  simp only [stream, h, h']

/-- A stream begins with its first word. -/
theorem stream_cons_cases {w : Word} {ws : List Word} {s u : State} {qs : List Word}
    (h : stream (w :: ws) s = .next (u, qs)) :
    ∃ t r rs, transact w s = .next (t, r) ∧ stream ws t = .next (u, rs) ∧ qs = r :: rs := by
  simp only [stream] at h
  cases hw : transact w s with
  | fault | refused => simp [hw] at h
  | next a =>
    simp only [hw] at h
    cases hws : stream ws a.1 with
    | fault | refused => simp [hws] at h
    | next b =>
      rw [hws] at h
      cases h
      exact ⟨_, _, _, rfl, hws, rfl⟩

theorem stream_append : ∀ {ws ws' : List Word} {s t u : State} {rs rs' : List Word}, stream ws s = .next (t, rs) →
    stream ws' t = .next (u, rs') → stream (ws ++ ws') s = .next (u, rs ++ rs')
  | [], _, _, _, _, _, _, h, h' => by
    cases h
    exact h'
  | _ :: _, _, _, _, _, _, _, h, h' => by
    obtain ⟨t, r, rs, hw, hws, rfl⟩ := stream_cons_cases h
    exact stream_cons hw (stream_append hws h')

/-- One response for each word (R7). -/
theorem stream_length : ∀ {ws : List Word} {s t : State} {rs : List Word}, stream ws s = .next (t, rs) →
    rs.length = ws.length
  | [], _, _, _, h => by
    cases h
    rfl
  | _ :: _, _, _, _, h => by
    obtain ⟨t, r, rs, -, hws, rfl⟩ := stream_cons_cases h
    rw [List.length_cons, List.length_cons, stream_length hws]

/-- A run of edges begins with its first one. -/
theorem transcript_cons_cases {rpc : RoundsPerCycle} {p : Ports} {ps : List Ports} {s u : State} {ws rs : List Word}
    (h : transcript rpc (p :: ps) s = .next (u, ws, rs)) :
    ∃ t ws' rs', clockEdge rpc p s = .next t ∧ transcript rpc ps t = .next (u, ws', rs') ∧
      ws = (acceptedAt p s).toList ++ ws' ∧ rs = (takenAt p s).toList ++ rs' := by
  simp only [transcript] at h
  cases he : clockEdge rpc p s with
  | fault | refused => simp [he] at h
  | next t =>
    simp only [he] at h
    cases ht : transcript rpc ps t with
    | fault | refused => simp [ht] at h
    | next r =>
      rw [ht] at h
      cases h
      exact ⟨t, _, _, rfl, ht, rfl, rfl⟩

/-- A run of edges without reset and the words that it accepts keep the edges and the command level in step. -/
theorem InStep.transcript {rpc : RoundsPerCycle} : ∀ {ps : List Ports} {e e' c : State} {owed ws rs : List Word},
    InStep rpc e c owed → (∀ p ∈ ps, p.rst = false) → Machine.transcript rpc ps e = .next (e', ws, rs) →
      CatchesUp rpc e' c ws owed rs
  | [], e, e', c, owed, ws, rs, h, _, ht => by
    cases ht
    exact ⟨c, [], owed, rfl, h, List.append_nil owed⟩
  | p :: ps, e, e', c, owed, ws, rs, h, hr, ht => by
    obtain ⟨hrp, hrps⟩ := List.forall_mem_cons.mp hr
    obtain ⟨e₁, ws', rs', he, hps, rfl, rfl⟩ := transcript_cons_cases ht
    obtain ⟨c₁, new, owed₁, hc, hin, heq⟩ := h.clockEdge hrp he
    obtain ⟨c₂, new', owed₂, hc', hin', heq'⟩ := hin.transcript hrps hps
    refine ⟨c₂, new ++ new', owed₂, stream_append hc hc', hin', ?_⟩
    calc owed ++ (new ++ new') = (takenAt p e).toList ++ (owed₁ ++ new') := by
          rw [← List.append_assoc, heq, List.append_assoc]
      _ = (takenAt p e).toList ++ rs' ++ owed₂ := by rw [heq', List.append_assoc]

/-- Settles O50: a run begun with nothing owed ends with the responses of its words taken or owed (`InStep.transcript`),
at most one of them owed. -/
theorem responsesDependOnTheCommandsAlone : Obligations.ResponsesDependOnTheCommandsAlone := by
  intro rpc ps s t ws rs hs hf hp hr ht
  obtain ⟨u, all, owed, hu, hin, hall⟩ := (InStep.idle (rpc := rpc) (c := s) hs hf hp rfl).transcript hr ht
  rw [List.nil_append] at hall
  have hlength : ws.length = rs.length + owed.length := by rw [← stream_length hu, hall, List.length_append]
  have howed := hin.owed_length
  exact ⟨u, all, hu, by simp [hall], by omega, by omega⟩

end Sys2Proof.Machine

/-! ## Words and commands (O1 to O8, O57, O58)

The decoder, R84, R80 and the opcode table are four texts about one set of words: those that the encoder gives. Each is
compared with the encoder (`decode_eq_ok_iff`, `wellFormedWord_iff`, `illegalNumber_iff`, `matches_encode_eq`), and so with
the others. -/

namespace Sys2Proof

open Machine

/-! ### The must-be-zero fields, by the fields of R74 -/

/-- A field is 0 exactly when its number is. -/
theorem extract_eq_zero_iff (w : Word) (start len : Nat) :
    w.extractLsb' start len = 0#len ↔ w.toNat / 2 ^ start % 2 ^ len = 0 := by
  rw [← toNat_extract, BitVec.toNat_eq, BitVec.toNat_ofNat, Nat.zero_mod]

theorem z2Field_eq_zero_iff (w : Word) : z2Field w = 0#2 ↔ w.toNat / 2 ^ 26 % 2 ^ 2 = 0 := extract_eq_zero_iff w 26 2

theorem n1Field_eq_zero_iff (w : Word) : n1Field w = 0#2 ↔ w.toNat / 2 ^ 24 % 2 ^ 2 = 0 := extract_eq_zero_iff w 24 2

theorem byteField_eq_zero_iff (w : Word) (k : Nat) : byteField w k = 0#8 ↔ w.toNat / 2 ^ (8 * k) % 2 ^ 8 = 0 :=
  extract_eq_zero_iff w (8 * k) 8

theorem bits23to0_eq_zero_iff (w : Word) :
    w.extractLsb' 0 24 = 0#24 ↔ byteField w 2 = 0#8 ∧ byteField w 1 = 0#8 ∧ byteField w 0 = 0#8 := by
  simp only [extract_eq_zero_iff, byteField_eq_zero_iff]
  omega

theorem bits27to16_eq_zero_iff (w : Word) :
    w.extractLsb' 16 12 = 0#12 ↔ z2Field w = 0#2 ∧ n1Field w = 0#2 ∧ byteField w 2 = 0#8 := by
  simp only [extract_eq_zero_iff, z2Field_eq_zero_iff, n1Field_eq_zero_iff, byteField_eq_zero_iff]
  omega

theorem bits27to0_eq_zero_iff (w : Word) :
    w.extractLsb' 0 28 = 0#28 ↔
      z2Field w = 0#2 ∧ n1Field w = 0#2 ∧ byteField w 2 = 0#8 ∧ byteField w 1 = 0#8 ∧ byteField w 0 = 0#8 := by
  simp only [extract_eq_zero_iff, z2Field_eq_zero_iff, n1Field_eq_zero_iff, byteField_eq_zero_iff]
  omega

/-- A word with Z2 = 0 is made of its other fields. -/
theorem commandWord_of_fields {w : Word} (h : z2Field w = 0#2) :
    commandWord (opField w) (n1Field w) (byteField w 2) (byteField w 1) (byteField w 0) = w := by
  apply BitVec.eq_of_toNat_eq
  rw [z2Field_eq_zero_iff] at h
  rw [toNat_commandWord, toNat_opField, toNat_n1Field, toNat_byteField, toNat_byteField, toNat_byteField]
  omega

/-- A word is the command word of these fields exactly when it has them and Z2 = 0. -/
theorem commandWord_eq_iff {w : Word} {op : BitVec 4} {n1 : BitVec 2} {b2 b1 b0 : Byte} :
    commandWord op n1 b2 b1 b0 = w ↔
      opField w = op ∧ z2Field w = 0#2 ∧ n1Field w = n1 ∧ byteField w 2 = b2 ∧ byteField w 1 = b1 ∧ byteField w 0 = b0 := by
  constructor
  · rintro rfl
    simp
  · rintro ⟨rfl, hz, rfl, rfl, rfl, rfl⟩
    exact commandWord_of_fields hz

theorem decode_encode (i : Instr) : decode (encode i) = .ok i := by
  cases i with
  | status | finalize => simp [encode, decode, bits27to0_eq_zero_iff]
  | init => simp [encode, decode, bits27to16_eq_zero_iff]
  | absorb1 | absorb2 | absorb3 => simp [encode, decode, decodeAbsorb]
  | squeeze1 | squeeze2 | squeeze3 => simp [encode, decode, decodeSqueeze, bits23to0_eq_zero_iff]

theorem n1Field_cases (w : Word) : n1Field w = 0 ∨ n1Field w = 1 ∨ n1Field w = 2 ∨ n1Field w = 3 := by
  generalize n1Field w = n
  revert n
  decide

theorem n1Field_eq_zero {w : Word} (h3 : n1Field w ≠ 3) (h2 : n1Field w ≠ 2) (h1 : n1Field w ≠ 1) : n1Field w = 0 := by
  rcases n1Field_cases w with h | h | h | h
  · exact h
  · exact absurd h h1
  · exact absurd h h2
  · exact absurd h h3

theorem encode_of_decodeAbsorb {w : Word} {i : Instr} (hop : opField w = 2) (h : decodeAbsorb w = .ok i) :
    encode i = w := by
  unfold decodeAbsorb at h
  split_ifs at h with hz h3 h2 h1 hb hb
  · cases h
    simp [encode, commandWord_eq_iff, hop, not_not.mp hz, h2]
  · cases h
    simp [encode, commandWord_eq_iff, hop, not_not.mp hz, h1, hb]
  · cases h
    simp [encode, commandWord_eq_iff, hop, not_not.mp hz, n1Field_eq_zero h3 h2 h1, hb]

theorem encode_of_decodeSqueeze {w : Word} {i : Instr} (hop : opField w = 4) (h : decodeSqueeze w = .ok i) :
    encode i = w := by
  unfold decodeSqueeze at h
  split_ifs at h with hz h3 hb h2 h1
  all_goals have hbytes := (bits23to0_eq_zero_iff w).mp (not_not.mp hb)
  · cases h
    simp [encode, commandWord_eq_iff, hop, not_not.mp hz, h2, hbytes]
  · cases h
    simp [encode, commandWord_eq_iff, hop, not_not.mp hz, h1, hbytes]
  · cases h
    simp [encode, commandWord_eq_iff, hop, not_not.mp hz, n1Field_eq_zero h3 h2 h1, hbytes]

/-- No command has a second spelling (R75, R80). -/
theorem encode_of_decode {w : Word} {i : Instr} (h : decode w = .ok i) : encode i = w := by
  unfold decode at h
  split_ifs at h with h0 hz0 h1 hz1 h2 h3 hz3 h4
  · cases h
    simp [encode, commandWord_eq_iff, h0, (bits27to0_eq_zero_iff w).mp hz0]
  · cases h
    simp [encode, commandWord_eq_iff, h1, (bits27to16_eq_zero_iff w).mp hz1]
  · exact encode_of_decodeAbsorb h2 h
  · cases h
    simp [encode, commandWord_eq_iff, h3, (bits27to0_eq_zero_iff w).mp hz3]
  · exact encode_of_decodeSqueeze h4 h

/-- The decoder inverts the encoder: its commands are those whose word it is given. -/
theorem decode_eq_ok_iff {w : Word} {i : Instr} : decode w = .ok i ↔ encode i = w :=
  ⟨encode_of_decode, fun h => h ▸ decode_encode i⟩

/-- The fields of the words of commands (R75, R80). -/
theorem exists_encode_eq_iff {w : Word} :
    (∃ i, encode i = w) ↔ z2Field w = 0#2 ∧
      (((opField w = 0#4 ∨ opField w = 3#4) ∧ n1Field w = 0#2 ∧
          byteField w 2 = 0#8 ∧ byteField w 1 = 0#8 ∧ byteField w 0 = 0#8) ∨
        (opField w = 1#4 ∧ n1Field w = 0#2 ∧ byteField w 2 = 0#8) ∨
        (opField w = 2#4 ∧ ((n1Field w = 0#2 ∧ byteField w 2 = 0#8 ∧ byteField w 1 = 0#8) ∨
          (n1Field w = 1#2 ∧ byteField w 2 = 0#8) ∨ n1Field w = 2#2)) ∨
        (opField w = 4#4 ∧ (n1Field w = 0#2 ∨ n1Field w = 1#2 ∨ n1Field w = 2#2) ∧
          byteField w 2 = 0#8 ∧ byteField w 1 = 0#8 ∧ byteField w 0 = 0#8)) := by
  constructor
  · rintro ⟨i, rfl⟩
    cases i <;> simp [encode]
  · rintro ⟨hz, ⟨hop | hop, hn, hb⟩ | ⟨hop, hn, hb⟩ | ⟨hop, ⟨hn, hb⟩ | ⟨hn, hb⟩ | hn⟩ | ⟨hop, hn | hn | hn, hb⟩⟩
    · exact ⟨.status, by simp [encode, commandWord_eq_iff, *]⟩
    · exact ⟨.finalize, by simp [encode, commandWord_eq_iff, *]⟩
    · exact ⟨.init (byteField w 1) (byteField w 0), by simp [encode, commandWord_eq_iff, *]⟩
    · exact ⟨.absorb1 (byteField w 0), by simp [encode, commandWord_eq_iff, *]⟩
    · exact ⟨.absorb2 (byteField w 0) (byteField w 1), by simp [encode, commandWord_eq_iff, *]⟩
    · exact ⟨.absorb3 (byteField w 0) (byteField w 1) (byteField w 2), by simp [encode, commandWord_eq_iff, *]⟩
    · exact ⟨.squeeze1, by simp [encode, commandWord_eq_iff, *]⟩
    · exact ⟨.squeeze2, by simp [encode, commandWord_eq_iff, *]⟩
    · exact ⟨.squeeze3, by simp [encode, commandWord_eq_iff, *]⟩

/-- The bytes that a count of one leaves unused (R84). -/
theorem bits23to8_eq_zero_iff (w : Word) :
    w.extractLsb' 0 24 >>> 8 = 0#24 ↔ byteField w 2 = 0#8 ∧ byteField w 1 = 0#8 := by
  rw [BitVec.toNat_eq, BitVec.toNat_ushiftRight, toNat_extract, Nat.shiftRight_eq_div_pow, BitVec.toNat_ofNat]
  simp only [byteField_eq_zero_iff]
  omega

/-- The byte that a count of two leaves unused (R84). -/
theorem bits23to16_eq_zero_iff (w : Word) : w.extractLsb' 0 24 >>> 16 = 0#24 ↔ byteField w 2 = 0#8 := by
  rw [BitVec.toNat_eq, BitVec.toNat_ushiftRight, toNat_extract, Nat.shiftRight_eq_div_pow, BitVec.toNat_ofNat]
  simp only [byteField_eq_zero_iff]
  omega

/-- R84's predicate by the fields of R74. -/
theorem wellFormedWord_eq (w : Word) :
    wellFormedWord w =
      if opField w = 0x0 ∨ opField w = 0x3 then w.extractLsb' 0 28 == 0
      else if opField w = 0x1 then w.extractLsb' 16 12 == 0
      else if opField w = 0x2 then
        z2Field w == 0 && n1Field w != 3 && w.extractLsb' 0 24 >>> (8 * ((n1Field w).toNat + 1)) == 0
      else if opField w = 0x4 then z2Field w == 0 && n1Field w != 3 && w.extractLsb' 0 24 == 0
      else false := rfl

/-- R84's well-formed words are the words of commands. -/
theorem wellFormedWord_iff {w : Word} : wellFormedWord w = true ↔ ∃ i, encode i = w := by
  rw [exists_encode_eq_iff, wellFormedWord_eq]
  split_ifs with h0 h1 h2 h4
  · rcases h0 with h0 | h0 <;> simp [h0, bits27to0_eq_zero_iff]
  · simp [h1, bits27to16_eq_zero_iff]
  · rcases n1Field_cases w with hn | hn | hn | hn <;>
      simp [h2, hn, bits23to8_eq_zero_iff, bits23to16_eq_zero_iff, BitVec.ushiftRight_eq_zero]
  · rcases n1Field_cases w with hn | hn | hn | hn <;> simp [h4, hn, bits23to0_eq_zero_iff]
  · simp_all

/-- Settles O1: the fields of a command's word are its operands (`decode_encode`). -/
theorem decodeOfEncodeIsTheCommand : Obligations.DecodeOfEncodeIsTheCommand := decode_encode

/-- Settles O2, by the branches of the decoder (`encode_of_decode`). -/
theorem encodeOfDecodeIsTheWord : Obligations.EncodeOfDecodeIsTheWord := fun _ _ => encode_of_decode

/-- Settles O3: decoder and R84 accept the words of commands. -/
theorem decoderAcceptsExactlyTheWellFormed : Obligations.DecoderAcceptsExactlyTheWellFormed := by
  intro w
  simp only [decode_eq_ok_iff, wellFormedWord_iff]

/-! ### R80 and R81 -/

/-- The conditions of R80 and R81, bit by bit, on the word as a number. -/
def IllegalNumber (n : Nat) : Prop :=
  (n / 2 ^ 28 = 0 ∧ n % 2 ^ 28 ≠ 0) ∨ (n / 2 ^ 28 = 3 ∧ n % 2 ^ 28 ≠ 0) ∨
    (n / 2 ^ 28 = 1 ∧ n / 2 ^ 16 % 2 ^ 12 ≠ 0) ∨
    (n / 2 ^ 28 = 2 ∧ (n / 2 ^ 26 % 4 ≠ 0 ∨ n / 2 ^ 24 % 4 = 3 ∨
      (n / 2 ^ 24 % 4 = 0 ∧ n / 2 ^ 8 % 2 ^ 16 ≠ 0) ∨ (n / 2 ^ 24 % 4 = 1 ∧ n / 2 ^ 16 % 2 ^ 8 ≠ 0))) ∨
    (n / 2 ^ 28 = 4 ∧ (n / 2 ^ 26 % 4 ≠ 0 ∨ n / 2 ^ 24 % 4 = 3 ∨ n % 2 ^ 24 ≠ 0)) ∨
    5 ≤ n / 2 ^ 28

/-- R80 and R81 name exactly the words that no command has. -/
theorem illegalNumber_iff {w : Word} : IllegalNumber w.toNat ↔ ¬∃ i, encode i = w := by
  have hop : w.toNat / 2 ^ 28 % 2 ^ 4 = w.toNat / 2 ^ 28 := by omega
  rw [exists_encode_eq_iff]
  simp only [BitVec.toNat_eq, toNat_opField, toNat_z2Field, toNat_n1Field, toNat_byteField, BitVec.toNat_ofNat, hop]
  simp only [IllegalNumber, Nat.reducePow, Nat.reduceMul, Nat.reduceMod]
  generalize w.toNat = n
  have hn : n / 16777216 % 4 = 0 ∨ n / 16777216 % 4 = 1 ∨ n / 16777216 % 4 = 2 ∨ n / 16777216 % 4 = 3 := by omega
  obtain h | h | h | h | h | h : n / 268435456 = 0 ∨ n / 268435456 = 1 ∨ n / 268435456 = 2 ∨ n / 268435456 = 3 ∨
    n / 268435456 = 4 ∨ 5 ≤ n / 268435456 := by omega
  · simp [h]
    omega
  · simp [h]
    omega
  · rcases hn with hn | hn | hn | hn <;> simp [h, hn] <;> omega
  · simp [h]
    omega
  · rcases hn with hn | hn | hn | hn <;> simp [h, hn] <;> omega
  · omega

/-- The word of a command runs the command (R140). -/
theorem execWord_encode (i : Instr) (s : State) : execWord (encode i) s = exec i s := by
  rw [execWord, decode_encode]

/-- Outside FAULT a word that is no command gives the fault entry of ILLEGAL_COMMAND (R80, R81, R180). -/
theorem execWord_illegal {w : Word} {s : State} (hw : ¬∃ i, encode i = w) (hm : s.mode ≠ .fault) :
    execWord w s = .next (faulted 1 s) := by
  unfold execWord
  cases hd : decode w with
  | ok i => exact absurd ⟨i, decode_eq_ok_iff.mp hd⟩ hw
  | error e => exact faultGate_other hm

/-- Settles O4: the conditions are those of the words that no command has (`illegalNumber_iff`). -/
theorem malformedWordsFaultIllegalCommand : Obligations.MalformedWordsFaultIllegalCommand := by
  intro w s hm
  split
  case isTrue h => exact execWord_illegal (illegalNumber_iff.mp h) hm
  case isFalse h =>
    obtain ⟨i, rfl⟩ := not_not.mp (mt illegalNumber_iff.mpr h)
    exact ⟨i, decode_encode i, execWord_encode i s⟩

/-! ### The opcode table -/

/-- A row whose mask covers the bits from `k` up compares these bits. -/
theorem OpcodeRow.matches_iff {r : OpcodeRow} (k : Nat) (hr : r.mask = BitVec.allOnes 32 <<< k) {w : Word} :
    r.matches w = true ↔ w.toNat / 2 ^ k * 2 ^ k = r.pattern.toNat := by
  have hle : w.toNat / 2 ^ k * 2 ^ k < 2 ^ 32 := lt_of_le_of_lt (Nat.div_mul_le_self _ _) w.isLt
  rw [OpcodeRow.matches, hr, ← BitVec.shiftLeft_ushiftRight, beq_iff_eq, BitVec.toNat_eq, BitVec.toNat_shiftLeft,
    BitVec.toNat_ushiftRight, Nat.shiftRight_eq_div_pow, Nat.shiftLeft_eq, Nat.mod_eq_of_lt hle]

/-- The number of a command's word (R75). -/
def commandNumber : Instr → Nat
  | .status => 0
  | .init rate delim => 0x10000000 + rate.toNat * 2 ^ 8 + delim.toNat
  | .absorb1 b0 => 0x20000000 + b0.toNat
  | .absorb2 b0 b1 => 0x21000000 + b1.toNat * 2 ^ 8 + b0.toNat
  | .absorb3 b0 b1 b2 => 0x22000000 + b2.toNat * 2 ^ 16 + b1.toNat * 2 ^ 8 + b0.toNat
  | .finalize => 0x30000000
  | .squeeze1 => 0x40000000
  | .squeeze2 => 0x41000000
  | .squeeze3 => 0x42000000

theorem toNat_encode (i : Instr) : (encode i).toNat = commandNumber i := by
  cases i <;> simp [encode, toNat_commandWord, commandNumber]

/-- The command of a word, by the word's number. -/
theorem encode_eq_of_toNat {i : Instr} {w : Word} (h : commandNumber i = w.toNat) : encode i = w :=
  BitVec.eq_of_toNat_eq ((toNat_encode i).trans h)

/-- The word of a command, by the command's number. -/
theorem encode_eq_ofNat {i : Instr} {n : Nat} (h : commandNumber i = n) : encode i = BitVec.ofNat 32 n := by
  rw [← h, ← toNat_encode, BitVec.ofNat_toNat, BitVec.setWidth_eq]

/-- The word of a command matches the row of its name. -/
theorem matches_encode (i : Instr) : ∀ r ∈ opcodeTable, r.mnemonic = i.mnemonic → r.matches (encode i) = true := by
  cases i with
  | status | finalize | squeeze1 | squeeze2 | squeeze3 => decide
  | init | absorb2 =>
    simp [opcodeTable, Instr.mnemonic]
    rw [OpcodeRow.matches_iff 16 rfl, toNat_encode, commandNumber]
    simp
    omega
  | absorb1 =>
    simp [opcodeTable, Instr.mnemonic]
    rw [OpcodeRow.matches_iff 8 rfl, toNat_encode, commandNumber]
    simp
    omega
  | absorb3 =>
    simp [opcodeTable, Instr.mnemonic]
    rw [OpcodeRow.matches_iff 24 rfl, toNat_encode, commandNumber]
    simp
    omega

/-- A row without operand bits matches its pattern alone. -/
theorem OpcodeRow.eq_of_matches {r : OpcodeRow} (hr : r.mask = 0xFFFFFFFF) {w : Word} (h : r.matches w = true) :
    r.pattern = w := by
  rw [OpcodeRow.matches_iff 0 hr, pow_zero, Nat.div_one, Nat.mul_one] at h
  exact BitVec.eq_of_toNat_eq h.symm

/-- A word that matches a row is the word of a command of the row's name. -/
theorem exists_encode_of_matches {r : OpcodeRow} (hr : r ∈ opcodeTable) {w : Word} (h : r.matches w = true) :
    ∃ i, encode i = w ∧ i.mnemonic = r.mnemonic := by
  simp only [opcodeTable, List.mem_cons, List.not_mem_nil, or_false] at hr
  rcases hr with rfl | rfl | rfl | rfl | rfl | rfl | rfl | rfl | rfl
  · exact ⟨.status, OpcodeRow.eq_of_matches rfl h, rfl⟩
  · rw [OpcodeRow.matches_iff 16 rfl] at h
    refine ⟨.init (byteField w 1) (byteField w 0), encode_eq_of_toNat ?_, rfl⟩
    simp [commandNumber, toNat_byteField] at h ⊢
    omega
  · rw [OpcodeRow.matches_iff 8 rfl] at h
    refine ⟨.absorb1 (byteField w 0), encode_eq_of_toNat ?_, rfl⟩
    simp [commandNumber, toNat_byteField] at h ⊢
    omega
  · rw [OpcodeRow.matches_iff 16 rfl] at h
    refine ⟨.absorb2 (byteField w 0) (byteField w 1), encode_eq_of_toNat ?_, rfl⟩
    simp [commandNumber, toNat_byteField] at h ⊢
    omega
  · rw [OpcodeRow.matches_iff 24 rfl] at h
    refine ⟨.absorb3 (byteField w 0) (byteField w 1) (byteField w 2), encode_eq_of_toNat ?_, rfl⟩
    simp [commandNumber, toNat_byteField] at h ⊢
    omega
  · exact ⟨.finalize, OpcodeRow.eq_of_matches rfl h, rfl⟩
  · exact ⟨.squeeze1, OpcodeRow.eq_of_matches rfl h, rfl⟩
  · exact ⟨.squeeze2, OpcodeRow.eq_of_matches rfl h, rfl⟩
  · exact ⟨.squeeze3, OpcodeRow.eq_of_matches rfl h, rfl⟩

/-- One row of the table bears the name of a command. -/
theorem opcodeTable_mnemonic (i : Instr) :
    (opcodeTable.filter (·.mnemonic == i.mnemonic)).map OpcodeRow.mnemonic = [i.mnemonic] := by
  cases i <;> rfl

theorem encode_injective : Function.Injective encode := by
  intro i j h
  have hd := decode_encode i
  rw [h, decode_encode] at hd
  injection hd with hd
  exact hd.symm

/-- The rows that the word of a command matches are those of its name. -/
theorem matches_encode_eq {r : OpcodeRow} (hr : r ∈ opcodeTable) (i : Instr) :
    r.matches (encode i) = (r.mnemonic == i.mnemonic) := by
  rw [Bool.eq_iff_iff, beq_iff_eq]
  constructor
  · intro h
    obtain ⟨j, hj, hname⟩ := exists_encode_of_matches hr h
    rw [← hname, encode_injective hj]
  · exact matches_encode i r hr

/-- Settles O5: the rows that match are those of the command's name (`matches_encode_eq`), and a row that matches has a
command (`exists_encode_of_matches`). -/
theorem opcodeTableIsTheDecoder : Obligations.OpcodeTableIsTheDecoder := by
  intro w
  cases hd : decode w with
  | ok i =>
    obtain rfl := decode_eq_ok_iff.mp hd
    rw [List.filter_congr fun r hr => matches_encode_eq hr i]
    exact opcodeTable_mnemonic i
  | error e =>
    have hnone : opcodeTable.filter (·.matches w) = [] := by
      refine List.filter_eq_nil_iff.mpr fun r hr h => ?_
      obtain ⟨i, hi, -⟩ := exists_encode_of_matches hr h
      rw [decode_eq_ok_iff.mpr hi] at hd
      cases hd
    rw [hnone]
    rfl

/-! ### Operands -/

/-- Settles O6, command by command, from the fields of its word. -/
theorem operandsAreAssembledByCount : Obligations.OperandsAreAssembledByCount := by
  intro w i h
  obtain rfl := decode_eq_ok_iff.mp h
  change (opField (encode i) = 2 →
      absorbOperands i = (List.range ((n1Field (encode i)).toNat + 1)).map (byteField (encode i))) ∧
    (opField (encode i) = 4 → squeezeCount i = (n1Field (encode i)).toNat + 1)
  cases i with
  | status | init | finalize => simp [encode]
  | absorb1 | absorb2 | absorb3 => simp [encode, absorbOperands, List.range_succ]
  | squeeze1 | squeeze2 | squeeze3 => simp [encode, squeezeCount]

/-- R79's word of an INIT. -/
theorem encode_init (rate delim : Byte) :
    encode (.init rate delim) = 0x10000000 ||| (rate.setWidth 32 <<< 8) ||| delim.setWidth 32 := by
  have hrate : (rate.setWidth 32 <<< 8 : Word).toNat = rate.toNat <<< 8 := by
    simp [Nat.shiftLeft_eq]
    omega
  have hdelim : (delim.setWidth 32 : Word).toNat = delim.toNat := by
    simp
    omega
  have high : 0x10000000 ||| rate.toNat <<< 8 = (2 ^ 20 + rate.toNat) <<< 8 := by
    rw [show 0x10000000 = 1 <<< 20 <<< 8 by rfl, ← Nat.shiftLeft_or_distrib, ← Nat.shiftLeft_add_eq_or_of_lt (by omega)]
    rfl
  apply BitVec.eq_of_toNat_eq
  calc (encode (.init rate delim)).toNat = (2 ^ 20 + rate.toNat) <<< 8 + delim.toNat := by
        rw [toNat_encode, commandNumber, Nat.shiftLeft_eq]
        omega
    _ = 0x10000000 ||| rate.toNat <<< 8 ||| delim.toNat := by
        rw [Nat.shiftLeft_add_eq_or_of_lt delim.isLt, high]
    _ = (0x10000000 ||| (rate.setWidth 32 <<< 8) ||| delim.setWidth 32 : Word).toNat := by
        rw [BitVec.toNat_or, BitVec.toNat_or, hrate, hdelim]
        rfl

/-- Settles O7: the word is that of the INIT (`encode_init`), and executing it makes R142's rate check. -/
theorem initWordDecodesForEveryRate : Obligations.InitWordDecodesForEveryRate := by
  intro rate delim
  simp only [← encode_init]
  refine ⟨byteField_one_commandWord _ _ _ _ _, byteField_zero_commandWord _ _ _ _ _, decode_encode _, fun s hm hr => ?_⟩
  have hill : legalRate rate = false := by rwa [← Bool.not_eq_true, legalRate_iff]
  rw [execWord_encode]
  change execInit rate delim s = _
  rw [execInit, faultGate_other hm, hill]
  rfl

/-- Settles O8: the words are those of their commands, or fail the check they are refused for. -/
theorem writtenWordsDecode : Obligations.WrittenWordsDecode := by
  unfold Obligations.WrittenWordsDecode
  decide

/-! ### The assembler (R85) -/

/-- Byte operands in range are their bytes. -/
theorem byteOperands_eq (ns : List Nat) :
    byteOperands ns = if ∀ n ∈ ns, n ≤ 255 then some (ns.map (BitVec.ofNat 8)) else none := by
  simp [byteOperands, Nat.lt_succ_iff]

theorem assemble_init (r d : Nat) :
    assemble (.init r d) = if r ≤ 255 ∧ d ≤ 255 then some [BitVec.ofNat 32 (0x10000000 + r * 2 ^ 8 + d)] else none := by
  by_cases h : r ≤ 255 ∧ d ≤ 255
  · have hword : encode (.init (.ofNat 8 r) (.ofNat 8 d)) = BitVec.ofNat 32 (0x10000000 + r * 2 ^ 8 + d) :=
      encode_eq_ofNat (by simp [commandNumber]; omega)
    simp [assemble, byteOperands_eq, h, hword]
  · simp [assemble, byteOperands_eq, h]

theorem assemble_absorb1 (b0 : Nat) :
    assemble (.absorb [b0]) = if b0 ≤ 255 then some [BitVec.ofNat 32 (0x20000000 + b0)] else none := by
  by_cases h : b0 ≤ 255
  · have hword : encode (.absorb1 (.ofNat 8 b0)) = BitVec.ofNat 32 (0x20000000 + b0) :=
      encode_eq_ofNat (by simp [commandNumber]; omega)
    simp [assemble, byteOperands_eq, h, hword]
  · simp [assemble, byteOperands_eq, h]

theorem assemble_absorb2 (b0 b1 : Nat) :
    assemble (.absorb [b0, b1]) =
      if b0 ≤ 255 ∧ b1 ≤ 255 then some [BitVec.ofNat 32 (0x21000000 + b1 * 2 ^ 8 + b0)] else none := by
  by_cases h : b0 ≤ 255 ∧ b1 ≤ 255
  · have hword : encode (.absorb2 (.ofNat 8 b0) (.ofNat 8 b1)) = BitVec.ofNat 32 (0x21000000 + b1 * 2 ^ 8 + b0) :=
      encode_eq_ofNat (by simp [commandNumber]; omega)
    simp [assemble, byteOperands_eq, h, hword]
  · simp [assemble, byteOperands_eq, h]

theorem assemble_absorb3 (b0 b1 b2 : Nat) :
    assemble (.absorb [b0, b1, b2]) =
      if b0 ≤ 255 ∧ b1 ≤ 255 ∧ b2 ≤ 255 then some [BitVec.ofNat 32 (0x22000000 + b2 * 2 ^ 16 + b1 * 2 ^ 8 + b0)]
      else none := by
  by_cases h : b0 ≤ 255 ∧ b1 ≤ 255 ∧ b2 ≤ 255
  · have hword : encode (.absorb3 (.ofNat 8 b0) (.ofNat 8 b1) (.ofNat 8 b2)) =
        BitVec.ofNat 32 (0x22000000 + b2 * 2 ^ 16 + b1 * 2 ^ 8 + b0) :=
      encode_eq_ofNat (by simp [commandNumber]; omega)
    simp [assemble, byteOperands_eq, h, hword]
  · simp [assemble, byteOperands_eq, h]

/-- An ABSORB takes one to three bytes. -/
theorem assemble_absorb_count {ns : List Nat} (h : ns.length = 0 ∨ 3 < ns.length) : assemble (.absorb ns) = none := by
  match ns, h with
  | [], _ => rfl
  | a :: b :: c :: d :: rest, _ =>
    rw [assemble, byteOperands_eq]
    split_ifs <;> rfl

theorem assemble_squeeze (n : Nat) :
    assemble (.squeeze n) = if 1 ≤ n ∧ n ≤ 3 then some [BitVec.ofNat 32 (0x40000000 + (n - 1) * 2 ^ 24)] else none := by
  match n with
  | 0 | 1 | 2 | 3 => rfl
  | n + 4 => simp [assemble, squeezeWord]

/-- Settles O57: each line gives the number of its command when its operands are in range. -/
theorem assemblerWordsAndRefusals : Obligations.AssemblerWordsAndRefusals :=
  ⟨⟨rfl, rfl⟩, assemble_init, assemble_absorb1, assemble_absorb2, assemble_absorb3, fun _ => assemble_absorb_count,
    assemble_squeeze, fun _ => rfl⟩

/-! ### The pseudo-commands (R86) -/

/-- The commands of an ABSORBB. -/
def absorbbCommands : List Byte → List Instr
  | b0 :: b1 :: b2 :: rest => .absorb3 b0 b1 b2 :: absorbbCommands rest
  | [b0, b1] => [.absorb2 b0 b1]
  | [b0] => [.absorb1 b0]
  | [] => []

theorem absorbWords_eq (xs : List Byte) : absorbWords xs = (absorbbCommands xs).map encode := by
  induction xs using absorbbCommands.induct with
  | case1 b0 b1 b2 rest ih => simp [absorbWords, absorbbCommands, ih]
  | case2 | case3 | case4 => rfl

theorem allAbsorb_absorbbCommands (xs : List Byte) : AllAbsorb (absorbbCommands xs) := by
  induction xs using absorbbCommands.induct with
  | case1 b0 b1 b2 rest ih => exact List.forall_mem_cons.mpr ⟨by simp [absorbOperands], ih⟩
  | case2 | case3 | case4 => simp [AllAbsorb, absorbbCommands, absorbOperands]

theorem streamInput_absorbbCommands (xs : List Byte) : streamInput (absorbbCommands xs) = xs := by
  induction xs using absorbbCommands.induct with
  | case1 b0 b1 b2 rest ih =>
    rw [absorbbCommands, streamInput, List.flatMap_cons, ← streamInput, ih]
    rfl
  | case2 | case3 | case4 => rfl

theorem length_absorbbCommands (xs : List Byte) : (absorbbCommands xs).length = (xs.length + 2) / 3 := by
  induction xs using absorbbCommands.induct with
  | case1 b0 b1 b2 rest ih =>
    simp only [absorbbCommands, List.length_cons, ih]
    omega
  | case2 | case3 | case4 => simp [absorbbCommands]

/-- All but the rest absorb three bytes. -/
theorem absorbbCommands_threes (xs : List Byte) :
    ∀ i ∈ (absorbbCommands xs).take (xs.length / 3), (absorbOperands i).length = 3 := by
  induction xs using absorbbCommands.induct with
  | case1 b0 b1 b2 rest ih =>
    rw [show (b0 :: b1 :: b2 :: rest).length / 3 = rest.length / 3 + 1 by simp only [List.length_cons]; omega]
    exact List.forall_mem_cons.mpr ⟨rfl, ih⟩
  | case2 | case3 | case4 => simp

/-- The bytes of an assembler line are in range when they are bytes. -/
theorem byteOperands_map_toNat (xs : List Byte) : byteOperands (xs.map BitVec.toNat) = some xs := by
  have hrange : ∀ n ∈ xs.map BitVec.toNat, n ≤ 255 := by
    intro n hn
    obtain ⟨x, -, rfl⟩ := List.mem_map.mp hn
    have := x.isLt
    omega
  rw [byteOperands_eq, if_pos hrange, List.map_map]
  simp [Function.comp_def]

/-- The last command of a SQUEEZEN, for what its threes leave. -/
def squeezenRest : Nat → List Instr
  | 1 => [.squeeze1]
  | 2 => [.squeeze2]
  | _ => []

/-- The commands of a SQUEEZEN. -/
def squeezenCommands (len : Nat) : List Instr := List.replicate (len / 3) .squeeze3 ++ squeezenRest (len % 3)

/-- What is left of a length after its threes. -/
theorem squeezenRest_spec {n : Nat} (h : n < 3) :
    (squeezeWord n).toList = (squeezenRest n).map encode ∧ AllSqueeze (squeezenRest n) ∧ streamLength (squeezenRest n) = n ∧
      (squeezenRest n).length = (n + 2) / 3 := by
  match n, h with
  | 0, _ | 1, _ | 2, _ => exact ⟨rfl, by decide, rfl, rfl⟩

theorem streamLength_append (is js : List Instr) : streamLength (is ++ js) = streamLength is + streamLength js := by
  simp [streamLength]

theorem squeezenCommands_spec (len : Nat) :
    squeezeWords len = (squeezenCommands len).map encode ∧ AllSqueeze (squeezenCommands len) ∧
      streamLength (squeezenCommands len) = len ∧ (squeezenCommands len).length = (len + 2) / 3 ∧
      ∀ i ∈ (squeezenCommands len).take (len / 3), squeezeCount i = 3 := by
  obtain ⟨hwords, hall, hlen, hcount⟩ := squeezenRest_spec (Nat.mod_lt len (by decide : 3 > 0))
  refine ⟨?_, ?_, ?_, ?_, ?_⟩
  · rw [squeezeWords, squeezenCommands, hwords, List.map_append, List.map_replicate]
  · intro i hi
    rcases List.mem_append.mp hi with h | h
    · rw [List.eq_of_mem_replicate h]
      decide
    · exact hall i h
  · rw [squeezenCommands, streamLength_append, hlen, streamLength, List.map_replicate, List.sum_replicate]
    simp only [squeezeCount, smul_eq_mul]
    omega
  · rw [squeezenCommands, List.length_append, List.length_replicate, hcount]
    omega
  · intro i hi
    rw [squeezenCommands, List.take_left' (List.length_replicate ..)] at hi
    rw [List.eq_of_mem_replicate hi]
    rfl

/-- Settles O58, by the commands of the two expansions. -/
theorem pseudoCommandsExpand : Obligations.PseudoCommandsExpand := by
  refine ⟨fun xs => ⟨absorbbCommands xs, ?_, allAbsorb_absorbbCommands xs, streamInput_absorbbCommands xs,
    length_absorbbCommands xs, absorbbCommands_threes xs⟩, fun len => ⟨squeezenCommands len, ?_⟩⟩
  · rw [assemble, byteOperands_map_toNat, Option.map_some, absorbWords_eq]
  · obtain ⟨hwords, hrest⟩ := squeezenCommands_spec len
    exact ⟨congrArg some hwords, hrest⟩

end Sys2Proof

/-! ## Words at the command port (O59, O60, O9, O10, O44)

An edge with `rst` = 0 accepts a word, waits, or advances a command; `step_of_command` and `clockEdge_waits` say what the first
two do. -/

namespace Sys2Proof.Machine

/-! ### Permutations of one command (R146) -/

theorem absorbPerms_le (rate : Byte) : ∀ (n : Nat) (o : Byte), absorbPerms rate n o ≤ n
  | 0, _ => le_rfl
  | n + 1, o => by
    have h0 := absorbPerms_le rate n 0
    have h1 := absorbPerms_le rate n (o + 1)
    rw [absorbPerms]
    split_ifs <;> omega

theorem squeezePerms_le (rate : Byte) : ∀ (n : Nat) (o : Byte), squeezePerms rate n o ≤ n
  | 0, _ => le_rfl
  | n + 1, o => by
    have h0 := squeezePerms_le rate n 1
    have h1 := squeezePerms_le rate n (o + 1)
    rw [squeezePerms]
    split_ifs <;> omega

/-- A command permutes at most once for each of its bytes, and FINALIZE once. -/
theorem permsOf_le (i : Instr) (mode : Mode) (rate offset : Byte) : permsOf i mode rate offset ≤ 3 := by
  have ha := absorbPerms_le rate (absorbOperands i).length offset
  have hq := squeezePerms_le rate (squeezeCount i) offset
  cases i with
  | status | init => simp [permsOf]
  | finalize =>
    rw [permsOf]
    split_ifs <;> omega
  | absorb1 | absorb2 | absorb3 =>
    simp only [permsOf, absorbOperands, List.length_cons, List.length_nil] at ha ⊢
    split_ifs <;> omega
  | squeeze1 | squeeze2 | squeeze3 =>
    simp only [permsOf, squeezeCount] at hq ⊢
    split_ifs <;> omega

theorem permsOfWord_le (w : Word) (s : State) : permsOfWord w s ≤ 3 := by
  unfold permsOfWord
  cases decode w with
  | ok i => exact permsOf_le i _ _ _
  | error e => exact Nat.zero_le 3

/-- A word that has run to its response has it pending (R72). -/
theorem execWord_pending {w : Word} {s t : State} (h : execWord w s = .next t) : t.rspPending = true := by
  rcases execWord_cases h with ⟨i, -, he⟩ | ⟨-, rfl⟩ | ⟨-, rfl⟩
  · rcases he.outline with ⟨data, u, -, rfl⟩ | ⟨-, c, rfl⟩ | ⟨-, rate, delim, -, rfl⟩ | ⟨-, -, u, -, rfl⟩ <;> rfl
  · rfl
  · rfl

/-- Settles O59: the latency of R218 is such a number of edges, since the edges then give what the command level gives
(`clockEdges_eq_execWord`). -/
theorem everyCommandRespondsWithin73Edges : Obligations.EveryCommandRespondsWithin73Edges := by
  intro w s h hi
  refine ⟨latency .one w s, Nat.le_add_right _ _, ?_, fun ps hq hlen => ?_⟩
  · have hp := permsOfWord_le w s
    simp only [latency, show permCycles .one = 24 by rfl]
    omega
  · obtain ⟨t, ht⟩ := execWord_answers w (s := releaseReset s) (by exact h)
    exact ⟨t, (clockEdges_eq_execWord h hi hq hlen).trans ht, by simp [State.busy, (execWord_handshake ht).1],
      by simp [rspValid, execWord_pending ht]⟩

/-! ### A word on offer -/

/-- A host that offers a word breaks no offer of the same word. -/
theorem breaksOffer_offerPorts {w : Word} {s : State} (h : s.offer = .none ∨ s.offer = .waiting w) :
    breaksOffer (offerPorts w) s = false := by
  rcases h with h | h <;> simp [breaksOffer, h, offerPorts]

/-- A core that can accept the host's next word runs it at once (R71, R140). -/
theorem step_of_command {s : State} {w : Word} {rest : List HostAct} (hi : s.inputs = .command w :: rest)
    (hf : s.flight = none) (hp : s.rspPending = false) (ho : s.offer = .none ∨ s.offer = .waiting w) :
    step s = execWord w { s with inputs := rest, offer := .none, rstSampled := false } := by
  have hready : canAccept false s = true := canAccept_eq.trans (cmdReady_iff.mpr ⟨hf, hp, rfl⟩)
  rw [step, hostStep_of_command hi, takeCommand, if_pos hready, breaksOffer_offerPorts ho]
  rfl

/-- Settles O9: the word runs at once (`step_of_command`), and is that of its command. -/
theorem stepRunsTheDecodedCommand : Obligations.StepRunsTheDecodedCommand := by
  constructor
  · intro s w rest i hi hf hp ho hd
    rw [step_of_command hi hf hp ho, execWord, hd]
  · intro s w i hw hd
    have hi : (s.withFetchWord 32 w).inputs = .command (BitVec.ofNat 32 w) :: s.inputs := by
      rw [State.withFetchWord, Nat.mod_eq_of_lt hw, offerNext_inputs]
    rw [step_of_command hi rfl rfl (.inl rfl), execWord, hd]
    rfl

/-- An edge with `rst` = 0 and a lawful host that accepts nothing and finds no command in progress only lets the host take
a response (R72). -/
theorem clockEdge_waits {rpc : RoundsPerCycle} {p : Ports} {s : State} (hr : p.rst = false)
    (hb : breaksOffer p s = false) (hf : s.flight = none) (ha : ¬(p.cmdValid = true ∧ canAccept false s = true)) :
    clockEdge rpc p s = .next
      { s with
        offer := if p.cmdValid then .waiting p.cmdWord else .none, rstSampled := false,
        rspPending := s.rspPending && !p.rspReady } := by
  rw [clockEdge_eq hr hb, if_neg ha, holdOffer_kept (by exact hb)]
  simp only [hf]
  apply congrArg
  apply State.ext_fields <;> simp [hf]

/-- No command is accepted while a response is pending (R73). -/
theorem canAccept_of_pending {s : State} (hp : s.rspPending = true) : ¬canAccept false s = true := by
  simp [canAccept_eq, cmdReady, hp]

/-- Settles O10: the word is offered at an edge that only waits (`clockEdge_waits`). -/
theorem pendingResponseBlocksCommands : Obligations.PendingResponseBlocksCommands := by
  intro s w rest hi hf hp ho
  have hready := canAccept_of_pending hp
  rw [step, hostStep_of_command hi, takeCommand, if_neg hready,
    clockEdge_waits rfl (breaksOffer_offerPorts ho) hf fun h => hready h.2]
  apply congrArg
  apply State.ext_fields <;> simp [offerPorts, hp]

/-- Settles O44: an edge that only waits takes the response or leaves it (`clockEdge_waits`). -/
theorem responsesWaitToBeTaken : Obligations.ResponsesWaitToBeTaken := by
  intro rpc p s hr hf hp hb
  refine ⟨by simp [rspWord, rspValid, hp, hr], _, clockEdge_waits hr hb hf fun h => canAccept_of_pending hp h.2, ?_,
    by simp [hp], fun hready => ?_⟩
  · apply State.ext_fields <;> simp [hp]
  · simp [cmdReady, State.busy, hf, hready]

/-! ### The first edge after a reset -/

/-- An edge with `rst` = 0 does not look at the last sample of `rst` (log entry 15). -/
theorem clockEdge_rstSampled {rpc : RoundsPerCycle} {q : Ports} (b : Bool) {s : State} (hr : q.rst = false) :
    clockEdge rpc q { s with rstSampled := b } = clockEdge rpc q s := by
  simp only [clockEdge, hr]
  rfl

/-- A lawful host that offers no word owes none (R216). -/
theorem offer_of_no_word {q : Ports} {s : State} (hv : q.cmdValid = false) (hb : breaksOffer q s = false) :
    s.offer = .none := by
  cases ho : s.offer with
  | none => rfl
  | waiting w => simp [breaksOffer, ho, hv] at hb
  | broken => simp [breaksOffer, ho] at hb

/-- An idle core in a good state accepts a word on offer. -/
theorem clockEdge_raises_busy {rpc : RoundsPerCycle} {q : Ports} {s : State} (h : BetweenCommands s) (hr : q.rst = false)
    (hb : breaksOffer q s = false) (hv : q.cmdValid = true) (hf : s.flight = none) (hp : s.rspPending = false) :
    ∃ u, clockEdge rpc q s = .next u ∧ u.busy = true ∧ u.rspPending = false := by
  have hready : canAccept false s = true := canAccept_eq.trans (cmdReady_iff.mpr ⟨hf, hp, rfl⟩)
  obtain ⟨u, v, hu, -, hpu, -⟩ := beginWord_goesOn rpc q.cmdWord (s := { releaseReset s with offer := .none }) (by exact h)
  rw [clockEdge_eq hr hb, if_pos ⟨hv, hready⟩, hu]
  exact ⟨setFlight v u, rfl, rfl, hpu.trans hp⟩

/-- With nothing on offer an idle core only remembers the sample of `rst`. -/
theorem clockEdge_nothing {rpc : RoundsPerCycle} {q : Ports} {s : State} (hr : q.rst = false)
    (hb : breaksOffer q s = false) (hv : q.cmdValid = false) (hf : s.flight = none) (hp : s.rspPending = false) :
    clockEdge rpc q s = .next (releaseReset s) := by
  have ho := offer_of_no_word hv hb
  rw [clockEdge_waits hr hb hf (by simp [hv])]
  apply congrArg
  apply State.ext_fields <;> simp [hv, ho, hp]

/-- Settles O60: the reset leaves an idle core, which accepts a word on offer (`clockEdge_raises_busy`) or waits
(`clockEdge_nothing`), and a command action on it runs at once (`step_of_command`). -/
theorem firstEdgeAfterResetAccepts : Obligations.FirstEdgeAfterResetAccepts := by
  refine ⟨fun rpc p q s hp hq => ⟨resetCore (holdOffer p s), clockEdge_reset hp, rfl, ?_, ?_, fun hb => ?_⟩, ?_⟩
  · simp [cmdReady, hp]
  · simp [cmdReady, State.busy, hq]
  · cases hv : q.cmdValid with
    | true =>
      obtain ⟨u, hu, hbusy, hpend⟩ := clockEdge_raises_busy (rpc := rpc) (by exact betweenCommands_reset) hq hb hv rfl rfl
      exact ⟨u, hu, hbusy, hpend, (clockEdge_rstSampled false hq).trans hu, by simp⟩
    | false =>
      have hu := clockEdge_nothing (rpc := rpc) hq hb hv rfl rfl
      exact ⟨_, hu, rfl, rfl, (clockEdge_rstSampled false hq).trans hu, fun _ => rfl⟩
  · intro s w rest hi hf hp _ ho
    exact step_of_command hi hf hp ho

end Sys2Proof.Machine

/-! ## O56: the commands compute the sponge construction (R147, R155)

Absorbing byte by byte and padding at the cursor is absorbing the padded message block by block
(`absorbBlocks_paddedMessage`); a stream of ABSORBs absorbs the bytes of all of them (`stream_absorbs`), and a stream of
SQUEEZEs answers the bytes of the output that is still to come (`stream_squeezes`). -/

namespace Sys2Proof.Machine

/-! ### Lanes as 200 bytes (R21) -/

/-- The bytes of the lane view are the bytes of S. -/
theorem lanesByte_lanes {m : Memory} (hm : m.wf = true) {j : Nat} (hj : j < 200) : lanesByte m.lanes j = m.read j := by
  have h := Memory.read_ofLanes m.lanes j
  rw [Memory.ofLanes_lanes hm, if_pos (show j < Config.stateBytes from hj)] at h
  exact h.symm

/-- Lanes with equal bytes are equal. -/
theorem lanes_ext_bytes {a b : Lanes} (h : ∀ j < 200, lanesByte a j = lanesByte b j) : a = b := by
  rw [← Memory.lanes_ofLanes a, ← Memory.lanes_ofLanes b]
  apply congrArg
  apply Memory.ext_read (Memory.ofLanes_wf a) (Memory.ofLanes_wf b)
  intro j
  rw [Memory.read_ofLanes, Memory.read_ofLanes]
  by_cases hj : j < Config.stateBytes
  · rw [if_pos hj, if_pos hj, h j hj]
  · rw [if_neg hj, if_neg hj]

/-- The lane XOR of a byte changes that byte alone. -/
theorem lanesByte_xorLaneByte (a : Lanes) {i j : Nat} (hi : i < 200) (hj : j < 200) (b : Byte) :
    lanesByte (xorLaneByte a i b) j = lanesByte a j ^^^ if j = i then b else 0 := by
  have hm := Memory.ofLanes_wf a
  have hw := Memory.write_wf (v := (Memory.ofLanes a).read i ^^^ b) hi hm
  have hlanes := lanes_write_xor hm hi b
  rw [Memory.lanes_ofLanes] at hlanes
  rw [← hlanes, lanesByte_lanes hw hj]
  conv_rhs => rw [← Memory.lanes_ofLanes a, lanesByte_lanes hm hj]
  by_cases h : j = i
  · rw [if_pos h, h, Memory.read_write_same hm]
  · rw [if_neg h, Memory.read_write_other _ h]
    exact BitVec.xor_zero.symm

/-- XORing a block XORs its bytes. -/
theorem lanesByte_xorBlock (a : Lanes) (block : List Byte) {j : Nat} (hj : j < 200) :
    lanesByte (xorBlock a block) j = lanesByte a j ^^^ block.getD j 0 := by
  rw [xorBlock, lanesByte_lanes (Memory.ofFn_wf _) hj, Memory.read_ofFn, if_pos (show j < Config.stateBytes from hj)]

/-! ### A block byte by byte -/

/-- The bytes XORed in from the cursor `o` up, with no permutation. -/
def xorFrom (a : Lanes) : Nat → List Byte → Lanes
  | _, [] => a
  | o, b :: bs => xorFrom (xorLaneByte a o b) (o + 1) bs

theorem lanesByte_xorFrom : ∀ (bs : List Byte) (a : Lanes) (o : Nat) {j : Nat}, o + bs.length ≤ 200 → j < 200 →
    lanesByte (xorFrom a o bs) j = lanesByte a j ^^^ if o ≤ j then bs.getD (j - o) 0 else 0
  | [], a, o, j, _, _ => by simp [xorFrom]
  | b :: bs, a, o, j, h, hj => by
    rw [List.length_cons] at h
    rw [xorFrom, lanesByte_xorFrom bs _ _ (by omega) hj, lanesByte_xorLaneByte a (by omega) hj, BitVec.xor_assoc]
    apply congrArg
    obtain hlt | rfl | hgt : j < o ∨ j = o ∨ o < j := by omega
    · simp [show j ≠ o by omega, show ¬o + 1 ≤ j by omega, show ¬o ≤ j by omega]
    · simp
    · simp [show j ≠ o by omega, show o + 1 ≤ j by omega, show o ≤ j by omega, show j - o = j - (o + 1) + 1 by omega]

/-- Inside a block the reference only XORs (R143). -/
theorem foldl_absorbReference_inside {r : Nat} : ∀ (bs : List Byte) (a : Lanes) (o : Nat), o + bs.length < r →
    bs.foldl (absorbReference r) (a, o) = (xorFrom a o bs, o + bs.length)
  | [], _, _, _ => rfl
  | b :: bs, a, o, h => by
    rw [List.length_cons] at h ⊢
    rw [List.foldl_cons, absorbReference, if_neg (show ¬o + 1 = r by omega),
      foldl_absorbReference_inside bs _ _ (show o + 1 + bs.length < r by omega), xorFrom, Nat.add_comm bs.length,
      Nat.add_assoc]

/-- At the end of a block it permutes (R143, R146). -/
theorem foldl_absorbReference_block {r : Nat} : ∀ (bs : List Byte) (a : Lanes) (o : Nat), bs ≠ [] → o + bs.length = r →
    bs.foldl (absorbReference r) (a, o) = (keccakF (xorFrom a o bs), 0)
  | [], _, _, h, _ => absurd rfl h
  | [b], a, o, _, h => by simp [absorbReference, xorFrom, ← h]
  | b :: c :: bs, a, o, _, h => by
    rw [List.length_cons] at h
    have hne : ¬o + 1 = r := by
      rw [List.length_cons] at h
      omega
    rw [List.foldl_cons, absorbReference, if_neg hne]
    exact foldl_absorbReference_block (c :: bs) _ _ (by simp) (by omega)

/-- A block from cursor 0 on is XORed in whole. -/
theorem xorFrom_zero (a : Lanes) {block : List Byte} (h : block.length ≤ 200) :
    xorFrom a 0 block = xorBlock a block := by
  apply lanes_ext_bytes
  intro j hj
  rw [lanesByte_xorFrom block a 0 (by omega) hj, lanesByte_xorBlock a block hj, if_pos (Nat.zero_le j), Nat.sub_zero]

/-! ### The padded message in blocks (R155) -/

/-- A message of whole blocks begins with its first block. -/
theorem messageBlocks_append {r : Nat} {block rest : List Byte} (hr : 1 ≤ r) (h : block.length = r) :
    messageBlocks r (block ++ rest) = block :: messageBlocks r rest := by
  have hcount : (block ++ rest).length / r = rest.length / r + 1 := by
    rw [List.length_append, h, Nat.add_div_left _ hr]
  rw [messageBlocks, hcount, List.range_succ_eq_map, List.map_cons, List.map_map, messageBlocks]
  congr 1
  · simp [← h]
  · refine List.map_congr_left fun k _ => ?_
    have hdrop : (block ++ rest).drop (k.succ * r) = rest.drop (k * r) := by
      rw [Nat.succ_mul, Nat.add_comm, ← List.drop_drop, ← h, List.drop_left]
    exact congrArg (List.take r) hdrop

theorem messageBlocks_nil (r : Nat) : messageBlocks r [] = [] := by
  simp [messageBlocks]

/-- The padding follows the last block of the message. -/
theorem paddedMessage_append {r : Nat} (delim : Byte) {block rest : List Byte} (h : block.length = r) :
    paddedMessage r delim (block ++ rest) = block ++ paddedMessage r delim rest := by
  simp only [paddedMessage, List.length_append, h, Nat.add_mod_left, List.append_assoc]

/-- The bytes of a last block: the rest of the message, DELIM after it, 0x80 at the end (R155). -/
theorem getD_paddedMessage {r : Nat} (delim : Byte) {msg : List Byte} (h : msg.length < r) (j : Nat) :
    (paddedMessage r delim msg).getD j 0 =
      msg.getD j 0 ^^^ ((if j = msg.length then delim else 0) ^^^ if j = r - 1 then 0x80 else 0) := by
  rw [paddedMessage, Nat.mod_eq_of_lt h]
  by_cases hm : j < msg.length
  · simp [List.getElem?_append_left hm, show j ≠ msg.length by omega, show j ≠ r - 1 by omega]
  · rw [List.getD_append_right _ _ _ _ (by omega), List.getD_eq_default msg _ (by omega)]
    by_cases hr : j < r
    · simp [List.getD, show j - msg.length < r - msg.length by omega,
        show j - msg.length = 0 ↔ j = msg.length by omega, show j - msg.length + 1 = r - msg.length ↔ j = r - 1 by omega]
    · simp [List.getD, show ¬j - msg.length < r - msg.length by omega, show j ≠ msg.length by omega,
        show j ≠ r - 1 by omega]

/-- The last block XORed in is FINALIZE's padding after the rest of the message (R144, R155). -/
theorem xorBlock_paddedMessage (a : Lanes) {r : Nat} (delim : Byte) {msg : List Byte} (hr : r ≤ 199)
    (h : msg.length < r) :
    xorBlock a (paddedMessage r delim msg) =
      xorLaneByte (xorLaneByte (xorFrom a 0 msg) msg.length delim) (r - 1) 0x80 := by
  apply lanes_ext_bytes
  intro j hj
  rw [lanesByte_xorBlock a _ hj, getD_paddedMessage delim h, lanesByte_xorLaneByte _ (by omega) hj,
    lanesByte_xorLaneByte _ (by omega) hj, lanesByte_xorFrom msg a 0 (by omega) hj, if_pos (Nat.zero_le j), Nat.sub_zero,
    BitVec.xor_assoc, BitVec.xor_assoc]

theorem length_paddedMessage {r : Nat} (delim : Byte) {msg : List Byte} (h : msg.length < r) :
    (paddedMessage r delim msg).length = r := by
  simp [paddedMessage, Nat.mod_eq_of_lt h]
  omega

/-- Absorbing the padded message block by block is absorbing the message byte by byte and then padding (R143, R144,
R155). -/
theorem absorbBlocks_paddedMessage {r : Nat} (delim : Byte) (hr1 : 1 ≤ r) (hr : r ≤ 199) (msg : List Byte)
    (a : Lanes) :
    absorbBlocks a (messageBlocks r (paddedMessage r delim msg)) =
      keccakF (xorLaneByte (xorLaneByte (msg.foldl (absorbReference r) (a, 0)).1
        (msg.foldl (absorbReference r) (a, 0)).2 delim) (r - 1) 0x80) := by
  by_cases h : msg.length < r
  · have hblock : messageBlocks r (paddedMessage r delim msg) = [paddedMessage r delim msg] := by
      have := messageBlocks_append (rest := []) hr1 (length_paddedMessage delim h)
      rwa [List.append_nil, messageBlocks_nil] at this
    rw [hblock, foldl_absorbReference_inside msg a 0 (by omega), Nat.zero_add, ← xorBlock_paddedMessage a delim hr h]
    rfl
  · have hlen : (msg.take r).length = r := List.length_take_of_le (by omega)
    have ih := absorbBlocks_paddedMessage delim hr1 hr (msg.drop r) (keccakF (xorBlock a (msg.take r)))
    have hfold : msg.foldl (absorbReference r) (a, 0) =
        (msg.drop r).foldl (absorbReference r) (keccakF (xorBlock a (msg.take r)), 0) := by
      conv_lhs => rw [← List.take_append_drop r msg, List.foldl_append]
      rw [foldl_absorbReference_block (msg.take r) a 0 (List.ne_nil_of_length_pos (by omega)) (by omega),
        xorFrom_zero a (by omega)]
    rw [hfold, ← ih]
    conv_lhs => rw [← List.take_append_drop r msg, paddedMessage_append delim hlen, messageBlocks_append hr1 hlen]
    rfl
termination_by msg.length
decreasing_by
  rw [List.length_drop]
  omega

/-! ### Streams of commands -/

theorem ControlsKept.rate {s t : State} (h : ControlsKept s t) : t.rate = s.rate := h.1

theorem ControlsKept.mode {s t : State} (h : ControlsKept s t) : t.mode = s.mode := by
  obtain ⟨-, -, hmode, -⟩ := h
  exact hmode

theorem ControlsKept.delim {s t : State} (h : ControlsKept s t) : t.delim = s.delim := by
  obtain ⟨-, hdelim, -⟩ := h
  exact hdelim

/-- The word of a command, run to its response, which is then taken. -/
theorem transact_encode {i : Instr} {s t : State} (h : exec i s = .next t) :
    transact (encode i) s = .next (takeResponse t, t.rspReg) := by
  rw [transact, execWord_encode, h]

/-- R32 does not speak of the handshake. -/
theorem betweenCommands_takeResponse {s : State} (h : BetweenCommands s) : BetweenCommands (takeResponse s) := h

/-- An ABSORB absorbs its bytes as the reference does (R143). -/
theorem transact_absorb {i : Instr} {s : State} (hi : absorbOperands i ≠ []) (h : BetweenCommands s)
    (hm : s.mode = .absorbing) :
    ∃ t r, transact (encode i) s = .next (t, r) ∧ BetweenCommands t ∧ ControlsKept s t ∧
      (t.mem.lanes, t.offset.toNat) =
        (absorbOperands i).foldl (absorbReference s.rate.toNat) (s.mem.lanes, s.offset.toNat) := by
  obtain ⟨u, hu, hready, hwork, -, hfold⟩ :=
    absorbBytes_ready (bs := absorbOperands i) (betweenCommands_absorbReady h hm)
  have hs := absorbBytes_spongeOnly hu
  have he : exec i s = .next (respond 0 u) := by
    rw [exec_absorb hi, absorbCommand_eq _ (by simp [hm]), hm, hu]
    rfl
  exact ⟨_, _, transact_encode he, betweenCommands_takeResponse (betweenCommands_respond
    (betweenCommands_of_absorb h hm hs hready (hwork hi))), hs.controlsKept, hfold⟩

/-- ABSORBs absorb their bytes as the reference does, in any split (R149). -/
theorem stream_absorbs : ∀ {is : List Instr} {s : State}, BetweenCommands s → s.mode = .absorbing → AllAbsorb is →
    ∃ t rs, stream (is.map encode) s = .next (t, rs) ∧ BetweenCommands t ∧ ControlsKept s t ∧
      (t.mem.lanes, t.offset.toNat) =
        (streamInput is).foldl (absorbReference s.rate.toNat) (s.mem.lanes, s.offset.toNat)
  | [], s, h, _, _ => ⟨s, [], rfl, h, .refl s, rfl⟩
  | i :: is, s, h, hm, hall => by
    obtain ⟨hi, his⟩ := List.forall_mem_cons.mp hall
    obtain ⟨t, r, ht, hgood, hkept, hfold⟩ := transact_absorb hi h hm
    obtain ⟨u, rs, hu, hgood', hkept', hfold'⟩ := stream_absorbs hgood (hkept.mode.trans hm) his
    refine ⟨u, r :: rs, stream_cons ht hu, hgood', hkept.trans hkept', ?_⟩
    rw [hfold', hfold, hkept.rate, streamInput, streamInput, List.flatMap_cons, List.foldl_append]

/-- FINALIZE pads, permutes and starts the output (R144). -/
theorem transact_finalize {s : State} (h : BetweenCommands s) (hm : s.mode = .absorbing) :
    ∃ t r, transact (encode .finalize) s = .next (t, r) ∧ BetweenCommands t ∧ t.mode = .squeezing ∧ t.rate = s.rate ∧
      t.offset = 0 ∧ t.mem.lanes =
        keccakF (xorLaneByte (xorLaneByte s.mem.lanes s.offset.toNat s.delim) (s.rate.toNat - 1) 0x80) := by
  obtain ⟨u, hu, -, hlanes, -⟩ := padBlock_ready (betweenCommands_absorbReady h hm)
  have he : exec .finalize s = .next (respond 0 (setMode .squeezing (permuteBlock u))) := by
    change execFinalize s = _
    rw [execFinalize, faultGate_other (by simp [hm]), hm, hu]
    rfl
  refine ⟨_, _, transact_encode he,
    betweenCommands_takeResponse (betweenCommands_respond (betweenCommands_finalize h hm hu)), rfl,
    (padBlock_spongeOnly hu).1.rate, rfl, ?_⟩
  simp [hlanes]

/-- INIT starts an empty sponge (R142). -/
theorem transact_init {rate delim : Byte} {s : State} (h : BetweenCommands s) (hm : s.mode ≠ .fault)
    (hr : 1 ≤ rate.toNat ∧ rate.toNat ≤ 199) :
    ∃ t r, transact (encode (.init rate delim)) s = .next (t, r) ∧ BetweenCommands t ∧ t.mode = .absorbing ∧
      t.rate = rate ∧ t.delim = delim ∧ t.offset = 0 ∧ t.mem.lanes = Vector.replicate 25 0 := by
  have he : exec (.init rate delim) s = .next (respond 0 (initialise rate delim s)) := by
    change execInit rate delim s = _
    rw [execInit, faultGate_other hm, if_pos (legalRate_iff.mpr hr)]
    rfl
  exact ⟨_, _, transact_encode he,
    betweenCommands_takeResponse (betweenCommands_respond (betweenCommands_initialise h hm hr)), rfl, rfl, rfl, rfl,
    zeros_lanes⟩

/-! ### Output bytes (R83, R147) -/

/-- Byte `k` of a response is output byte `k` (R83). -/
theorem responseWord_byte (fcode : BitVec 4) (mode : Mode) (out : List Byte) {k : Nat} (hk : k < 3) :
    (responseWord fcode mode (packBytes out)).extractLsb' (8 * k) 8 = out.getD k 0 := by
  apply BitVec.eq_of_toNat_eq
  rw [toNat_extract, responseWord, packBytes]
  simp only [toNat_append]
  obtain rfl | rfl | rfl : k = 0 ∨ k = 1 ∨ k = 2 := by omega
  all_goals omega

/-- A SQUEEZE's response carries its output bytes. -/
theorem responseBytes_packBytes (fcode : BitVec 4) (mode : Mode) {out : List Byte} (h : out.length ≤ 3) :
    responseBytes out.length (responseWord fcode mode (packBytes out)) = out := by
  apply List.ext_getElem (by simp [responseBytes])
  intro k hk hk'
  simp only [responseBytes, List.getElem_map, List.getElem_range]
  rw [responseWord_byte fcode mode out (by omega), List.getD_eq_getElem _ _ hk']

theorem squeezeCount_le (i : Instr) : squeezeCount i ≤ 3 := by
  cases i <;> simp [squeezeCount]

/-- The stream from a later block on is a later part of the stream (R147). -/
theorem squeezedByte_keccakPower {r : Nat} (hr : 1 ≤ r) (a : Lanes) (q j : Nat) :
    squeezedByte r (keccakPower q a) j = squeezedByte r a (r * q + j) := by
  rw [squeezedByte, squeezedByte, Nat.mul_add_mod, Nat.mul_add_div hr, Nat.add_comm q, keccakPower_add]

/-- Byte `k` of the output that is still to come from this state (R147). -/
def outputFrom (s : State) (k : Nat) : Byte := squeezedByte s.rate.toNat s.mem.lanes (s.offset.toNat + k)

/-- A SQUEEZE of n bytes answers the next n bytes of output, and leaves what comes after them (R145, R147). -/
theorem transact_squeeze {i : Instr} {s : State} (hi : squeezeCount i ≠ 0) (h : BetweenCommands s)
    (hm : s.mode = .squeezing) :
    ∃ t r, transact (encode i) s = .next (t, r) ∧ BetweenCommands t ∧ ControlsKept s t ∧
      responseBytes (squeezeCount i) r = (List.range (squeezeCount i)).map (outputFrom s) ∧
      ∀ k, outputFrom t k = outputFrom s (squeezeCount i + k) := by
  have hready := betweenCommands_squeezeReady h hm
  obtain ⟨u, out, hu, hready', hwork, hout, hend⟩ := squeezeBytes_ready (n := squeezeCount i) hready
  obtain ⟨-, hr, -, ho⟩ := hready
  obtain ⟨hlanes, hoffset⟩ := hend hi
  have hs := squeezeBytes_spongeOnly hu
  have he : exec i s = .next (respond (packBytes out) u) := by
    rw [exec_squeeze hi, squeezeCommand_eq _ (by simp [hm]), hm, hu]
    rfl
  have hlen : out.length = squeezeCount i := by simp [hout]
  refine ⟨_, _, transact_encode he, betweenCommands_takeResponse (betweenCommands_respond
    (betweenCommands_of_squeeze h hm hs hready' (hwork h.pipelineAtRest.2))), hs.controlsKept, ?_, fun k => ?_⟩
  · calc responseBytes (squeezeCount i) (respond (packBytes out) u).rspReg
        = responseBytes out.length (responseWord u.fcode u.mode (packBytes out)) := by rw [hlen, respond_rspReg]
      _ = out := responseBytes_packBytes _ _ (hlen ▸ squeezeCount_le i)
      _ = _ := hout
  · have hq := Nat.mul_div_le (s.offset.toNat + squeezeCount i - 1) s.rate.toNat
    simp only [outputFrom, takeResponse_rate, takeResponse_mem, takeResponse_offset, respond_rate, respond_mem,
      respond_offset, hs.rate, hlanes, hoffset, squeezedByte_keccakPower hr]
    congr 1
    omega

theorem outputBytes_cons (i : Instr) (is : List Instr) (r : Word) (rs : List Word) :
    outputBytes (i :: is) (r :: rs) = responseBytes (squeezeCount i) r ++ outputBytes is rs := rfl

theorem outputBytes_append {is js : List Instr} {rs qs : List Word} (h : is.length = rs.length) :
    outputBytes (is ++ js) (rs ++ qs) = outputBytes is rs ++ outputBytes js qs := by
  rw [outputBytes, List.zip_append h, List.flatMap_append]
  rfl

/-- Commands that do not squeeze give no output. -/
theorem outputBytes_of_absorbs : ∀ {is : List Instr} (rs : List Word), AllAbsorb is → outputBytes is rs = []
  | [], _, _ => rfl
  | _ :: _, [], _ => rfl
  | i :: is, r :: rs, h => by
    obtain ⟨hi, his⟩ := List.forall_mem_cons.mp h
    rw [outputBytes_cons, squeezeCount_of_absorb hi, outputBytes_of_absorbs rs his]
    rfl

/-- SQUEEZEs answer the next bytes of output, in any split (R147). -/
theorem stream_squeezes : ∀ {is : List Instr} {s : State}, BetweenCommands s → s.mode = .squeezing → AllSqueeze is →
    ∃ t rs, stream (is.map encode) s = .next (t, rs) ∧ BetweenCommands t ∧ ControlsKept s t ∧
      outputBytes is rs = (List.range (streamLength is)).map (outputFrom s)
  | [], s, h, _, _ => ⟨s, [], rfl, h, .refl s, rfl⟩
  | i :: is, s, h, hm, hall => by
    obtain ⟨hi, his⟩ := List.forall_mem_cons.mp hall
    obtain ⟨t, r, ht, hgood, hkept, hbytes, hrest⟩ := transact_squeeze hi h hm
    obtain ⟨u, rs, hu, hgood', hkept', hbytes'⟩ := stream_squeezes hgood (hkept.mode.trans hm) his
    refine ⟨u, r :: rs, stream_cons ht hu, hgood', hkept.trans hkept', ?_⟩
    rw [outputBytes_cons, hbytes, hbytes', show streamLength (i :: is) = squeezeCount i + streamLength is from rfl,
      List.range_add, List.map_append, List.map_map]
    exact congrArg _ (List.map_congr_left fun k _ => hrest k)

/-! ### The whole computation -/

/-- Settles O56: the stream of the four parts runs through, absorbing the message and padding it is absorbing the padded
message block by block (`absorbBlocks_paddedMessage`), and the output is the stream of bytes from there
(`stream_squeezes`). -/
theorem commandsComputeTheSponge : Obligations.CommandsComputeTheSponge := by
  intro rate delim is js s h hm hr1 hr his hjs
  obtain ⟨t₁, r₁, h₁, hgood₁, hmode₁, hrate₁, hdelim₁, hoffset₁, hlanes₁⟩ := transact_init (delim := delim) h hm ⟨hr1, hr⟩
  obtain ⟨t₂, rs₂, h₂, hgood₂, hkept₂, hfold₂⟩ := stream_absorbs hgood₁ hmode₁ his
  obtain ⟨t₃, r₃, h₃, hgood₃, hmode₃, hrate₃, hoffset₃, hlanes₃⟩ := transact_finalize hgood₂ (hkept₂.mode.trans hmode₁)
  obtain ⟨t₄, rs₄, h₄, -, -, hout₄⟩ := stream_squeezes hgood₃ hmode₃ hjs
  have hrun := stream_append (stream_cons h₁ h₂) (stream_cons h₃ h₄)
  have hrun' : stream ((Instr.init rate delim :: is ++ Instr.finalize :: js).map encode) s =
      .next (t₄, r₁ :: rs₂ ++ r₃ :: rs₄) := by
    rw [← hrun, List.map_append]
    rfl
  have hlen₂ : is.length = rs₂.length := by rw [stream_length h₂, List.length_map]
  refine ⟨t₄, _, hrun', by rw [stream_length hrun', List.length_map], ?_⟩
  have hrate : t₃.rate = rate := hrate₃.trans (hkept₂.rate.trans hrate₁)
  have hstart : t₃.mem.lanes = absorbBlocks (Vector.replicate 25 0)
      (messageBlocks rate.toNat (paddedMessage rate.toNat delim (streamInput is))) := by
    have hfold : (t₂.mem.lanes, t₂.offset.toNat) =
        (streamInput is).foldl (absorbReference rate.toNat) (Vector.replicate 25 0, 0) := by
      rw [hfold₂, hrate₁, hlanes₁, hoffset₁]
      rfl
    rw [hlanes₃, absorbBlocks_paddedMessage delim hr1 hr, ← hfold, hkept₂.rate, hrate₁, hkept₂.delim, hdelim₁]
  have hout : outputFrom t₃ = squeezedByte rate.toNat t₃.mem.lanes := by
    funext k
    rw [outputFrom, hrate, hoffset₃]
    exact congrArg _ (Nat.zero_add k)
  rw [outputBytes_append (by simp [hlen₂]), outputBytes_cons, outputBytes_cons, outputBytes_of_absorbs rs₂ his, hout₄, hout,
    hstart]
  rfl

end Sys2Proof.Machine

/-! ## O49: the timing of a command depends on OP, N1, MODE, RATE and OFFSET (R110, R218)

BUSY and RSP_PENDING after any number of edges are functions of the ports and of the latency alone (`clockEdges_timing`), and
the latency is one of the fields of the word and three registers (`permsOf_eq_permsOfFields`). -/

namespace Sys2Proof.Machine

/-! ### The permutations of a command, from its fields -/

/-- P of R218 from OP and N1 (R110). -/
def permsOfFields (op : BitVec 4) (n1 : BitVec 2) (mode : Mode) (rate offset : Byte) : Nat :=
  if op = 2 ∧ mode = .absorbing then absorbPerms rate (n1.toNat + 1) offset
  else if op = 3 ∧ mode = .absorbing then 1
  else if op = 4 ∧ mode = .squeezing then squeezePerms rate (n1.toNat + 1) offset
  else 0

theorem permsOf_eq_permsOfFields (i : Instr) (mode : Mode) (rate offset : Byte) :
    permsOf i mode rate offset = permsOfFields (opField (encode i)) (n1Field (encode i)) mode rate offset := by
  cases i with
  | status | init | finalize => simp [permsOf, permsOfFields, encode]
  | absorb1 | absorb2 | absorb3 => simp [permsOf, permsOfFields, encode, absorbOperands]
  | squeeze1 | squeeze2 | squeeze3 => simp [permsOf, permsOfFields, encode, squeezeCount]

theorem permsOfWord_encode (i : Instr) (s : State) : permsOfWord (encode i) s = permsOf i s.mode s.rate s.offset := by
  rw [permsOfWord, decode_encode]

/-- R110: commands with the same OP and N1 take the same time from the same MODE, RATE and OFFSET. -/
theorem latency_congr (rpc : RoundsPerCycle) {i j : Instr} {s u : State} (hm : s.mode = u.mode) (hr : s.rate = u.rate)
    (ho : s.offset = u.offset) (hop : opField (encode i) = opField (encode j))
    (hn : n1Field (encode i) = n1Field (encode j)) : latency rpc (encode i) s = latency rpc (encode j) u := by
  simp only [latency, permsOfWord_encode, permsOf_eq_permsOfFields, hm, hr, ho, hop, hn]

/-! ### BUSY and RSP_PENDING after any number of edges -/

/-- With no command in progress an edge at which the host only waits lets it take the response (R72). -/
theorem clockEdge_after_response {rpc : RoundsPerCycle} {p : Ports} {s : State} (hf : s.flight = none)
    (ho : s.offer = .none) (hp : Quiet p) :
    ∃ t, clockEdge rpc p s = .next t ∧ t.flight = none ∧ t.offer = .none ∧
      t.rspPending = (s.rspPending && !p.rspReady) := by
  obtain ⟨hrst, hvalid⟩ := hp
  exact ⟨_, clockEdge_waits hrst (by simp [breaksOffer, ho]) hf (by simp [hvalid]), hf, by simp [hvalid], rfl⟩

/-- With no command in progress a response stays pending until an edge with `rsp_ready` = 1 (R72). -/
theorem clockEdges_after_response {rpc : RoundsPerCycle} : ∀ {ps : List Ports} {s : State}, s.flight = none →
    s.offer = .none → (∀ p ∈ ps, Quiet p) →
      ∃ t, clockEdges rpc ps s = .next t ∧ t.busy = false ∧
        t.rspPending = (s.rspPending && ps.all fun p => !p.rspReady)
  | [], s, hf, _, _ => ⟨s, rfl, by simp [State.busy, hf], by simp⟩
  | p :: ps, s, hf, ho, hq => by
    obtain ⟨hp, hps⟩ := List.forall_mem_cons.mp hq
    obtain ⟨u, hu, hfu, hou, hpu⟩ := clockEdge_after_response (rpc := rpc) hf ho hp
    obtain ⟨t, ht, hbusy, hpending⟩ := clockEdges_after_response (rpc := rpc) hfu hou hps
    exact ⟨t, by rw [clockEdges_cons, hu]; exact ht, hbusy, by rw [hpending, hpu, List.all_cons, Bool.and_assoc]⟩

/-- RSP_PENDING after these edges, for a command whose latency is `n`: the response has come and was not taken. -/
def pendingAfter (n : Nat) (ps : List Ports) : Bool := decide (n ≤ ps.length) && (ps.drop n).all fun p => !p.rspReady

/-- From the edge that accepts a command, BUSY and RSP_PENDING depend on the latency and the ports alone. -/
theorem clockEdges_timing {rpc : RoundsPerCycle} {i : Instr} {s : State} {ps : List Ports} (h : BetweenCommands s)
    (hi : CoreIdle s) (hq : ∀ p ∈ ps, Quiet p) :
    ∃ t, clockEdges rpc (offerPorts (encode i) :: ps) s = .next t ∧
      t.busy = decide (ps.length < latency rpc (encode i) s) ∧
      t.rspPending = pendingAfter (latency rpc (encode i) s) ps := by
  rcases Nat.lt_or_ge ps.length (latency rpc (encode i) s) with hlt | hge
  · obtain ⟨t, ht, hbusy, hsilent, -⟩ := noResponseBeforeTheLatency rpc (encode i) s ps h hi hq hlt
    exact ⟨t, ht, by simp [hbusy, hlt], by simp [pendingAfter, hsilent, Nat.not_le.mpr hlt]⟩
  · obtain ⟨t, ht⟩ := execWord_answers (encode i) (s := releaseReset s) (by exact h)
    have hrun : clockEdges rpc (offerPorts (encode i) :: ps.take (latency rpc (encode i) s)) s = .next t :=
      (clockEdges_eq_execWord h hi (fun p hp => hq p (List.mem_of_mem_take hp)) (by simpa using hge)).trans ht
    rw [execWord_encode] at ht
    obtain ⟨-, -, hoffer, -, hflight, hpending, -⟩ := registerFrameOfEveryCommand i _ t ht
    obtain ⟨u, hu, hbusy, hrest⟩ := clockEdges_after_response (rpc := rpc) (ps := ps.drop (latency rpc (encode i) s))
      hflight (hoffer.trans hi.2.2) fun p hp => hq p (List.mem_of_mem_drop hp)
    refine ⟨u, ?_, by simp [hbusy, hge], by simp [pendingAfter, hrest, hpending, hge]⟩
    rw [← List.take_append_drop (latency rpc (encode i) s) ps, ← List.cons_append, clockEdges_append, hrun]
    exact hu

/-- Settles O49: the timing of each run is that of its latency (`clockEdges_timing`), and the latencies are equal
(`latency_congr`). -/
theorem timingIsIndependentOfData : Obligations.TimingIsIndependentOfData := by
  intro rpc i j s u ps hs hu hsi hui hm hr ho hop hn hq
  obtain ⟨t, ht, htb, htp⟩ := clockEdges_timing (rpc := rpc) (i := i) hs hsi hq
  obtain ⟨v, hv, hvb, hvp⟩ := clockEdges_timing (rpc := rpc) (i := j) hu hui hq
  have hlat : latency rpc (encode i) s = latency rpc (encode j) u := latency_congr rpc hm hr ho hop hn
  exact ⟨t, v, ht, hv, by rw [htb, hvb, hlat], by rw [htp, hvp, hlat]⟩

end Sys2Proof.Machine

/-! ## O32 to O38 and O41: the permutation (R100 to R115)

Each step of a round is given lane by lane (`laneAt_thetaStep` and the lemmas after it); the statements on bits follow from these
and from `getLsbD_rotl64`. -/

namespace Sys2Proof.Machine

/-! ### Rotations -/

theorem getLsbD_rotl64 (v : Lane) {n z : Nat} (hn : n < 64) (hz : z < 64) :
    (rotl64 v n).getLsbD z = v.getLsbD ((z + (64 - n)) % 64) := by
  unfold rotl64
  split_ifs with h0
  · rw [h0, Nat.sub_zero, Nat.add_mod_right, Nat.mod_eq_of_lt hz]
  · rw [BitVec.getLsbD_or, BitVec.getLsbD_shiftLeft, BitVec.getLsbD_ushiftRight]
    rcases Nat.lt_or_ge z n with h | h
    · rw [show (z + (64 - n)) % 64 = 64 - n + z by omega]
      simp [h]
    · rw [show (z + (64 - n)) % 64 = z - n by omega, BitVec.getLsbD_of_ge v (64 - n + z) (by omega)]
      simp [hz, Nat.not_lt.mpr h]

/-- Settles O32 (`getLsbD_rotl64`). -/
theorem rotationMovesBits : Obligations.RotationMovesBits := fun v _ _ hn hz => getLsbD_rotl64 v hn hz

/-! ### The steps of a round, lane by lane -/

/-- Coordinates count mod 5 (R12). -/
theorem laneAt_congr (a : Lanes) {x x' y y' : Nat} (hx : x % 5 = x' % 5) (hy : y % 5 = y' % 5) :
    laneAt a x y = laneAt a x' y' := by
  simp only [laneAt, hx, hy]

theorem thetaEffect_mod (a : Lanes) (x : Nat) : thetaEffect a (x % 5) = thetaEffect a x := by
  simp only [thetaEffect, columnParity, laneAt, Nat.mod_add_mod]

theorem laneAt_thetaStep (a : Lanes) (x y : Nat) : laneAt (thetaStep a) x y = laneAt a x y ^^^ thetaEffect a x := by
  simp only [thetaStep, laneAt_lanesOfFn, Vector.getElem_ofFn, Nat.mod_mod]
  rw [laneAt_congr a (Nat.mod_mod x 5) (Nat.mod_mod y 5), thetaEffect_mod]

theorem laneAt_rhoStep (a : Lanes) {x y : Nat} (hx : x < 5) (hy : y < 5) :
    laneAt (rhoStep a) x y = rotl64 (laneAt a x y) (rhoOffset x y) := by
  rw [rhoStep, laneAt_lanesOfFn, Nat.mod_eq_of_lt hx, Nat.mod_eq_of_lt hy]

theorem laneAt_piStep (a : Lanes) (x y : Nat) : laneAt (piStep a) x y = laneAt a (x + 3 * y) x := by
  rw [piStep, laneAt_lanesOfFn]
  exact laneAt_congr a (by omega) (Nat.mod_mod x 5)

theorem laneAt_chiStep (a : Lanes) (x y : Nat) :
    laneAt (chiStep a) x y = laneAt a x y ^^^ (~~~ laneAt a (x + 1) y &&& laneAt a (x + 2) y) := by
  rw [chiStep, laneAt_lanesOfFn]
  simp only [laneAt, Nat.mod_mod, Nat.mod_add_mod]

theorem laneAt_iotaStep (a : Lanes) (ir : Nat) {x y : Nat} (hx : x < 5) (hy : y < 5) :
    laneAt (iotaStep a ir) x y = if x = 0 ∧ y = 0 then laneAt a 0 0 ^^^ roundConstant ir else laneAt a x y := by
  have hindex : 0 = x % 5 + 5 * (y % 5) ↔ x = 0 ∧ y = 0 := by omega
  rw [iotaStep, laneAt, Vector.getElem_set]
  simp only [hindex]
  rfl

/-! ### THETA (R101) -/

theorem getLsbD_columnParity (a : Lanes) (x z : Nat) :
    (columnParity a x).getLsbD z =
      (List.range 5).foldl (fun p y => Bool.xor p ((laneAt a x y).getLsbD z)) false := by
  simp [columnParity, List.range_succ]

/-- Settles O33: the effect of THETA is the parity of one column and the rotated parity of another. -/
theorem thetaBitByBit : Obligations.ThetaBitByBit := by
  intro a x y z _ _ hz
  simp only [laneAt_thetaStep, thetaEffect, BitVec.getLsbD_xor, getLsbD_rotl64 _ (show 1 < 64 by decide) hz,
    getLsbD_columnParity]

/-! ### RHO (R102) -/

theorem rhoOffset_lt : ∀ x < 5, ∀ y < 5, rhoOffset x y < 64 := by decide

/-- Settles O34: RHO rotates each lane (`laneAt_rhoStep`) by its entry in the table. -/
theorem rhoMovesBitsWithinLanes : Obligations.RhoMovesBitsWithinLanes := by
  refine ⟨fun a x y z hx hy hz => ?_, by decide, fun a => ?_⟩
  · have hoffset := rhoOffset_lt x hx y hy
    rw [laneAt_rhoStep a hx hy, getLsbD_rotl64 _ hoffset (Nat.mod_lt _ (by decide))]
    congr 1
    omega
  · rw [laneAt_rhoStep a (by decide) (by decide)]
    rfl

/-! ### PI (R103) -/

/-- R103's scatter form. -/
theorem laneAt_piStep_scatter (a : Lanes) (x y : Nat) : laneAt (piStep a) y ((2 * x + 3 * y) % 5) = laneAt a x y := by
  rw [laneAt_piStep]
  exact laneAt_congr a (by omega) rfl

/-- The lanes in the order of R21. -/
theorem toList_eq_map_laneAt (a : Lanes) : a.toList = (List.range 25).map fun i => laneAt a (i % 5) (i / 5) := by
  apply List.ext_getElem
  · simp
  · intro i hi _
    have hi25 : i < 25 := by simpa using hi
    simp only [Vector.getElem_toList, List.getElem_map, List.getElem_range, laneAt]
    congr 1
    omega

theorem getD_toList (a : Lanes) (x y : Nat) : a.toList.getD (x % 5 + 5 * (y % 5)) 0 = laneAt a x y := by
  rw [List.getD_eq_getElem _ _ (by simp; omega), Vector.getElem_toList]
  rfl

/-- Settles O35: lane by lane (`laneAt_piStep`), and the table of sources is that of the gather form. -/
theorem piRelocatesLanes : Obligations.PiRelocatesLanes := by
  refine ⟨fun a x y _ _ => laneAt_piStep_scatter a x y, fun a x y _ _ => ?_, fun a => ?_, fun a => laneAt_piStep a 0 0,
    fun x y x' y' _ _ _ _ hy h => by omega⟩
  · rw [laneAt_piStep]
    exact laneAt_congr a (Nat.mod_mod _ 5).symm rfl
  · have hsource : [0, 6, 12, 18, 24, 3, 9, 10, 16, 22, 1, 7, 13, 19, 20, 4, 5, 11, 17, 23, 2, 8, 14, 15, 21] =
        (List.range 25).map fun i => (i % 5 + 3 * (i / 5)) % 5 + 5 * (i % 5 % 5) := by decide
    rw [hsource, toList_eq_map_laneAt (piStep a), List.map_map]
    refine List.map_congr_left fun i _ => ?_
    rw [laneAt_piStep, Function.comp_apply, getD_toList]

/-! ### CHI and IOTA (R104, R105) -/

/-- Settles O36, lane by lane (`laneAt_chiStep`, `laneAt_iotaStep`). -/
theorem chiAndIotaLaneByLane : Obligations.ChiAndIotaLaneByLane := by
  refine ⟨fun a x y z _ _ hz => ?_, fun a ir x y hx hy => laneAt_iotaStep a ir hx hy⟩
  simp [laneAt_chiStep, hz]

/-! ### The round pipeline (R109) -/

/-- `m` cycles of `n` consecutive rounds are `m * n` rounds. -/
theorem foldl_roundsFrom (n : Nat) (a : Lanes) : ∀ m : Nat,
    (List.range m).foldl (fun b k => roundsFrom (k * n) n b) a = roundsFrom 0 (m * n) a
  | 0 => by simp [roundsFrom]
  | m + 1 => by
    rw [List.range_succ, List.foldl_append, foldl_roundsFrom n a m, Nat.succ_mul, roundsFrom_add, Nat.zero_add]
    rfl

/-- Settles O41: the cycles run 24 rounds (`permCycles_mul`). -/
theorem pipelineComputesKeccakF : Obligations.PipelineComputesKeccakF := by
  intro rpc a
  rw [foldl_roundsFrom, permCycles_mul, keccakF_eq]

/-! ### Tables and values (R106, R115, R100) -/

/-- Settles O37: both tables are finite. -/
theorem generationRulesGiveTheTables : Obligations.GenerationRulesGiveTheTables := by
  constructor
  · decide
  · decide +kernel

/-- Settles O38: the 24 rounds evaluated on the zero state. -/
theorem keccakFOfZero : Obligations.KeccakFOfZero := by
  unfold Obligations.KeccakFOfZero
  simp only [keccakF_eq]
  decide +kernel

end Sys2Proof.Machine

/-! ## O14 to O20: what each command does (R141 to R145)

A check that fails gives its fault entry (`exec_of_check`); past the check a command answers what its loop or its padding left
(`exec_of_absorbBytes`, `exec_of_squeezeBytes`, `exec_of_padBlock`), and those leave all but S, the working register and OFFSET
(`SpongeOnly`). -/

namespace Sys2Proof.Machine

/-! ### The answer of each command -/

/-- A command whose check fails outside FAULT gives the fault entry of the cause (R181, R183). -/
theorem exec_of_check {i : Instr} {c : Cause} {s : State} (hm : s.mode ≠ .fault) (hc : commandCheck i s = some c) :
    exec i s = .next (faulted c.code s) := by
  have hraise (go : Host.Outcome State Fault Refusal) :
      faultGate s (checked (commandCheck i s) s go) = .next (faulted c.code s) := by
    rw [faultGate_other hm, hc]
    rfl
  cases i with
  | status => cases hc
  | init | absorb1 | absorb2 | absorb3 | finalize | squeeze1 | squeeze2 | squeeze3 => exact hraise _

/-- An INIT with a legal rate starts a fresh sponge (R142). -/
theorem exec_init {rate delim : Byte} {s : State} (hm : s.mode ≠ .fault) (hr : 1 ≤ rate.toNat ∧ rate.toNat ≤ 199) :
    exec (.init rate delim) s = .next (respond 0 (initialise rate delim s)) := by
  change execInit rate delim s = _
  rw [execInit, faultGate_other hm, if_pos (legalRate_iff.mpr hr)]
  rfl

/-- An ABSORB in ABSORBING answers what its loop left (R143). -/
theorem exec_of_absorbBytes {i : Instr} {s u : State} (hi : absorbOperands i ≠ []) (hm : s.mode = .absorbing)
    (hu : absorbBytes (absorbOperands i) s = .ok u) : exec i s = .next (respond 0 u) := by
  rw [exec_absorb hi, absorbCommand_eq _ (by simp [hm]), hm, hu]
  rfl

/-- FINALIZE in ABSORBING permutes what its padding left (R144). -/
theorem exec_of_padBlock {s u : State} (hm : s.mode = .absorbing) (hu : padBlock s = .ok u) :
    exec .finalize s = .next (respond 0 (setMode .squeezing (permuteBlock u))) := by
  change execFinalize s = _
  rw [execFinalize, faultGate_other (by simp [hm]), hm, hu]
  rfl

/-- A SQUEEZE in SQUEEZING answers the bytes that its loop read (R145). -/
theorem exec_of_squeezeBytes {i : Instr} {s u : State} {out : List Byte} (hi : squeezeCount i ≠ 0)
    (hm : s.mode = .squeezing) (hu : squeezeBytes (squeezeCount i) s = .ok (u, out)) :
    exec i s = .next (respond (packBytes out) u) := by
  rw [exec_squeeze hi, squeezeCommand_eq _ (by simp [hm]), hm, hu]
  rfl

/-! ### What an answer leaves and carries -/

/-- Work on S, the working register and OFFSET leaves the other registers and the host's side. -/
theorem SpongeOnly.onlyDataChanged {s t : State} (h : SpongeOnly s t) : OnlyDataChanged s t := by
  obtain ⟨hrate, hdelim, -, hfcode, hrcIdx, -, -, -, hrst, hoffer, hinputs⟩ := h
  exact ⟨hrate, hdelim, hfcode, hrcIdx, hrst, hoffer, hinputs⟩

theorem SpongeOnly.fcode {s t : State} (h : SpongeOnly s t) : t.fcode = s.fcode := by
  obtain ⟨-, -, -, hfcode, -⟩ := h
  exact hfcode

/-- A response carries FCODE and MODE as the command left them (R82). -/
theorem responds_respond {fcode : BitVec 4} {mode : Mode} {u : State} (hf : u.fcode = fcode) (hm : u.mode = mode)
    (data : BitVec 24) : Responds fcode mode.code data (respond data u) := by
  subst hf hm
  exact ⟨rfl, rfl, rfl⟩

/-! ### STATUS (R141) -/

/-- The response of STATUS field by field (R82, R83). -/
theorem responseWord_statusData (s : State) :
    responseWord s.fcode s.mode (statusData s) = (0#2) ++ s.fcode ++ s.mode.code ++ s.delim ++ s.rate ++ s.offset := by
  apply BitVec.eq_of_toNat_eq
  simp only [responseWord, statusData, toNat_append]
  omega

/-- Settles O14: the response is `responseWord_statusData`, of which R32 leaves no bit in IDLE. -/
theorem statusReadsTheConfiguration : Obligations.StatusReadsTheConfiguration := by
  refine ⟨by decide, fun s => ?_, fun s h hm => ?_⟩
  · refine congrArg Host.Outcome.next (State.ext_fields rfl rfl rfl rfl rfl rfl rfl rfl rfl rfl ?_ rfl rfl rfl)
    refine (responseWord_statusData s).trans ?_
    cases s.mode <;> rfl
  · have hfcode : s.fcode = 0 := h.fcodeInv.1 (by simp [hm])
    obtain ⟨-, hidle, -⟩ := h
    obtain ⟨hrate, hdelim, hoffset, -⟩ := hidle hm
    have hzero : responseWord s.fcode s.mode (statusData s) = 0x00000000 := by
      rw [responseWord_statusData, hfcode, hm, hdelim, hrate, hoffset]
      rfl
    rw [← hzero]
    rfl

/-! ### INIT (R142) -/

/-- Settles O15: the answer of a legal INIT is `initialise`, and the rate check refuses every other one. -/
theorem initConstructsAFreshSponge : Obligations.InitConstructsAFreshSponge := by
  refine ⟨encode_init, fun rate delim s hm => ?_⟩
  split
  case isTrue hr =>
    exact ⟨_, exec_init hm hr, Memory.zeros_wf, Memory.read_zeros, rfl, rfl, rfl, rfl, rfl, rfl, rfl, ⟨rfl, rfl, rfl⟩, rfl,
      rfl, rfl⟩
  case isFalse hr =>
    have hc : commandCheck (.init rate delim) s = some .invalidRate := if_neg (mt legalRate_iff.mp hr)
    exact exec_of_check hm hc

/-! ### ABSORB (R143) -/

/-- The header of an ABSORB's word (R74, R77). -/
theorem absorb_header {i : Instr} (hi : absorbOperands i ≠ []) :
    opField (encode i) = 2 ∧ (n1Field (encode i)).toNat + 1 = (absorbOperands i).length := by
  cases i with
  | absorb1 | absorb2 | absorb3 => simp [encode, absorbOperands]
  | _ => exact absurd rfl hi

/-- Settles O16: the loop is the reference byte by byte (`absorbBytes_ready`), and the mode check gives the faults. -/
theorem absorbXorsAdvancesAndPermutes : Obligations.AbsorbXorsAdvancesAndPermutes := by
  intro i s hi hw
  refine ⟨absorb_header hi, fun hm hr ho => ?_, fun hm => ?_, fun hm => ?_⟩
  · obtain ⟨u, hu, ⟨hwf, -⟩, hwork, -, hfold⟩ := absorbBytes_ready (bs := absorbOperands i) ⟨hw, hr, ho⟩
    have hs := absorbBytes_spongeOnly hu
    have hmode : u.mode = .absorbing := hs.mode.trans hm
    exact ⟨_, exec_of_absorbBytes hi hm hu, hwf, hfold, hwork hi, hmode, hs.onlyDataChanged,
      responds_respond hs.fcode hmode 0⟩
  · have hc : commandCheck i s = some .notConfigured := by rw [commandCheck_absorb hi, hm, absorbCheck]
    exact exec_of_check (by simp [hm]) hc
  · have hc : commandCheck i s = some .absorbAfterFinalize := by rw [commandCheck_absorb hi, hm, absorbCheck]
    exact exec_of_check (by simp [hm]) hc

/-- The loop neither reads the response nor writes FCODE and MODE, so a response given before it may be given after it. -/
theorem absorbByte_respond (b : Byte) (s : State) : absorbByte b (respond 0 s) = (absorbByte b s).map (respond 0) := by
  by_cases h : s.offset.toNat < 200
  · rw [absorbByte_ok h, absorbByte_ok (by exact h)]
    refine congrArg Except.ok (Eq.trans ?_ (apply_ite (respond 0) _ _ _).symm)
    rfl
  · simp [absorbByte, absorbCursor, xorByte, h, Except.map]

theorem absorbBytes_respond : ∀ (bs : List Byte) (s : State),
    absorbBytes bs (respond 0 s) = (absorbBytes bs s).map (respond 0)
  | [], _ => rfl
  | b :: bs, s => by
    simp only [absorbBytes, absorbByte_respond]
    cases absorbByte b s with
    | ok t => exact absorbBytes_respond bs t
    | error f => rfl

/-- With the cursor in the rate window the loop completes, in whatever form S is held. -/
theorem absorbBytes_completes : ∀ (bs : List Byte) {s : State}, s.rate.toNat ≤ 199 → s.offset.toNat < s.rate.toNat →
    ∃ t, absorbBytes bs s = .ok t ∧ t.offset.toNat < t.rate.toNat
  | [], s, _, ho => ⟨s, rfl, ho⟩
  | b :: bs, s, hr, ho => by
    have ho' : s.offset.toNat < 200 := by omega
    have hadv := toNat_advance ho'
    simp only [absorbBytes, absorbByte_ok ho']
    by_cases hb : s.offset + 1 = s.rate
    · rw [if_pos hb]
      exact absorbBytes_completes bs hr (by simp; omega)
    · rw [if_neg hb]
      have hne : s.offset.toNat + 1 ≠ s.rate.toNat := mt (eq_rate_iff ho').mpr hb
      exact absorbBytes_completes bs hr (by simp; omega)

/-- An ABSORB of some bytes and then of others is an ABSORB of them all (R149). -/
theorem absorbCommand_append {bs cs : List Byte} {s t : State} (hm : s.mode = .absorbing)
    (h : absorbCommand bs s = .next t) : absorbCommand (bs ++ cs) s = absorbCommand cs t := by
  rcases absorbCommand_cases h with ⟨hm', -⟩ | ⟨c, -, -, hm', -⟩ | ⟨-, u, hu, rfl⟩
  · rw [hm] at hm'
    cases hm'
  · exact absurd hm hm'
  · have hmode : (respond 0 u).mode = .absorbing := (absorbBytes_spongeOnly hu).mode.trans hm
    have hsplit : absorbBytes (bs ++ cs) s = absorbBytes cs u := by rw [absorbBytes_append, hu]
    rw [absorbCommand_eq _ (by simp [hm]), absorbCommand_eq cs (by rw [hmode]; simp), hm, hmode, hsplit,
      absorbBytes_respond]
    cases absorbBytes cs u <;> rfl

/-- An ABSORB in ABSORBING completes, and leaves the cursor in the rate window (R143). -/
theorem absorbCommand_completes (bs : List Byte) {s : State} (hm : s.mode = .absorbing) (hr : s.rate.toNat ≤ 199)
    (ho : s.offset.toNat < s.rate.toNat) :
    ∃ t, absorbCommand bs s = .next t ∧ t.mode = .absorbing ∧ t.rate.toNat ≤ 199 ∧ t.offset.toNat < t.rate.toNat := by
  obtain ⟨u, hu, hou⟩ := absorbBytes_completes bs hr ho
  have hs := absorbBytes_spongeOnly hu
  refine ⟨respond 0 u, ?_, hs.mode.trans hm, by simpa [hs.rate] using hr, hou⟩
  rw [absorbCommand_eq _ (by simp [hm]), hm, hu]
  rfl

/-- Settles O17, one byte after another (`absorbCommand_append`). -/
theorem longAbsorbsAreByteAbsorbs : Obligations.LongAbsorbsAreByteAbsorbs := by
  intro b0 b1 b2 s hm hr ho
  obtain ⟨t, ht, hmt, hrt, hot⟩ := absorbCommand_completes [b0] hm hr ho
  obtain ⟨u, hu, hmu, hru, hou⟩ := absorbCommand_completes [b1] hmt hrt hot
  obtain ⟨v, hv, -⟩ := absorbCommand_completes [b2] hmu hru hou
  have htwo : absorbCommand ([b0] ++ [b1]) s = .next u := (absorbCommand_append hm ht).trans hu
  exact ⟨t, u, v, ht, hu, hv, htwo, (absorbCommand_append hm htwo).trans hv⟩

/-! ### FINALIZE (R144) -/

/-- FINALIZE pads, permutes and goes to SQUEEZING, with nothing else changed (R144). -/
theorem exec_finalize {s : State} (hw : s.mem.wf = true) (hm : s.mode = .absorbing) (hr : s.rate.toNat ≤ 199)
    (ho : s.offset.toNat < s.rate.toNat) :
    ∃ t, exec .finalize s = .next t ∧ t.mem.wf = true ∧
      t.mem.lanes = keccakF (xorLaneByte (xorLaneByte s.mem.lanes s.offset.toNat s.delim) (s.rate.toNat - 1) 0x80) ∧
      t.work = t.mem.lanes ∧ t.offset = 0 ∧ t.mode = .squeezing ∧ OnlyDataChanged s t ∧ Responds s.fcode 2 0 t := by
  obtain ⟨u, hu, -, hlanes, -⟩ := padBlock_ready ⟨hw, hr, ho⟩
  obtain ⟨hs, -⟩ := padBlock_spongeOnly hu
  have hkept := (hs.trans (permuteBlock_spongeOnly u)).onlyDataChanged
  have hfcode : (setMode .squeezing (permuteBlock u)).fcode = s.fcode := by simp [hs.fcode]
  refine ⟨_, exec_of_padBlock hm hu, by simp, by simp [hlanes], by simp, by simp, by simp, hkept, ?_⟩
  exact responds_respond (mode := .squeezing) hfcode (setMode_mode _ _) 0

/-- Settles O18: the padded permutation (`exec_finalize`), and the mode check gives the faults. -/
theorem finalizePadsAndPermutes : Obligations.FinalizePadsAndPermutes := by
  refine ⟨by decide, fun s hw => ⟨exec_finalize hw, fun hm => ?_, fun hm => ?_⟩⟩
  · have hc : commandCheck .finalize s = some .notConfigured := by rw [commandCheck, hm, finalizeCheck]
    exact exec_of_check (by simp [hm]) hc
  · have hc : commandCheck .finalize s = some .finalizeAfterFinalize := by rw [commandCheck, hm, finalizeCheck]
    exact exec_of_check (by simp [hm]) hc

/-- XORing a byte in twice leaves the lanes as they were. -/
theorem xorLaneByte_self (a : Lanes) {i : Nat} (hi : i < 200) (b : Byte) : xorLaneByte (xorLaneByte a i b) i b = a := by
  refine lanes_ext_bytes fun j hj => ?_
  rw [lanesByte_xorLaneByte _ hi hj, lanesByte_xorLaneByte _ hi hj, BitVec.xor_assoc, BitVec.xor_self, BitVec.xor_zero]

/-- Settles O19: at the last byte of the rate window DELIM and the padding bit hit the same byte (`xorLaneByte_self`). -/
theorem paddingCancelsForDelimiter80 : Obligations.PaddingCancelsForDelimiter80 := by
  intro s hw hm hr ho hd
  obtain ⟨t, ht, hwf, hlanes, -⟩ := exec_finalize hw hm hr (by omega)
  refine ⟨t, ht, ?_⟩
  rw [← Memory.ofLanes_lanes hwf, hlanes, hd, show s.rate.toNat - 1 = s.offset.toNat by omega,
    xorLaneByte_self _ (by omega)]

/-! ### SQUEEZE (R145) -/

/-- DATA of a SQUEEZE of n bytes of a stream: the first n, and 0 above them (R83). -/
theorem packBytes_map_range (n : Nat) (f : Nat → Byte) :
    packBytes ((List.range n).map f) =
      (if 2 < n then f 2 else 0) ++ (if 1 < n then f 1 else 0) ++ (if 0 < n then f 0 else 0) := by
  have hget (k : Nat) : ((List.range n).map f).getD k 0 = if k < n then f k else 0 := by
    split
    case isTrue hk => simp [hk]
    case isFalse hk => simp [hk]
  rw [packBytes, hget, hget, hget]

/-- A SQUEEZE reads the output stream from the cursor on (R145, R147). -/
theorem exec_squeezing {i : Instr} {s : State} (hi : squeezeCount i ≠ 0) (hready : SqueezeReady s)
    (hm : s.mode = .squeezing) :
    ∃ t, exec i s = .next t ∧ t.mem.wf = true ∧
      t.mem.lanes = keccakPower ((s.offset.toNat + squeezeCount i - 1) / s.rate.toNat) s.mem.lanes ∧
      (s.work = s.mem.lanes → t.work = t.mem.lanes) ∧
      t.offset.toNat = s.offset.toNat + squeezeCount i -
        s.rate.toNat * ((s.offset.toNat + squeezeCount i - 1) / s.rate.toNat) ∧
      t.mode = .squeezing ∧ OnlyDataChanged s t ∧
      Responds s.fcode 2 (packBytes ((List.range (squeezeCount i)).map (outputFrom s))) t := by
  obtain ⟨u, out, hu, ⟨hwf, -⟩, hwork, rfl, hend⟩ := squeezeBytes_ready (n := squeezeCount i) hready
  obtain ⟨hlanes, hoffset⟩ := hend hi
  have hs := squeezeBytes_spongeOnly hu
  have hmode : u.mode = .squeezing := hs.mode.trans hm
  exact ⟨_, exec_of_squeezeBytes hi hm hu, hwf, hlanes, hwork, hoffset, hmode, hs.onlyDataChanged,
    responds_respond hs.fcode hmode _⟩

/-- The word of a SQUEEZE (R78). -/
theorem encode_squeeze {i : Instr} (hi : squeezeCount i ≠ 0) :
    encode i = BitVec.ofNat 32 (0x40000000 + (squeezeCount i - 1) * 2 ^ 24) := by
  cases i with
  | squeeze1 | squeeze2 | squeeze3 => exact encode_eq_ofNat rfl
  | _ => exact absurd rfl hi

/-- Settles O20: the loop reads the output stream (`exec_squeezing`), and the mode check gives the faults. -/
theorem squeezeReadsTheOutputStream : Obligations.SqueezeReadsTheOutputStream := by
  intro i s hi hw
  refine ⟨encode_squeeze hi, fun hm hr1 hr ho => ?_, fun hm => ?_, fun hm => ?_⟩
  · intro n r o byte
    have hdata : packBytes ((List.range n).map (outputFrom s)) = byte 2 ++ byte 1 ++ byte 0 := packBytes_map_range _ _
    rw [← hdata]
    exact exec_squeezing hi ⟨hw, hr1, hr, ho⟩ hm
  · have hc : commandCheck i s = some .notConfigured := by rw [commandCheck_squeeze hi, hm, squeezeCheck]
    exact exec_of_check (by simp [hm]) hc
  · have hc : commandCheck i s = some .squeezeBeforeFinalize := by rw [commandCheck_squeeze hi, hm, squeezeCheck]
    exact exec_of_check (by simp [hm]) hc

end Sys2Proof.Machine

/-! ## O51 to O55: streams of ABSORBs and SQUEEZEs, and the permutations they perform (R147 to R152)

What a stream leaves and answers is that of its bytes one after another (`stream_absorbs`, `stream_squeezes`), so it does not
depend on the split. The permutations of a command are a quotient by RATE of where its cursor ends (`absorbPerms_eq`,
`squeezePerms_eq`), and these quotients add up along a stream (`streamPerms_absorbs`, `streamPerms_squeezes`). -/

namespace Sys2Proof.Machine

/-! ### The permutations of one command (R146) -/

/-- ABSORB permutes each time its cursor comes to RATE. -/
theorem absorbPerms_eq {rate : Byte} (hr : rate.toNat ≤ 199) : ∀ (n : Nat) {o : Byte}, o.toNat < rate.toNat →
    absorbPerms rate n o = (o.toNat + n) / rate.toNat
  | 0, o, ho => (Nat.div_eq_of_lt ho).symm
  | n + 1, o, ho => by
    have ho' : o.toNat < 200 := by omega
    rw [absorbPerms]
    by_cases hb : o + 1 = rate
    · have hlast : o.toNat + (n + 1) = n + rate.toNat := by
        have := (eq_rate_iff ho').mp hb
        omega
      rw [if_pos hb, absorbPerms_eq hr n (by simp; omega), hlast, Nat.add_div_right _ (by omega)]
      simp
    · have hadv := toNat_advance ho'
      have hne : o.toNat + 1 ≠ rate.toNat := mt (eq_rate_iff ho').mpr hb
      rw [if_neg hb, absorbPerms_eq hr n (by omega), hadv, Nat.add_assoc, Nat.add_comm 1 n]

/-- SQUEEZE permutes each time it reads past RATE. -/
theorem squeezePerms_eq {rate : Byte} (hr1 : 1 ≤ rate.toNat) (hr : rate.toNat ≤ 199) : ∀ (n : Nat) {o : Byte},
    o.toNat ≤ rate.toNat → squeezePerms rate n o = (o.toNat + n - 1) / rate.toNat
  | 0, o, ho => (Nat.div_eq_of_lt (by omega)).symm
  | n + 1, o, ho => by
    rw [squeezePerms]
    by_cases hb : o = rate
    · have hpast : o.toNat + (n + 1) - 1 = n + rate.toNat := by
        rw [hb]
        omega
      rw [if_pos hb, squeezePerms_eq hr1 hr n (by simpa using hr1), hpast, Nat.add_div_right _ hr1]
      simp
    · have hne : o.toNat ≠ rate.toNat := fun he => hb (BitVec.eq_of_toNat_eq he)
      have hadv := toNat_advance (o := o) (by omega)
      rw [if_neg hb, squeezePerms_eq hr1 hr n (by omega), hadv, Nat.add_assoc, Nat.add_comm 1 n]

/-- The cursor after absorbing is where its bytes end, modulo RATE (R148). -/
theorem foldl_absorbReference_mod {r : Nat} : ∀ (bs : List Byte) (a : Lanes) (o : Nat), o < r →
    (bs.foldl (absorbReference r) (a, o)).2 = (o + bs.length) % r
  | [], _, o, ho => (Nat.mod_eq_of_lt ho).symm
  | b :: bs, a, o, ho => by
    rw [List.foldl_cons, absorbReference]
    by_cases hb : o + 1 = r
    · rw [if_pos hb, foldl_absorbReference_mod bs _ 0 (by omega), List.length_cons,
        show o + (bs.length + 1) = 0 + bs.length + r by omega, Nat.add_mod_right]
    · rw [if_neg hb, foldl_absorbReference_mod bs _ (o + 1) (by omega), List.length_cons, Nat.add_assoc, Nat.add_comm 1]

/-! ### The permutations of a stream -/

theorem streamPerms_cons {w : Word} {s t : State} {r : Word} (ws : List Word) (h : transact w s = .next (t, r)) :
    streamPerms (w :: ws) s = permsOfWord w s + streamPerms ws t := by
  rw [streamPerms, h]

theorem streamPerms_append : ∀ {ws ws' : List Word} {s t : State} {rs : List Word}, stream ws s = .next (t, rs) →
    streamPerms (ws ++ ws') s = streamPerms ws s + streamPerms ws' t
  | [], ws', s, t, rs, h => by
    cases h
    exact (Nat.zero_add _).symm
  | w :: ws, ws', s, t, rs, h => by
    obtain ⟨u, r, rs', hu, hrest, -⟩ := stream_cons_cases h
    rw [List.cons_append, streamPerms_cons _ hu, streamPerms_cons _ hu, streamPerms_append hrest, Nat.add_assoc]

/-- ABSORBs of m bytes from OFFSET o perform (o + m) div RATE permutations (R148). -/
theorem streamPerms_absorbs : ∀ {is : List Instr} {s : State}, BetweenCommands s → s.mode = .absorbing → AllAbsorb is →
    streamPerms (is.map encode) s = (s.offset.toNat + (streamInput is).length) / s.rate.toNat
  | [], s, h, hm, _ => by
    obtain ⟨-, -, ho⟩ := betweenCommands_absorbReady h hm
    exact (Nat.div_eq_of_lt ho).symm
  | i :: is, s, h, hm, hall => by
    obtain ⟨-, hr, ho⟩ := betweenCommands_absorbReady h hm
    obtain ⟨hi, his⟩ := List.forall_mem_cons.mp hall
    obtain ⟨t, r, ht, hgood, hkept, hfold⟩ := transact_absorb hi h hm
    have hcursor : t.offset.toNat = (s.offset.toNat + (absorbOperands i).length) % s.rate.toNat := by
      rw [← foldl_absorbReference_mod (absorbOperands i) s.mem.lanes _ ho, ← hfold]
    have hlen : (streamInput (i :: is)).length = (absorbOperands i).length + (streamInput is).length := by
      simp [streamInput]
    rw [List.map_cons, streamPerms_cons _ ht, permsOfWord_encode, permsOf_absorb hi, if_pos hm, absorbPerms_eq hr _ ho,
      streamPerms_absorbs hgood (hkept.mode.trans hm) his, hkept.rate, hcursor, hlen, ← Nat.add_assoc]
    generalize s.offset.toNat + (absorbOperands i).length = n
    rw [← Nat.mul_add_div (by omega : s.rate.toNat > 0), ← Nat.add_assoc, Nat.div_add_mod]

/-- SQUEEZEs of L bytes from OFFSET o perform (o + L - 1) div RATE permutations (R147). -/
theorem streamPerms_squeezes : ∀ {is : List Instr} {s : State}, BetweenCommands s → s.mode = .squeezing → AllSqueeze is →
    streamPerms (is.map encode) s = (s.offset.toNat + streamLength is - 1) / s.rate.toNat
  | [], s, h, hm, _ => by
    obtain ⟨-, hr1, -, ho⟩ := betweenCommands_squeezeReady h hm
    exact (Nat.div_eq_of_lt (by simp [streamLength]; omega)).symm
  | i :: is, s, h, hm, hall => by
    have hready := betweenCommands_squeezeReady h hm
    obtain ⟨hi, his⟩ := List.forall_mem_cons.mp hall
    obtain ⟨t, ht, -, -, -, hcursor, hmode, ⟨hrate, -⟩, -⟩ := exec_squeezing hi hready hm
    obtain ⟨-, hr1, hr, ho⟩ := hready
    have hgood : BetweenCommands (takeResponse t) :=
      betweenCommands_takeResponse ((executed_of_exec ht).betweenCommands h)
    have hlen : streamLength (i :: is) = squeezeCount i + streamLength is := rfl
    rw [List.map_cons, streamPerms_cons _ (transact_encode ht), permsOfWord_encode, permsOf_squeeze hi, if_pos hm,
      squeezePerms_eq hr1 hr _ ho, streamPerms_squeezes hgood hmode his, takeResponse_rate, takeResponse_offset, hrate,
      hcursor, ← Nat.mul_add_div hr1, hlen]
    have hq := Nat.mul_div_le (s.offset.toNat + squeezeCount i - 1) s.rate.toNat
    congr 1
    omega

/-- (L - 1) div RATE permutations are ceil(L / RATE) - 1 of them, or none (R147). -/
theorem pred_div_eq_ceil {r : Nat} (hr : 1 ≤ r) (len : Nat) : (len - 1) / r = (len + r - 1) / r - 1 := by
  rcases Nat.eq_zero_or_pos len with rfl | hpos
  · simp [Nat.div_eq_of_lt (show r - 1 < r by omega)]
  · rw [show len + r - 1 = len - 1 + r by omega, Nat.add_div_right _ hr, Nat.add_sub_cancel]

/-- From OFFSET 0, SQUEEZEs of L bytes perform max(0, ceil(L / RATE) - 1) permutations (R147). -/
theorem streamPerms_squeezes_of_block {is : List Instr} {s : State} (h : BetweenCommands s) (hm : s.mode = .squeezing)
    (ho : s.offset = 0) (his : AllSqueeze is) :
    streamPerms (is.map encode) s = (streamLength is + s.rate.toNat - 1) / s.rate.toNat - 1 := by
  obtain ⟨-, hr1, -⟩ := betweenCommands_squeezeReady h hm
  rw [streamPerms_squeezes h hm his, show s.offset.toNat = 0 by simp [ho], ← pred_div_eq_ceil hr1, Nat.zero_add]

/-! ### The statements -/

/-- Settles O51: what a stream of ABSORBs leaves is a fold over its bytes (`stream_absorbs`). -/
theorem absorbStreamsAgreeUnderAnySplitting : Obligations.AbsorbStreamsAgreeUnderAnySplitting := by
  intro is js s h hm his hjs heq
  obtain ⟨t, rs, ht, ⟨hwt, -⟩, hkt, hft⟩ := stream_absorbs h hm his
  obtain ⟨u, qs, hu, ⟨hwu, -⟩, hku, hfu⟩ := stream_absorbs h hm hjs
  obtain ⟨hlanes, hoffset⟩ := Prod.mk.inj ((heq ▸ hft).trans hfu.symm)
  obtain ⟨hrate, hdelim, hmode, hfcode⟩ := hkt
  obtain ⟨hrate', hdelim', hmode', hfcode'⟩ := hku
  refine ⟨t, u, rs, qs, ht, hu, ?_, BitVec.eq_of_toNat_eq hoffset, hmode.trans hmode'.symm, hrate.trans hrate'.symm,
    hdelim.trans hdelim'.symm, hfcode.trans hfcode'.symm⟩
  rw [← Memory.ofLanes_lanes hwt, ← Memory.ofLanes_lanes hwu, hlanes]

/-- Settles O52: the fold of the bytes (`stream_absorbs`), its cursor, and the count along the stream
(`streamPerms_absorbs`). -/
theorem absorbStreamsCountTheirPermutations : Obligations.AbsorbStreamsCountTheirPermutations := by
  intro is s h hm his m
  obtain ⟨-, -, ho⟩ := betweenCommands_absorbReady h hm
  obtain ⟨t, rs, ht, -, hkept, hfold⟩ := stream_absorbs h hm his
  refine ⟨t, rs, ht, hkept.mode.trans hm, hfold, streamPerms_absorbs h hm his, ?_⟩
  rw [← foldl_absorbReference_mod (streamInput is) s.mem.lanes _ ho, ← hfold]

/-- Settles O53: the bytes are those of the output stream (`stream_squeezes`), from its beginning since OFFSET is 0. -/
theorem squeezeStreamsGiveTheOutput : Obligations.SqueezeStreamsGiveTheOutput := by
  intro is s h hm ho his
  obtain ⟨t, rs, ht, -, hkept, hout⟩ := stream_squeezes h hm his
  refine ⟨t, rs, ht, hkept.mode.trans hm, by rw [stream_length ht, List.length_map], ?_,
    streamPerms_squeezes_of_block h hm ho his⟩
  rw [hout, squeezedBytes]
  refine List.map_congr_left fun k _ => ?_
  simp [outputFrom, ho]

/-- Settles O54: both outputs are beginnings of the one stream (`stream_squeezes`). -/
theorem shorterOutputsAreBeginnings : Obligations.ShorterOutputsAreBeginnings := by
  intro is js s h hm his hjs hle
  obtain ⟨t, rs, ht, -, -, hout⟩ := stream_squeezes h hm his
  obtain ⟨u, qs, hu, -, -, hout'⟩ := stream_squeezes h hm hjs
  refine ⟨t, u, rs, qs, ht, hu, ?_⟩
  rw [hout, hout', ← List.map_take, List.take_range, Nat.min_eq_left hle]

/-- Settles O55: INIT performs none, the ABSORBs start at OFFSET 0, FINALIZE performs one, and the SQUEEZEs start at
OFFSET 0 again. -/
theorem lifetimePermutationCount : Obligations.LifetimePermutationCount := by
  intro rate delim is js s h hm hr1 hr his hjs
  obtain ⟨t₁, r₁, h₁, hgood₁, hmode₁, hrate₁, -, hoffset₁, -⟩ := transact_init (delim := delim) h hm ⟨hr1, hr⟩
  obtain ⟨t₂, rs₂, h₂, hgood₂, hkept₂, -⟩ := stream_absorbs hgood₁ hmode₁ his
  have hmode₂ := hkept₂.mode.trans hmode₁
  obtain ⟨t₃, r₃, h₃, hgood₃, hmode₃, hrate₃, hoffset₃, -⟩ := transact_finalize hgood₂ hmode₂
  have hrate : t₃.rate = rate := hrate₃.trans (hkept₂.rate.trans hrate₁)
  have hinit : permsOfWord (encode (.init rate delim)) s = 0 := by rw [permsOfWord_encode, permsOf]
  have hfinalize : permsOfWord (encode .finalize) t₂ = 1 := by rw [permsOfWord_encode, permsOf, if_pos hmode₂]
  have habsorb := streamPerms_absorbs hgood₁ hmode₁ his
  have hsqueeze := streamPerms_squeezes_of_block hgood₃ hmode₃ hoffset₃ hjs
  rw [show t₁.offset.toNat = 0 by simp [hoffset₁], hrate₁, Nat.zero_add] at habsorb
  rw [hrate] at hsqueeze
  rw [List.cons_append, streamPerms_cons _ h₁, streamPerms_append h₂, streamPerms_cons _ h₃, hinit, hfinalize, habsorb,
    hsqueeze, Nat.zero_add, Nat.add_assoc]

end Sys2Proof.Machine

/-! ## O11 to O13 and O27: faults (R180 to R185)

Outside FAULT the checks of a command are one check of its OP, its rate byte and MODE (`commandCheck_encode`), whose cause is
the fault entry, and a command that passes it does not end in FAULT (`exec_of_passed_check`). In FAULT nothing but the response
changes: by a word at the command level (`respond_of_fault`), and by an edge with `rst` = 0 (`clockEdge_of_fault`). -/

namespace Sys2Proof.Machine

/-! ### Words in FAULT (R182) -/

/-- A response given in FAULT carries MODE 3 and the recorded FCODE. -/
theorem respond_of_fault {s : State} (hm : s.mode = .fault) (data : BitVec 24) :
    respond data s = { s with rspReg := (0#2) ++ s.fcode ++ (3#2) ++ data, rspPending := true, flight := none } := by
  rw [respond, responseWord, hm]
  rfl

/-- Settles O11: a word in FAULT is only answered (`execWord_of_fault`). -/
theorem faultStateIsSticky : Obligations.FaultStateIsSticky := by
  intro w s hm
  exact (execWord_of_fault hm).trans (congrArg Host.Outcome.next (respond_of_fault hm _))

/-! ### The order of the checks (R183) -/

/-- The first check of R183 that a command with this OP and rate byte fails in this MODE. -/
def firstFailedCheck (op : BitVec 4) (rate : Nat) (mode : Mode) : Option Cause :=
  if op = 1 ∧ ¬(1 ≤ rate ∧ rate ≤ 199) then some .invalidRate
  else if (op = 2 ∨ op = 3 ∨ op = 4) ∧ mode = .idle then some .notConfigured
  else if op = 2 ∧ mode = .squeezing then some .absorbAfterFinalize
  else if op = 3 ∧ mode = .squeezing then some .finalizeAfterFinalize
  else if op = 4 ∧ mode = .absorbing then some .squeezeBeforeFinalize
  else none

/-- What a command checks is R183's list, on the fields of its word. -/
theorem commandCheck_encode (i : Instr) (s : State) :
    commandCheck i s = firstFailedCheck (opField (encode i)) (byteField (encode i) 1).toNat s.mode := by
  cases i with
  | status => simp [commandCheck, firstFailedCheck, encode]
  | init rate delim =>
    by_cases hr : 1 ≤ rate.toNat ∧ rate.toNat ≤ 199 <;>
      simp [commandCheck, firstFailedCheck, encode, legalRate_iff, hr]
  | absorb1 | absorb2 | absorb3 => cases hm : s.mode <;> simp [commandCheck, firstFailedCheck, encode, absorbCheck, hm]
  | finalize => cases hm : s.mode <;> simp [commandCheck, firstFailedCheck, encode, finalizeCheck, hm]
  | squeeze1 | squeeze2 | squeeze3 =>
    cases hm : s.mode <;> simp [commandCheck, firstFailedCheck, encode, squeezeCheck, hm]

/-- A command that passes its check does not end in FAULT. -/
theorem exec_of_passed_check {i : Instr} {s t : State} (hm : s.mode ≠ .fault) (hc : commandCheck i s = none)
    (h : exec i s = .next t) : t.mode ≠ .fault ∧ t.fcode = s.fcode := by
  cases executed_of_exec h with
  | status => exact ⟨hm, rfl⟩
  | inFault hm' => exact absurd hm' hm
  | raised _ hc' => cases hc.symm.trans hc'
  | init => exact ⟨by simp, rfl⟩
  | absorb _ _ hu =>
    have hs := absorbBytes_spongeOnly hu
    exact ⟨hs.mode.trans_ne hm, hs.fcode⟩
  | finalize _ hu =>
    have hs := (padBlock_spongeOnly hu).1
    exact ⟨by simp, (permuteBlock_fcode _).trans hs.fcode⟩
  | squeeze _ _ hu =>
    have hs := squeezeBytes_spongeOnly hu
    exact ⟨hs.mode.trans_ne hm, hs.fcode⟩

/-- Settles O12: a well-formed word is its command's, and makes that command's check (`commandCheck_encode`). -/
theorem checksInOrderOfPriority : Obligations.ChecksInOrderOfPriority := by
  refine ⟨fun w s hm => ?_, fun w s t hm h => ?_, fun rpc p s hr => ⟨_, clockEdge_reset hr, rfl⟩⟩
  · intro op rate
    split
    case isTrue hw => exact execWord_illegal (by simp [← wellFormedWord_iff, hw]) hm
    case isFalse hw =>
      obtain ⟨i, rfl⟩ := wellFormedWord_iff.mp (by simpa using hw)
      have hcheck : commandCheck i s = firstFailedCheck op rate s.mode := commandCheck_encode i s
      rw [execWord_encode]
      unfold firstFailedCheck at hcheck
      split_ifs at hcheck ⊢
      iterate 5 exact exec_of_check hm hcheck
      exact fun t => exec_of_passed_check hm hcheck
  · cases (execWord_of_fault hm).symm.trans h
    rfl

/-! ### Fault entries (R181, R184) -/

/-- A word that enters FAULT raises a fault and does nothing else. -/
theorem execWord_enters_fault {w : Word} {s t : State} (h : execWord w s = .next t) (hs : s.mode ≠ .fault)
    (ht : t.mode = .fault) : ∃ c, t = raiseFault c s := by
  rcases execWord_cases h with ⟨i, -, he⟩ | ⟨hm, -⟩ | ⟨-, rfl⟩
  · rcases he.outline with ⟨data, u, hu, rfl⟩ | ⟨-, hc⟩ | ⟨-, rate, delim, -, rfl⟩ | ⟨-, -, u, -, rfl⟩
    · exact absurd (hu.mode.symm.trans ht) hs
    · exact hc
    · cases ht
    · cases ht
  · exact absurd hm hs
  · exact ⟨_, rfl⟩

/-- DATA is the low 24 bits of a response (R82). -/
theorem responseWord_data (fcode : BitVec 4) (mode : Mode) (data : BitVec 24) :
    (responseWord fcode mode data).extractLsb' 0 24 = data :=
  BitVec.extractLsb'_append_eq_right

/-- Settles O13: the word raises a fault (`execWord_enters_fault`), which is the fault entry of its code. -/
theorem faultsArePrecise : Obligations.FaultsArePrecise := by
  intro w s t h hs ht
  obtain ⟨c, rfl⟩ := execWord_enters_fault h hs ht
  exact ⟨rfl, rfl, rfl, rfl, rfl, rfl, responseWord_data _ _ _, c.code, raiseFault_eq c s⟩

/-! ### Steps in FAULT (R182, R185) -/

/-- `t` is in FAULT with the FCODE, S, configuration and cursor of `s`. -/
def StaysInFault (s t : State) : Prop :=
  t.mode = .fault ∧ t.fcode = s.fcode ∧ t.mem = s.mem ∧ t.rate = s.rate ∧ t.delim = s.delim ∧ t.offset = s.offset

/-- All that is left of a command in FAULT is its response. -/
theorem StepInv.work_of_fault {rpc : RoundsPerCycle} {s : State} {w : Work} (h : StepInv rpc s) (hm : s.mode = .fault)
    (hf : s.flight = some w) : ∃ data, w = .respond data := by
  obtain ⟨hflight, -⟩ := (stepInv_of_busy hf).mp h
  cases w with
  | respond data => exact ⟨data, rfl⟩
  | fault c => exact absurd hm (h.mode_of_fault hf)
  | absorb | finalize | squeeze =>
    obtain ⟨-, hmode, -⟩ := hflight.inPermutation rfl
    cases hm.symm.trans hmode

/-- In FAULT an edge with `rst` = 0 accepts a word only to answer it, gives the answer, or waits. -/
theorem clockEdge_of_fault {rpc : RoundsPerCycle} {p : Ports} {s t : State} (hs : StepInv rpc s) (hm : s.mode = .fault)
    (hr : p.rst = false) (h : clockEdge rpc p s = .next t) : StaysInFault s t := by
  rcases clockEdge_cases h with ⟨hr', -⟩ | ⟨-, -, -, -, hk⟩ | ⟨-, -, w, hf, ha⟩ | ⟨-, -, -, -, rfl⟩
  · cases hr.symm.trans hr'
  · rw [beginWord, if_pos (by exact hm)] at hk
    cases hk
    exact ⟨hm, rfl, rfl, rfl, rfl, rfl⟩
  · obtain ⟨data, rfl⟩ := hs.work_of_fault hm hf
    cases ha
    exact ⟨hm, rfl, rfl, rfl, rfl, rfl⟩
  · exact ⟨hm, rfl, rfl, rfl, rfl, rfl⟩

/-- In FAULT a word is only answered. -/
theorem execWord_staysInFault {w : Word} {s t : State} (hm : s.mode = .fault) (h : execWord w s = .next t) :
    StaysInFault s t := by
  cases (execWord_of_fault hm).symm.trans h
  exact ⟨hm, rfl, rfl, rfl, rfl, rfl⟩

/-- Settles O27: a step without a reset is an edge with `rst` = 0 or a whole word, and both stay in FAULT. -/
theorem onlyResetLeavesFault : Obligations.OnlyResetLeavesFault := by
  intro s t hs h hm hr
  rcases hostStep_cases Config.roundsPerCycle s with ⟨p, rest, he⟩ | ⟨w, rest, hc⟩
  · have hrst : p.rst = false := by simpa [he.reset] using hr
    exact clockEdge_of_fault (s := { s with inputs := rest }) (by exact hs) hm hrst (he.step.symm.trans h)
  · have hword := hc.step.symm.trans h
    split_ifs at hword
    exact execWord_staysInFault (s := { releaseReset s with inputs := rest, offer := .none }) hm hword

end Sys2Proof.Machine

/-! ## O42, O45 and O48: reset, withdrawn offers, and the bounds of R219

An edge with `rst` = 1 is `resetCore` after `holdOffer`, whatever the core does (`clockEdge_reset`), so the registers after it
are those of R211 and the offer is the one `holdOffer` leaves. A command of n bytes permutes 3 times only when its bytes reach
three ends of a block, which needs 2 * RATE < n (`rate_eq_one_of_three_blocks`). -/

namespace Sys2Proof.Machine

/-! ### Three permutations of one command (R146, R219) -/

theorem length_absorbOperands_le (i : Instr) : (absorbOperands i).length ≤ 3 := by
  cases i <;> simp [absorbOperands]

/-- At most 3 bytes from a cursor in the first block, or at its end, end three blocks only when a block is one byte. -/
theorem rate_eq_one_of_three_blocks {m n : Nat} {rate : Byte} (hr : 1 ≤ rate.toNat) (hn : n ≤ 3)
    (hm : m < rate.toNat + n) (h : m / rate.toNat = 3) : rate = 1 ∧ n = 3 := by
  have hthree : 3 * rate.toNat ≤ m := (Nat.le_div_iff_mul_le hr).mp h.ge
  exact ⟨BitVec.eq_of_toNat_eq (by simp; omega), by omega⟩

/-- An ABSORB permutes 3 times only with 3 bytes at RATE 1. -/
theorem absorb_of_three_perms {i : Instr} {s : State} (h : BetweenCommands s) (hi : absorbOperands i ≠ [])
    (hp : permsOf i s.mode s.rate s.offset = 3) : s.rate = 1 ∧ (absorbOperands i).length = 3 := by
  rw [permsOf_absorb hi] at hp
  split_ifs at hp with hm
  obtain ⟨-, hr, ho⟩ := betweenCommands_absorbReady h hm
  rw [absorbPerms_eq hr _ ho] at hp
  exact rate_eq_one_of_three_blocks (by omega) (length_absorbOperands_le i) (by omega) hp

/-- A SQUEEZE permutes 3 times only with 3 bytes at RATE 1. -/
theorem squeeze_of_three_perms {i : Instr} {s : State} (h : BetweenCommands s) (hi : squeezeCount i ≠ 0)
    (hp : permsOf i s.mode s.rate s.offset = 3) : s.rate = 1 ∧ squeezeCount i = 3 := by
  rw [permsOf_squeeze hi] at hp
  split_ifs at hp with hm
  obtain ⟨-, hr1, hr, ho⟩ := betweenCommands_squeezeReady h hm
  rw [squeezePerms_eq hr1 hr _ ho] at hp
  exact rate_eq_one_of_three_blocks hr1 (squeezeCount_le i) (by omega) hp

/-- STATUS and INIT do not permute, and FINALIZE at most once. -/
theorem permsOf_le_one {i : Instr} (ha : absorbOperands i = []) (hq : squeezeCount i = 0) (mode : Mode)
    (rate offset : Byte) : permsOf i mode rate offset ≤ 1 := by
  cases i with
  | status | init => exact Nat.zero_le 1
  | finalize =>
    rw [permsOf]
    split_ifs <;> omega
  | absorb1 | absorb2 | absorb3 => cases ha
  | squeeze1 | squeeze2 | squeeze3 => cases hq

/-- Only 3-byte ABSORBs and SQUEEZEs at RATE 1 permute 3 times (R219). -/
theorem permsOf_eq_three {i : Instr} {s : State} (h : BetweenCommands s) (hp : permsOf i s.mode s.rate s.offset = 3) :
    s.rate = 1 ∧ ((absorbOperands i).length = 3 ∨ squeezeCount i = 3) := by
  by_cases ha : absorbOperands i = []
  · by_cases hq : squeezeCount i = 0
    · have hone := permsOf_le_one ha hq s.mode s.rate s.offset
      omega
    · exact (squeeze_of_three_perms h hq hp).imp_right .inr
  · exact (absorb_of_three_perms h ha hp).imp_right .inl

/-- At the default ROUNDS_PER_CYCLE a permutation takes 24 edges, and no word performs more than 3. -/
theorem latency_one_le (w : Word) (s : State) : latency .one w s ≤ 73 := by
  have hp := permsOfWord_le w s
  simp only [latency, show permCycles .one = 24 by rfl]
  omega

/-- Settles O48: a word that is no command performs no permutation, and one that is performs those of its command
(`permsOf_eq_three`). -/
theorem permutationsAndLatencyAreBounded : Obligations.PermutationsAndLatencyAreBounded := by
  intro w s h
  refine ⟨permsOfWord_le w s, fun hp => ?_, latency_one_le w s⟩
  rw [permsOfWord] at hp
  cases hd : decode w with
  | error e =>
    rw [hd] at hp
    cases hp
  | ok i =>
    rw [hd] at hp
    obtain ⟨hrate, hcount⟩ := permsOf_eq_three h hp
    exact ⟨hrate, i, rfl, hcount⟩

/-! ### An edge with `rst` = 1 (R210 to R212) -/

/-- Settles O42: the edge leaves the core that `resetCore` gives (`clockEdge_reset`), whose S reads 0 everywhere. -/
theorem resetEdgeSetsEveryRegister : Obligations.ResetEdgeSetsEveryRegister := by
  intro rpc p s hr
  exact ⟨_, clockEdge_reset hr, Memory.read_zeros, Memory.zeros_wf, rfl, rfl, rfl, rfl, rfl, rfl, rfl, rfl, rfl, rfl, rfl,
    rfl, rfl, rfl, by simp [cmdReady], by simp [rspValid]⟩

/-! ### Offers that are not kept up (R216) -/

theorem breaksOffer_of_broken {s : State} (p : Ports) (h : s.offer = .broken) : breaksOffer p s = true := by
  simp [breaksOffer, h]

/-- An edge at which the host breaks its offer is refused, or resets the core and leaves the offer broken. -/
theorem clockEdge_of_breaksOffer (rpc : RoundsPerCycle) {p : Ports} {s : State} (hb : breaksOffer p s = true) :
    (p.rst = false → clockEdge rpc p s = .refused .hostDroppedOffer) ∧
      (p.rst = true → ∃ t, clockEdge rpc p s = .next t ∧ t.offer = .broken) :=
  ⟨fun hr => clockEdge_refused hr hb, fun hr => ⟨_, clockEdge_reset hr, holdOffer_broken hb⟩⟩

/-- A host that offers a word, with no other word waiting, owes that word. -/
theorem holdOffer_of_word {p : Ports} {s : State} (hv : p.cmdValid = true)
    (ho : s.offer = .none ∨ s.offer = .waiting p.cmdWord) : (holdOffer p s).offer = .waiting p.cmdWord := by
  have hb : breaksOffer p s = false := by rcases ho with ho | ho <;> simp [breaksOffer, ho, hv]
  rw [holdOffer_kept hb]
  exact if_pos hv

/-- Settles O45: a withdrawn or changed offer, and one broken before, are broken at this edge (`clockEdge_of_breaksOffer`);
a word offered at a reset edge is held through it (`holdOffer_of_word`). -/
theorem withdrawnOffersAreRefused : Obligations.WithdrawnOffersAreRefused := by
  refine ⟨fun rpc p s w ho hbad => ?_, fun rpc p s ho => ?_, fun rpc p s hr hv ho => ?_⟩
  · exact clockEdge_of_breaksOffer rpc ((breaksOffer_waiting ho).mpr hbad)
  · exact clockEdge_of_breaksOffer rpc (breaksOffer_of_broken p ho)
  · exact ⟨_, clockEdge_reset hr, holdOffer_of_word hv ho⟩

end Sys2Proof.Machine
